-- ==== Sys2Proof/Word.lean ====
section
/-! DEFINITION. The byte, the element width and the byte order: the types every other file speaks of. -/

namespace Sys2Proof

/-- A byte (spec 00_scope R15: a natural 0 .. 255). -/
abbrev Byte := BitVec 8

/-- A legal element width (R7): one of 1, 2, 4 bytes. Any other width written to `CFG.WIDTH` is held as
written (R19) and is not of this type. -/
inductive Width where
  | w1
  | w2
  | w4
  deriving DecidableEq, Repr

/-- A byte order (R8): the values of `NATIVE_ORDER` and of the effective order `EORD`. -/
inductive ByteOrder where
  | little
  | big
  deriving DecidableEq, Repr

end Sys2Proof
end

