-- ==== Sys2Proof/Config.lean ====
section
/-! DEFINITION. What the hardware fixes (the policy record of R12) and the free values: constants with no
body, so that nothing can be proved about what they are. -/

namespace Sys2Proof

/-- The policy record of 00_scope R12: the element width and the two capacities the encoder compares with. The
record of this hardware is `Sys2Proof.Machine.hardwarePolicy`. -/
structure Policy where
  width : Width
  maxRun : Nat
  maxLit : Nat
  deriving DecidableEq, Repr

/-- FREE VALUE (log 7, DESIGN CHOICE, safe): what `pending` holds after a `raise` inside ENC, which
41_rle_encoder R95 leaves unspecified; drawn at the counter `State.freeCount`. -/
opaque Config.freePending : Nat → List Nat

/-- FREE VALUE (log 7, DESIGN CHOICE, safe): what `rc` holds after a `raise` inside ENC (R95). -/
opaque Config.freeRc : Nat → Nat

/-- FREE VALUE (log 8, DESIGN CHOICE, safe): what BLK.REPORT answers when `ST` is not DONE, where
44_block_control R127 defines no result: original size, padded size if reported, encoded bytes. -/
opaque Config.freeReport : Nat → Nat × Option Nat × Nat

/-- FREE VALUE (log 12, DESIGN CHOICE, safe): the byte at an index of the input that BLK.PAD (44_block_control R124)
takes where the driver holds no loaded input of `LEN` bytes. -/
opaque Config.freeInput : Nat → Nat → Byte

end Sys2Proof
end

