-- ==== Sys2Proof/Machine/Bytes.lean ====
section
/-! DEFINITION. Elements and bytes: how many bytes an element has, how an element becomes bytes
(43_output_sink R112) and how bytes become an element (20_memory R38). -/

namespace Sys2Proof.Machine

/-- `W`, the number of bytes of an element (00_scope R7). -/
def widthBytes : Width → Nat
  | .w1 => 1
  | .w2 => 2
  | .w4 => 4

/-- The width a value of `CFG.WIDTH` or a `POL` operand names, if it is legal (R7, R71). -/
def widthOf? : Nat → Option Width
  | 1 => some .w1
  | 2 => some .w2
  | 4 => some .w4
  | _ => none

/-- `2^(8W)`: the element type `T` is the naturals below it (R7). -/
def elemLimit (w : Width) : Nat :=
  2 ^ (8 * widthBytes w)

/-- The `n` bytes of `e`, least significant first: `b_j = (e div 256^j) mod 256`. -/
def bytesLE : Nat → Nat → List Byte
  | 0, _ => []
  | n + 1, e => BitVec.ofNat 8 e :: bytesLE n (e / 256)

/-- The natural whose bytes, least significant first, are given: `Σ b_j · 256^j`. -/
def assembleLE : List Byte → Nat
  | [] => 0
  | b :: bs => b.toNat + 256 * assembleLE bs

/-- `SER(e)` (43_output_sink R112): the `W` bytes of `e` in the order `o`. -/
def serialise (w : Width) (o : ByteOrder) (e : Nat) : List Byte :=
  match o with
  | .little => bytesLE (widthBytes w) e
  | .big => (bytesLE (widthBytes w) e).reverse

/-- The element a list of bytes stands for in the order `o` (20_memory R38). -/
def assemble (o : ByteOrder) (bs : List Byte) : Nat :=
  match o with
  | .little => assembleLE bs
  | .big => assembleLE bs.reverse

end Sys2Proof.Machine
end

