-- ==== Sys2Proof/Machine/Pol.lean ====
section
/-! DEFINITION. ControlWordPolicy: the pure functions of 40_control_word_policy (R71 to R80). The instructions
`POL.*` that return their values are in Machine/PolOps.lean. -/

namespace Sys2Proof.Machine

/-- The two control-word kinds (R72). -/
inductive Kind where
  | byte
  | full
  deriving DecidableEq, Repr

/-- `POL.KIND(W)` (R72): byte-sized control exactly at width 1. -/
def kindOf : Width → Kind
  | .w1 => .byte
  | .w2 => .full
  | .w4 => .full

/-- `POL.BITS(W)` (R73): `8·W`. -/
def bitsOf (w : Width) : Nat :=
  8 * widthBytes w

/-- `POL.CAP(W)` (R74): `2^(BITS−1) − 1`. -/
def capOf (w : Width) : Nat :=
  2 ^ (bitsOf w - 1) - 1

/-- `POL.RUNFLAG(W)` (R77): the control word with only its top bit set. -/
def runFlagOf (w : Width) : Nat :=
  2 ^ (bitsOf w - 1)

/-- The policy record of this hardware (R12, R75, R76): both capacities are `CAP(W)`. -/
def hardwarePolicy (w : Width) : Policy :=
  { width := w, maxRun := capOf w, maxLit := capOf w }

/-- `POL.FMT_RUN(W, rc)` (R78): `RUNFLAG | (rc + 1)` for `1 ≤ rc ≤ MAXRUN − 1`, no result outside. -/
def fmtRun (pol : Policy) (rc : Nat) : Option Nat :=
  if 1 ≤ rc ∧ rc + 1 ≤ pol.maxRun then some (runFlagOf pol.width ||| (rc + 1)) else none

/-- `POL.FMT_LIT(W, n)` (R79): `n` for `1 ≤ n ≤ MAXLIT`, no result outside. -/
def fmtLit (pol : Policy) (n : Nat) : Option Nat :=
  if 1 ≤ n ∧ n ≤ pol.maxLit then some n else none

/-- `POL.FMT_TERM(W)` (R80): 0. -/
def fmtTerm (_ : Width) : Nat :=
  0

end Sys2Proof.Machine
end

