-- ==== Sys2Proof/Syntax.lean ====
section
/-! DEFINITION. The instructions: one constructor per row of spec/opcode_table.json, in the table's order.
Nine token rows (the wire format, 30_encoding R53 to R59) and 25 operations invoked by name (R64, D5). -/

namespace Sys2Proof

/-- One write of a `CFG` register by the host (44_block_control R121): the register's name and the value.
WIDTH and LEN are naturals, NPLANES an integer (R21), BIGEND and APPEND one bit. -/
inductive CfgWrite where
  | width (v : Nat)
  | bigend (v : Bool)
  | nplanes (v : Int)
  | append (v : Bool)
  | len (v : Nat)
  deriving DecidableEq, Repr

/-- The instruction set. In a token, `k` is the count field `CNT` of a run (30_encoding R54, R55), `v` its
payload element, `vs` the payload of a literal, whose count field is the length of `vs` (R56). -/
inductive Instr where
  | runW1 (k : BitVec 7) (v : BitVec 8)
  | litW1 (vs : List (BitVec 8))
  | termW1
  | runW2 (k : BitVec 15) (v : BitVec 16)
  | litW2 (vs : List (BitVec 16))
  | termW2
  | runW4 (k : BitVec 31) (v : BitVec 32)
  | litW4 (vs : List (BitVec 32))
  | termW4
  | polKind (w : Nat)
  | polBits (w : Nat)
  | polCap (w : Nat)
  | polMaxrun (w : Nat)
  | polMaxlit (w : Nat)
  | polRunflag (w : Nat)
  | polFmtRun (w rc : Nat)
  | polFmtLit (w n : Nat)
  | polFmtTerm (w : Nat)
  | encReset
  | encAdd (v : Nat)
  | encFlush
  | psPlane (p : Nat)
  | psEncode
  | sinkOpen
  | ser (e : Nat)
  | sinkPut (e : Nat)
  | sinkTerm
  | blkConfig (c : CfgWrite)
  | blkStart
  | blkCheck
  | blkPad
  | blkLoad
  | blkReport
  | blkStatus
  deriving DecidableEq, Repr

end Sys2Proof
end

