-- ==== Sys2Proof/Machine/State.lean ====
section
/-! DEFINITION. The state (10_state R18), the reasons a step can stop, and the state after reset (R34). -/

namespace Sys2Proof.Machine

/-- The configuration registers (R19 to R23), each held as the host wrote it. -/
structure Cfg where
  width : Nat
  bigend : Bool
  nplanes : Int
  append : Bool
  len : Nat
  deriving DecidableEq, Repr

/-- The encoder registers (R25, R26). -/
structure Enc where
  pending : List Nat
  rc : Nat
  deriving DecidableEq, Repr

/-- The plane-splitter iterator (R28). -/
structure Iter where
  p : Nat
  i : Nat
  deriving DecidableEq, Repr

/-- The output sink (R29). -/
structure Sink where
  out : List Byte
  out0len : Nat
  deriving DecidableEq, Repr

/-- `RES.ST` (R30). -/
inductive Status where
  | idle
  | busy
  | done
  | error
  deriving DecidableEq, Repr

/-- `RES.ERR` (R30, R135). -/
inductive ErrKind where
  | none
  | configurationError
  | resourceExhaustion
  | ioFailure
  deriving DecidableEq, Repr

/-- The cause tags of R137 to R140. -/
inductive Cause where
  | width
  | planes
  | input
  | openSink
  | write
  deriving DecidableEq, Repr

/-- Status and report registers (R30, R31), with the recorded cause (R140). -/
structure Res where
  st : Status
  err : ErrKind
  cause : Option Cause
  origSize : Nat
  paddedSize : Nat
  padOccurred : Bool
  encodedBytes : Nat
  deriving DecidableEq, Repr

/-- A byte memory: cells in one canonical form, addresses strictly rising, no cell holding what an unlisted
address reads as (`Memory.wf` in Machine/Ops.lean). -/
abbrev Memory := List Host.Cell

/-- The input buffer `INB` (20_memory R36): its bytes, how many there are (`L·W`), and the logical length `L`. -/
structure InBuf where
  cells : Memory
  size : Nat
  elems : Nat
  deriving DecidableEq, Repr

/-- The environment's answer to one `BLK.LOAD` (R125, R138, R139): whether the buffer is obtained and whether the
input can be read; or a block reset arrives at this point (R153, log 17). -/
inductive LoadAnswer where
  | attempt (alloc read : Bool)
  | reset
  deriving DecidableEq, Repr

/-- The environment's answer to one `SINK.OPEN` (R111, R139): opened; refused, the sink truncated or not when
`APPEND = 0` (log 6); or a block reset before or after the truncation (log 17). -/
inductive OpenAnswer where
  | opened
  | refused (truncated : Bool)
  | reset (truncated : Bool)
  deriving DecidableEq, Repr

/-- The environment's answer to one append (R113, R49): accepted; refused, leaving the first `kept` bytes of it
(log 5); or a block reset during it, `kept` bytes having been appended (log 17). -/
inductive WriteAnswer where
  | accepted
  | refused (kept : Nat)
  | reset (kept : Nat)
  deriving DecidableEq, Repr

/-- What stands outside the block (R33): the parameter `NATIVE_ORDER`, the host's input bytes, the driver's
buffer after a load, and the answers to come; an attempt with no answer listed succeeds (log 4). -/
structure Env where
  nativeOrder : ByteOrder
  input : List Byte
  loaded : Option (List Byte)
  loads : List LoadAnswer
  opens : List OpenAnswer
  writes : List WriteAnswer
  deriving DecidableEq, Repr

/-- The reference reader `READ(bs, N, W, EORD)` (30_encoding R70), no part of the block (log 2): the stream, the
position, the parameters, the finished planes in order, and the plane being read. -/
structure Reader where
  bytes : List Byte
  pos : Nat
  nplanes : Nat
  width : Width
  order : ByteOrder
  done : List (List Nat)
  cur : List Nat
  deriving DecidableEq, Repr

/-- A result an operation returns to its caller (log 3). -/
inductive HostResult where
  | kind (k : Kind)
  | number (n : Nat)
  | bytes (bs : List Byte)
  | report (orig : Nat) (padded : Option Nat) (encoded : Nat)
  | status (st : Status) (err : ErrKind) (code : Nat) (cause : Option Cause)
  | elements (es : List Nat)
  deriving DecidableEq, Repr

/-- One request of the host (44_block_control R130, 70_reset_and_hazards R153, R156; log 1). -/
inductive HostRequest where
  | invoke (i : Instr)
  | supplyInput (bs : List Byte)
  | supplySink (bs : List Byte)
  | blockReset
  | read (bs : List Byte) (n : Nat) (w : Width) (o : ByteOrder)
  deriving DecidableEq, Repr

/-- The machine: the block's state (`cfg` to `res`, R18), its input buffer, what stands outside it, and the
model's own fields: the reader, the host's pending requests, the last returned result, the counter of free values. -/
structure State where
  cfg : Cfg
  enc : Enc
  ps : Iter
  sink : Sink
  res : Res
  inb : InBuf
  env : Env
  rd : Reader
  hostq : List HostRequest
  ret : Option HostResult
  freeCount : Nat
  deriving DecidableEq, Repr

/-- Faults: the machine stops. The three error kinds of the spec are not here: they are next states (R141). -/
inductive Fault where
  /-- Raised by the element read of `PS.PLANE` when a byte address is outside `INB` (20_memory R36), which only a
  width written between `BLK.PAD` and `PS.PLANE` can bring about. Safe. -/
  | inputOutOfBounds (addr : Nat)
  /-- Raised by `ENC.FLUSH`, and the flush in `ENC.ADD`, when `rc > 0` and `pending` has not exactly one element (41_rle_encoder R97, D16): the
  spec asks a model to refuse or fault there. Safe. -/
  | flushUnreachable
  deriving DecidableEq, Repr

/-- Refusals: no meaning is given. All are safe. -/
inductive Refusal where
  /-- Raised by an arm of `exec` whose instruction has no meaning yet. Safe. -/
  | notModelled (mnemonic : String)
  /-- Raised by every operation that evaluates `POL`, `SER` or the padding at a width other than 1, 2, 4 (R71, N15). Safe. -/
  | illegalWidth
  /-- Raised by `POL.FMT_RUN`, and a flush of such a count, outside `1 ≤ rc ≤ MAXRUN − 1` (R78, U10; log 20, log 28). Safe. -/
  | fmtRunRange
  /-- Raised by `POL.FMT_LIT`, and a flush of such a length, outside `1 ≤ n ≤ MAXLIT` (R79, U10; log 20, log 28). Safe. -/
  | fmtLitRange
  /-- Raised by `ENC.ADD`, `SINK.PUT` and `SER` when the operand, and by a flush when a held element, is no element of the
  configured width (R83, R112, D23; log 19, log 28). Safe. -/
  | elementOutOfRange
  /-- Raised by `PS.PLANE(p)` unless `p < N` (R101; log 25). Safe. -/
  | planeOutOfRange
  /-- Raised by the element read `IN[i]` when `i ≥ L` (R46, D18). Safe. -/
  | elementIndex
  /-- Raised by the reader on a run token with count 0 or 1 (R62, R70, U12). Safe. -/
  | reservedRunCount
  /-- Raised by the reader on a literal token whose length no count field of 1 .. MAXLIT can hold (R56, R62). Safe. -/
  | literalLength
  /-- Raised by the reader on a token of another width than the stream's (R45, R162; log 21). Safe. -/
  | tokenWidth
  /-- Raised by a token when all planes have been read or no stream is being read (R70; log 21). Safe. -/
  | noPlaneOpen
  /-- Raised by the reader when a read runs past the end of the bytes (R70). Safe. -/
  | streamTruncated
  /-- Raised by the reader when bytes remain after the last terminator, or with no plane to read (R70). Safe. -/
  | trailingBytes
  /-- Raised by the reader when the planes' lengths fit no interleaving (R70). Safe. -/
  | planeLengths
  deriving DecidableEq, Repr

/-- The reader with no stream to read. -/
def readerIdle : Reader :=
  { bytes := [], pos := 0, nplanes := 0, width := .w1, order := .little, done := [], cur := [] }

/-- Reset values of the configuration registers (R34). -/
def cfgReset : Cfg :=
  { width := 1, bigend := false, nplanes := 1, append := false, len := 0 }

/-- Reset values of the status and report registers (R34); no cause is recorded (log 15). -/
def resReset : Res :=
  { st := .idle, err := .none, cause := .none, origSize := 0, paddedSize := 0, padOccurred := false, encodedBytes := 0 }

/-- The machine right after reset (R34, R154): the block at its reset values; outside it an empty sink (log 13), no
input and no answer listed (log 4, log 10), `NATIVE_ORDER` at its default (log 9), nothing requested (log 1). -/
def State.reset : State :=
  { cfg := cfgReset
    enc := { pending := [], rc := 0 }
    ps := { p := 0, i := 0 }
    sink := { out := [], out0len := 0 }
    res := resReset
    inb := { cells := [], size := 0, elems := 0 }
    env := { nativeOrder := .little, input := [], loaded := .none, loads := [], opens := [], writes := [] }
    rd := readerIdle
    hostq := []
    ret := .none
    freeCount := 0 }

end Sys2Proof.Machine
end

