-- ==== Sys2Proof/Machine/Ops.lean ====
section
/-! DEFINITION. The named operations: how an operation ends, raising an error (60_exceptions R141), the block reset
(R153), the input memory (20_memory R36), the environment's answers (R33) and the one write primitive (R41). -/

namespace Sys2Proof.Machine

/-- How an operation ends: it ran to its end; a `raise` ended it (R141); a block reset ended it (R153); the
machine faults; or it has no meaning. All but the first end every enclosing operation too. -/
inductive Flow where
  | cont (s : State)
  | raised (s : State)
  | abandoned (s : State)
  | faulted (f : Fault)
  | stuck (r : Refusal)
  deriving DecidableEq, Repr

/-- Run `k` after an operation that ran to its end. -/
def Flow.andThen (x : Flow) (k : State → Flow) : Flow :=
  match x with
  | .cont s => k s
  | .raised s => .raised s
  | .abandoned s => .abandoned s
  | .faulted f => .faulted f
  | .stuck r => .stuck r

/-- What the host sees of an operation: an error and a block reset are next states. -/
def Flow.outcome : Flow → Host.Outcome State Fault Refusal
  | .cont s => .next s
  | .raised s => .next s
  | .abandoned s => .next s
  | .faulted f => .fault f
  | .stuck r => .refused r

/-- `raise K(info)` (R141): `ERR <- K`, the cause tag `<- info`, `ST <- ERROR`; nothing else changes. -/
def raiseError (k : ErrKind) (c : Option Cause) (s : State) : State :=
  { s with res := { s.res with st := .error, err := k, cause := c } }

/-- The block reset (R153, R34): the block's own state at its reset values; the sink's content, the input buffer and
all that stands outside the block are untouched (log 17). -/
def blockReset (s : State) : State :=
  { s with
    cfg := cfgReset
    enc := { pending := [], rc := 0 }
    ps := { p := 0, i := 0 }
    sink := { s.sink with out0len := 0 }
    res := resReset }

/-- The numeric code of an error kind (R136). -/
def errCode : ErrKind → Nat
  | .none => 0
  | .configurationError => 1
  | .resourceExhaustion => 2
  | .ioFailure => 3

/-! ### Register writes -/

/-- `pending <- xs`. -/
def State.setPending (s : State) (xs : List Nat) : State :=
  { s with enc := { s.enc with pending := xs } }

/-- `rc <- n`. -/
def State.setRc (s : State) (n : Nat) : State :=
  { s with enc := { s.enc with rc := n } }

/-- `pending <- []; rc <- 0`. -/
def State.clearEnc (s : State) : State :=
  { s with enc := { pending := [], rc := 0 } }

/-- `i <- n` of the iterator. -/
def State.setI (s : State) (n : Nat) : State :=
  { s with ps := { s.ps with i := n } }

/-- `p <- n` of the iterator. -/
def State.setP (s : State) (n : Nat) : State :=
  { s with ps := { s.ps with p := n } }

/-- The result handed back to the caller (log 3). -/
def State.answer (s : State) (r : HostResult) : State :=
  { s with ret := some r }

/-- `pending` and `rc` after a `raise` inside ENC (R95): free values within the registers' ranges (R25, R26), drawn at
`freeCount`, which advances (log 7). -/
def scrambleEnc (pol : Policy) (s : State) : State :=
  { s with
    enc :=
      { pending := ((Config.freePending s.freeCount).take pol.maxLit).map (· % elemLimit pol.width)
        rc := Config.freeRc s.freeCount % pol.maxRun }
    freeCount := s.freeCount + 1 }

/-! ### The input memory -/

/-- What an unlisted address reads as (log 10): the padding's value. -/
def Memory.unlisted : Byte :=
  0

/-- The byte at an address. -/
def Memory.read : Memory → Nat → Byte
  | [], _ => Memory.unlisted
  | (b, v) :: m, a => if a = b then v else Memory.read m a

/-- The memory that holds `bs` from address `a` upward and nothing else. -/
def Memory.ofBytes : Nat → List Byte → Memory
  | _, [] => []
  | a, b :: bs => if b = Memory.unlisted then Memory.ofBytes (a + 1) bs else (a, b) :: Memory.ofBytes (a + 1) bs

/-- Cells from address `lo` upward, addresses strictly rising, none holding the unlisted value. -/
def Memory.wfFrom : Nat → Memory → Bool
  | _, [] => true
  | lo, (a, v) :: m => decide (lo ≤ a) && v != Memory.unlisted && Memory.wfFrom (a + 1) m

/-- The canonical form. -/
def Memory.wf (m : Memory) : Bool :=
  Memory.wfFrom 0 m

/-- The `n` bytes of a memory from address `a` upward. -/
def Memory.readBytes (m : Memory) : Nat → Nat → List Byte
  | _, 0 => []
  | a, n + 1 => m.read a :: Memory.readBytes m (a + 1) n

/-- `MemRead(addr, n)` (R16): the bytes at `addr .. addr+n−1`, all of which must be addresses of `INB`. -/
def memRead (b : InBuf) (addr n : Nat) : Except Fault (List Byte) :=
  if addr + n ≤ b.size then .ok (Memory.readBytes b.cells addr n) else .error (.inputOutOfBounds addr)

/-- `INB <- bs`, `L <- elems` (R124). -/
def State.setInput (s : State) (bs : List Byte) (elems : Nat) : State :=
  { s with inb := { cells := Memory.ofBytes 0 bs, size := bs.length, elems := elems } }

/-! ### The environment's answers -/

/-- The answer to the next append, taken off the list (log 4). -/
def nextWrite (s : State) : WriteAnswer × State :=
  match s.env.writes with
  | [] => (.accepted, s)
  | a :: as => (a, { s with env := { s.env with writes := as } })

/-- The answer to the next open, taken off the list (log 4). -/
def nextOpen (s : State) : OpenAnswer × State :=
  match s.env.opens with
  | [] => (.opened, s)
  | a :: as => (a, { s with env := { s.env with opens := as } })

/-- The answer to the next load, taken off the list (log 4). -/
def nextLoad (s : State) : LoadAnswer × State :=
  match s.env.loads with
  | [] => (.attempt true true, s)
  | a :: as => (a, { s with env := { s.env with loads := as } })

/-- `OUT <- OUT ++ bs`. -/
def State.appendOut (s : State) (bs : List Byte) : State :=
  { s with sink := { s.sink with out := s.sink.out ++ bs } }

/-- `ENCODED_BYTES <- n`. -/
def State.setEncoded (s : State) (n : Nat) : State :=
  { s with res := { s.res with encodedBytes := n } }

/-- `SinkAppend(bs)` (R41, R113): accepted, the bytes are appended and counted; refused, a prefix of them stays and
IOFailure(write) is raised (R49, R139). -/
def sinkAppend (bs : List Byte) (s : State) : Flow :=
  match nextWrite s with
  | (.accepted, s) => .cont ((s.appendOut bs).setEncoded (s.res.encodedBytes + bs.length))
  | (.refused kept, s) => .raised (raiseError .ioFailure (some .write) (s.appendOut (bs.take kept)))
  | (.reset kept, s) => .abandoned (blockReset (s.appendOut (bs.take kept)))

end Sys2Proof.Machine
end

