-- ==== Sys2Proof/Machine/Flags.lean ====
section
/-! DEFINITION. The block has no condition codes (10_state R27): its flags are the three state classes of the
encoder, predicates over `(pending, rc)`. -/

namespace Sys2Proof.Machine

/-- `EMPTY` (R27). -/
def Enc.isEmpty (e : Enc) : Bool :=
  e.pending.isEmpty && e.rc == 0

/-- `LITERAL` (R27). -/
def Enc.isLiteral (e : Enc) : Bool :=
  !e.pending.isEmpty && e.rc == 0

/-- `RUN` (R27). -/
def Enc.isRun (e : Enc) : Bool :=
  e.pending.length == 1 && e.rc != 0

end Sys2Proof.Machine
end

