-- ==== Sys2Proof/Machine/Operands.lean ====
section
/-! DEFINITION. Operands: the configured width and policy, the effective byte order (00_scope R8), the element
`IN[i]` of the input (20_memory R38), and the range of an element operand (R7, D23). -/

namespace Sys2Proof.Machine

/-- The effective order `EORD` (R8): `BIG` when `BIGEND = 1`, else `NATIVE_ORDER`. -/
def effectiveOrder (s : State) : ByteOrder :=
  if s.cfg.bigend then .big else s.env.nativeOrder

/-- Run `k` at the configured width; no `POL`, `PS` or `SINK` rule is evaluated at an illegal one (R71, R123; log 16). -/
def withWidth (s : State) (k : Width → Flow) : Flow :=
  match widthOf? s.cfg.width with
  | none => .stuck .illegalWidth
  | some w => k w

/-- Run `k` with the policy record of the configured width (R12). -/
def withPolicy (s : State) (k : Policy → Flow) : Flow :=
  withWidth s fun w => k (hardwarePolicy w)

/-- Run `k` if the operand is an element of width `w` (R7, R83, R112, D23). -/
def withElement (w : Width) (e : Nat) (k : Flow) : Flow :=
  if e < elemLimit w then k else .stuck .elementOutOfRange

/-- Run `k` at the width a `POL` operand names, if it is legal (R71). -/
def withOperandWidth (w : Nat) (k : Width → Flow) : Flow :=
  match widthOf? w with
  | none => .stuck .illegalWidth
  | some w => k w

/-- Run `k` on the element `IN[i]` (R38): refused when `i ≥ L` (R46, D18), a fault when its bytes are outside `INB`, which
can be only where `INB` was made under another `CFG.WIDTH` (log 20, log 28). -/
def withInput (w : Width) (i : Nat) (s : State) (k : Nat → Flow) : Flow :=
  if i < s.inb.elems then
    match memRead s.inb (i * widthBytes w) (widthBytes w) with
    | .ok bs => k (assemble (effectiveOrder s) bs)
    | .error f => .faulted f
  else .stuck .elementIndex

end Sys2Proof.Machine
end

