-- ==== Sys2Proof/Machine/SinkOps.lean ====
section
/-! DEFINITION. The output sink writer (43_output_sink R110 to R119). -/

namespace Sys2Proof.Machine

/-- `SINK.PUT(e)` at width `w` (R113): `SinkAppend(SER(e))`. A refused one leaves `pending` and `rc` alone (R141; log 30);
what becomes of them inside ENC is `emission`'s. -/
def put (w : Width) (e : Nat) (s : State) : Flow :=
  withElement w e (sinkAppend (serialise w (effectiveOrder s) e) s)

/-- `SINK.PUT` of each element in order. -/
def putAll (w : Width) : List Nat → State → Flow
  | [], s => .cont s
  | e :: es, s => (put w e s).andThen (putAll w es)

/-- `SINK.TERM` at width `w` (R114): `SINK.PUT(POL.FMT_TERM(W))`. -/
def terminate (w : Width) (s : State) : Flow :=
  put w (fmtTerm w) s

/-- What an open does to the sink's content (R40): truncation when `APPEND = 0`. -/
def State.truncateForOpen (s : State) : State :=
  if s.cfg.append then s else { s with sink := { s.sink with out := [] } }

/-- `OUT0LEN <- |OUT|` (R111). -/
def State.markOpen (s : State) : State :=
  { s with sink := { s.sink with out0len := s.sink.out.length } }

/-- `SINK.OPEN` (R111): refused, IOFailure(open) is raised, and whether a truncating open has truncated is the
environment's (R139, log 6). -/
def openSink (s : State) : Flow :=
  match nextOpen s with
  | (.opened, s) => .cont (s.truncateForOpen.markOpen.setEncoded 0)
  | (.refused truncated, s) =>
    .raised (raiseError .ioFailure (some .openSink) (if truncated then s.truncateForOpen else s))
  | (.reset truncated, s) => .abandoned (blockReset (if truncated then s.truncateForOpen else s))

/-- The instruction `SINK.OPEN`. -/
def execSinkOpen (s : State) : Host.Outcome State Fault Refusal :=
  (openSink s).outcome

/-- The instruction `SER(e)` (R112): the bytes of the element in the effective order; no state written. -/
def execSer (e : Nat) (s : State) : Host.Outcome State Fault Refusal :=
  (withWidth s fun w =>
    withElement w e (.cont (s.answer (.bytes (serialise w (effectiveOrder s) e))))).outcome

/-- The instruction `SINK.PUT(e)` (R113). -/
def execSinkPut (e : Nat) (s : State) : Host.Outcome State Fault Refusal :=
  (withWidth s fun w => put w e s).outcome

/-- The instruction `SINK.TERM` (R114). -/
def execSinkTerm (s : State) : Host.Outcome State Fault Refusal :=
  (withWidth s fun w => terminate w s).outcome

end Sys2Proof.Machine
end

