-- ==== Sys2Proof/Machine/EncOps.lean ====
section
/-! DEFINITION. The RunLengthEncoder state machine (41_rle_encoder R81 to R99), for any policy record (R12); the
instructions run it at the hardware's. -/

namespace Sys2Proof.Machine

/-- An emission of ENC (R95): when it is ended by a `raise`, `pending` and `rc` are unspecified. -/
def emission (pol : Policy) (x : Flow) : Flow :=
  match x with
  | .cont s => .cont s
  | .raised s => .raised (scrambleEnc pol s)
  | .abandoned s => .abandoned s
  | .faulted f => .faulted f
  | .stuck r => .stuck r

/-- `ENC.FLUSH` (R91): run arm R92, literal arm R93, empty arm R94. The registers are cleared after the last
`SINK.PUT` of the token (R95). `rc > 0` without exactly one pending element has no meaning (R97, D16; log 20). DESIGN
CHOICE (log 28, unsafe): registers filled under another `CFG.WIDTH` are flushed at the width of now, and what does not fit
it (an element, a count) is refused by name. -/
def flush (pol : Policy) (s : State) : Flow :=
  if 0 < s.enc.rc then
    match s.enc.pending with
    | [a] =>
      match fmtRun pol s.enc.rc with
      | some c => (emission pol (putAll pol.width [c, a] s)).andThen fun s => .cont s.clearEnc
      | none => .stuck .fmtRunRange
    | _ => .faulted .flushUnreachable
  else if 0 < s.enc.pending.length then
    match fmtLit pol s.enc.pending.length with
    | some c => (emission pol (putAll pol.width (c :: s.enc.pending) s)).andThen fun s => .cont (s.setPending [])
    | none => .stuck .fmtLitRange
  else .cont s

/-- `ENC.ADD(v)` (R83), case by case: A0 R84, A1 R85, A2 R86, A3 R87, A4 R88, A5 R89, A6 R90. DESIGN CHOICE (log 28, unsafe):
registers filled under another `CFG.WIDTH` are kept, and the tests of R87 and R90 are the equalities the rules write. -/
def addElement (pol : Policy) (v : Nat) (s : State) : Flow :=
  match s.enc.pending.getLast? with
  | none => .cont (s.setPending [v])
  | some t =>
    if v = t then
      (if s.enc.rc = 0 ∧ 2 ≤ s.enc.pending.length then
          (flush pol (s.setPending s.enc.pending.dropLast)).andThen fun s => .cont (s.setPending [t])
        else .cont s).andThen fun s =>
        if s.enc.rc + 1 = pol.maxRun - 1 then flush pol (s.setRc (s.enc.rc + 1))
        else .cont (s.setRc (s.enc.rc + 1))
    else if 0 < s.enc.rc then
      (flush pol s).andThen fun s => .cont (s.setPending [v])
    else if s.enc.pending.length + 1 = pol.maxLit then flush pol (s.setPending (s.enc.pending ++ [v]))
    else .cont (s.setPending (s.enc.pending ++ [v]))

/-- The instruction `ENC.RESET` (R82): what was buffered is dropped, not emitted (R157). -/
def execEncReset (s : State) : Host.Outcome State Fault Refusal :=
  .next s.clearEnc

/-- The instruction `ENC.ADD(v)` (R83). DESIGN CHOICE (log 28, unsafe): it reads `CFG` as it stands, also where the host has
written `WIDTH` or `BIGEND` since the encoder was last EMPTY (R7: "fixed for the lifetime of one encoder instance"). -/
def execEncAdd (v : Nat) (s : State) : Host.Outcome State Fault Refusal :=
  (withPolicy s fun pol => withElement pol.width v (addElement pol v s)).outcome

/-- The instruction `ENC.FLUSH` (R91). On an `EMPTY` encoder no `POL` function is evaluated, so it is a no-op at any
width (R94, log 16). It reads `CFG` as it stands (log 28). -/
def execEncFlush (s : State) : Host.Outcome State Fault Refusal :=
  if s.enc.isEmpty then .next s else (withPolicy s fun pol => flush pol s).outcome

end Sys2Proof.Machine
end

