-- ==== Sys2Proof/Machine/PsOps.lean ====
section
/-! DEFINITION. The PlaneSplitter iterator (42_plane_splitter R100 to R109). -/

namespace Sys2Proof.Machine

/-- The loop of `PS.PLANE` (R101): while `i < L`, add `IN[i]`, then `i <- i + N`. `fuel` bounds the iterations; `L` is
enough because `N ≥ 1` (R106). -/
def planeLoop (pol : Policy) (n : Nat) : Nat → State → Flow
  | 0, s => .cont s
  | fuel + 1, s =>
    if s.ps.i < s.inb.elems then
      withInput pol.width s.ps.i s fun v =>
        (addElement pol v s).andThen fun s => planeLoop pol n fuel (s.setI (s.ps.i + n))
    else .cont s

/-- `PS.PLANE(p)` with plane count `n` (R101): reset the encoder, add the plane's elements, flush, terminate. DEDUCED (log
30, unsafe): where the terminator's append is refused, `pending` and `rc` keep what they hold, because R141 leaves them
unspecified after a `raise` inside ENC alone. -/
def planeBody (n p : Nat) (s : State) : Flow :=
  withPolicy s fun pol =>
    ((planeLoop pol n s.inb.elems (s.clearEnc.setI p)).andThen (flush pol)).andThen (terminate pol.width)

/-- The loop of `PS.ENCODE` (R102): while `p < N`, encode plane `p`, then `p <- p + 1`. -/
def encodeLoop (n : Nat) : Nat → State → Flow
  | 0, s => .cont s
  | fuel + 1, s =>
    if s.ps.p < n then
      (planeBody n s.ps.p s).andThen fun s => encodeLoop n fuel (s.setP (s.ps.p + 1))
    else .cont s

/-- `PS.ENCODE` (R102). -/
def encodePlanes (s : State) : Flow :=
  encodeLoop s.cfg.nplanes.toNat s.cfg.nplanes.toNat (s.setP 0)

/-- The instruction `PS.PLANE(p)` (R101): `p` must be a plane, `p < N` (log 25). -/
def execPsPlane (p : Nat) (s : State) : Host.Outcome State Fault Refusal :=
  (if (p : Int) < s.cfg.nplanes then planeBody s.cfg.nplanes.toNat p s else .stuck .planeOutOfRange).outcome

/-- The instruction `PS.ENCODE` (R102). -/
def execPsEncode (s : State) : Host.Outcome State Fault Refusal :=
  (encodePlanes s).outcome

end Sys2Proof.Machine
end

