-- ==== Sys2Proof/Machine/BlkOps.lean ====
section
/-! DEFINITION. Block control (44_block_control R120 to R134): configure, start, check, load, pad, report, status. -/

namespace Sys2Proof.Machine

/-- `CFG.reg <- value` (R121); no check is made at the write. -/
def writeCfg (c : CfgWrite) (g : Cfg) : Cfg :=
  match c with
  | .width v => { g with width := v }
  | .bigend v => { g with bigend := v }
  | .nplanes v => { g with nplanes := v }
  | .append v => { g with append := v }
  | .len v => { g with len := v }

/-- `BLK.CHECK` (R123): width first, then planes. -/
def checkConfig (s : State) : Flow :=
  match widthOf? s.cfg.width with
  | none => .raised (raiseError .configurationError (some .width) s)
  | some _ =>
    if s.cfg.nplanes < 1 then .raised (raiseError .configurationError (some .planes) s) else .cont s

/-- The driver's buffer (R125). DESIGN CHOICE (log 29, unsafe): nothing but a load writes it, so it outlasts the invocation. -/
def State.setLoaded (s : State) (x : Option (List Byte)) : State :=
  { s with env := { s.env with loaded := x } }

/-- `BLK.LOAD` (R125): obtain the buffer, then read the whole input, `LEN` bytes, into it (R143). An input of fewer
bytes cannot be read whole (log 11). A failed load leaves nothing loaded (R138), and `INB`, `L` as they were (log 29). -/
def loadInput (s : State) : Flow :=
  match nextLoad s with
  | (.attempt alloc read, s) =>
    if alloc = false then .raised (raiseError .resourceExhaustion none (s.setLoaded none))
    else if read = false ∨ s.env.input.length < s.cfg.len then
      .raised (raiseError .ioFailure (some .input) (s.setLoaded none))
    else .cont (s.setLoaded (some (s.env.input.take s.cfg.len)))
  | (.reset, s) => .abandoned (blockReset s)

/-- The number of padding bytes (R124): `(W − (LEN mod W)) mod W`. -/
def padCount (w : Width) (len : Nat) : Nat :=
  (widthBytes w - len % widthBytes w) % widthBytes w

/-- The three report registers `BLK.PAD` writes (R124). -/
def State.setSizes (s : State) (orig padded : Nat) : State :=
  { s with res := { s.res with origSize := orig, paddedSize := padded, padOccurred := decide (padded ≠ orig) } }

/-- `INB <- bytes ++ 0^pad`, `L`, and the report registers (R124), for `LEN` input bytes. -/
def padBytes (w : Width) (bs : List Byte) (s : State) : State :=
  (s.setInput (bs ++ List.replicate (padCount w s.cfg.len) 0)
      ((s.cfg.len + padCount w s.cfg.len) / widthBytes w)).setSizes
    s.cfg.len (s.cfg.len + padCount w s.cfg.len)

/-- `LEN` input bytes where the driver holds no loaded input of that length: a free value, drawn at `freeCount` (log 12). -/
def freeInputBytes (s : State) : List Byte :=
  (List.range s.cfg.len).map (Config.freeInput s.freeCount)

/-- `BLK.PAD` (R124): on the loaded input of `LEN` bytes; where the driver holds none, on a free one, and the counter
advances (log 12). Bytes an earlier invocation has loaded are still loaded (log 29). -/
def padInput (s : State) : Flow :=
  withWidth s fun w =>
    match s.env.loaded with
    | none => .cont { padBytes w (freeInputBytes s) s with freeCount := s.freeCount + 1 }
    | some bs =>
      if bs.length = s.cfg.len then .cont (padBytes w bs s)
      else .cont { padBytes w (freeInputBytes s) s with freeCount := s.freeCount + 1 }

/-- The first lines of `BLK.START` (R122): `ST <- BUSY`, `ERR <- NONE` (and the cause with it, log 15), the report
registers 0. -/
def State.beginRun (s : State) : State :=
  { s with res := { resReset with st := .busy } }

/-- `ST <- DONE` (R129). DESIGN CHOICE (log 29, unsafe): `INB`, `L` and the loaded bytes stay; whether the driver has
released them R129 does not say. -/
def State.endRun (s : State) : State :=
  { s with res := { s.res with st := .done } }

/-- `BLK.START` once accepted (R122). -/
def runInvocation (s : State) : Flow :=
  ((((checkConfig s.beginRun).andThen loadInput).andThen padInput).andThen openSink).andThen fun s =>
    (encodePlanes s).andThen fun s => .cont s.endRun

/-- The instruction `BLK.CONFIG(reg, value)` (R121): ignored while `ST = BUSY` (R24, D8; log 14). -/
def execBlkConfig (c : CfgWrite) (s : State) : Host.Outcome State Fault Refusal :=
  if s.res.st = .busy then .next s else .next { s with cfg := writeCfg c s.cfg }

/-- The instruction `BLK.START` (R122): ignored while `ST = BUSY` (R131, D8; log 14). -/
def execBlkStart (s : State) : Host.Outcome State Fault Refusal :=
  if s.res.st = .busy then .next s else (runInvocation s).outcome

/-- The instruction `BLK.CHECK` (R123). -/
def execBlkCheck (s : State) : Host.Outcome State Fault Refusal :=
  (checkConfig s).outcome

/-- The instruction `BLK.PAD` (R124). -/
def execBlkPad (s : State) : Host.Outcome State Fault Refusal :=
  (padInput s).outcome

/-- The instruction `BLK.LOAD` (R125). -/
def execBlkLoad (s : State) : Host.Outcome State Fault Refusal :=
  (loadInput s).outcome

/-- The triple of `BLK.REPORT` (R127): the padded size only if padding occurred. -/
def reportOf (r : Res) : HostResult :=
  .report r.origSize (if r.padOccurred then some r.paddedSize else none) r.encodedBytes

/-- The instruction `BLK.REPORT` (R127): defined when `ST = DONE`; in any other status its result is a free value (log 8). -/
def execBlkReport (s : State) : Host.Outcome State Fault Refusal :=
  if s.res.st = .done then .next (s.answer (reportOf s.res))
  else
    .next
      { s.answer
          (.report (Config.freeReport s.freeCount).1 (Config.freeReport s.freeCount).2.1
            (Config.freeReport s.freeCount).2.2) with
        freeCount := s.freeCount + 1 }

/-- What `BLK.STATUS` answers (R128): `(ST, ERR)`, its code (R136), and the recorded cause when `ST = ERROR`. -/
def statusOf (r : Res) : HostResult :=
  .status r.st r.err (errCode r.err) (if r.st = .error then r.cause else none)

/-- The instruction `BLK.STATUS` (R128). -/
def execBlkStatus (s : State) : Host.Outcome State Fault Refusal :=
  .next (s.answer (statusOf s.res))

end Sys2Proof.Machine
end

