-- ==== Sys2Proof/Machine/PolOps.lean ====
section
/-! DEFINITION. The instructions of ControlWordPolicy (40_control_word_policy R71 to R80): each answers the value of
its pure function and writes no state of the block. -/

namespace Sys2Proof.Machine

/-- `POL.KIND(W)` (R72). -/
def execPolKind (w : Nat) (s : State) : Host.Outcome State Fault Refusal :=
  (withOperandWidth w fun w => .cont (s.answer (.kind (kindOf w)))).outcome

/-- `POL.BITS(W)` (R73). -/
def execPolBits (w : Nat) (s : State) : Host.Outcome State Fault Refusal :=
  (withOperandWidth w fun w => .cont (s.answer (.number (bitsOf w)))).outcome

/-- `POL.CAP(W)` (R74). -/
def execPolCap (w : Nat) (s : State) : Host.Outcome State Fault Refusal :=
  (withOperandWidth w fun w => .cont (s.answer (.number (capOf w)))).outcome

/-- `POL.MAXRUN(W)` (R75). -/
def execPolMaxrun (w : Nat) (s : State) : Host.Outcome State Fault Refusal :=
  (withOperandWidth w fun w => .cont (s.answer (.number (hardwarePolicy w).maxRun))).outcome

/-- `POL.MAXLIT(W)` (R76). -/
def execPolMaxlit (w : Nat) (s : State) : Host.Outcome State Fault Refusal :=
  (withOperandWidth w fun w => .cont (s.answer (.number (hardwarePolicy w).maxLit))).outcome

/-- `POL.RUNFLAG(W)` (R77). -/
def execPolRunflag (w : Nat) (s : State) : Host.Outcome State Fault Refusal :=
  (withOperandWidth w fun w => .cont (s.answer (.number (runFlagOf w)))).outcome

/-- `POL.FMT_RUN(W, rc)` (R78): refused outside `1 ≤ rc ≤ MAXRUN − 1`. -/
def execPolFmtRun (w rc : Nat) (s : State) : Host.Outcome State Fault Refusal :=
  (withOperandWidth w fun w =>
    match fmtRun (hardwarePolicy w) rc with
    | some c => .cont (s.answer (.number c))
    | none => .stuck .fmtRunRange).outcome

/-- `POL.FMT_LIT(W, n)` (R79): refused outside `1 ≤ n ≤ MAXLIT`. -/
def execPolFmtLit (w n : Nat) (s : State) : Host.Outcome State Fault Refusal :=
  (withOperandWidth w fun w =>
    match fmtLit (hardwarePolicy w) n with
    | some c => .cont (s.answer (.number c))
    | none => .stuck .fmtLitRange).outcome

/-- `POL.FMT_TERM(W)` (R80). -/
def execPolFmtTerm (w : Nat) (s : State) : Host.Outcome State Fault Refusal :=
  (withOperandWidth w fun w => .cont (s.answer (.number (fmtTerm w)))).outcome

end Sys2Proof.Machine
end

