-- ==== Sys2Proof/Decode.lean ====
section
/-! DEFINITION. The wire format (30_encoding R53 to R63): the token a byte string begins with, and after it the
encoder. The width and the byte order come from outside the stream (R58). -/

namespace Sys2Proof

open Sys2Proof.Machine

/-- Why no token could be read: a read ran past the end of the bytes (R70). -/
inductive DecodeError where
  | truncatedControl
  | truncatedPayload
  deriving DecidableEq, Repr

/-- The run token of a width (R55), its fields cut to the width's. -/
def runToken : Width → Nat → Nat → Instr
  | .w1, k, v => .runW1 (BitVec.ofNat 7 k) (BitVec.ofNat 8 v)
  | .w2, k, v => .runW2 (BitVec.ofNat 15 k) (BitVec.ofNat 16 v)
  | .w4, k, v => .runW4 (BitVec.ofNat 31 k) (BitVec.ofNat 32 v)

/-- The literal token of a width (R56). -/
def litToken : Width → List Nat → Instr
  | .w1, vs => .litW1 (vs.map (BitVec.ofNat 8))
  | .w2, vs => .litW2 (vs.map (BitVec.ofNat 16))
  | .w4, vs => .litW4 (vs.map (BitVec.ofNat 32))

/-- The terminator of a width (R57). -/
def termToken : Width → Instr
  | .w1 => .termW1
  | .w2 => .termW2
  | .w4 => .termW4

/-- The first `n` bytes and the rest, if there are that many. -/
def takeBytes : Nat → List Byte → Option (List Byte × List Byte)
  | 0, bs => some ([], bs)
  | _ + 1, [] => none
  | n + 1, b :: bs =>
    match takeBytes n bs with
    | none => none
    | some (x, r) => some (b :: x, r)

/-- One word of `W` bytes, assembled in the order `o`, and the rest (R70). -/
def takeWord (w : Width) (o : ByteOrder) (bs : List Byte) : Option (Nat × List Byte) :=
  match takeBytes (widthBytes w) bs with
  | none => none
  | some (x, r) => some (assemble o x, r)

/-- `n` words and the rest. -/
def takeWords (w : Width) (o : ByteOrder) : Nat → List Byte → Option (List Nat × List Byte)
  | 0, bs => some ([], bs)
  | n + 1, bs =>
    match takeWord w o bs with
    | none => none
    | some (v, r) =>
      match takeWords w o n r with
      | none => none
      | some (vs, r') => some (v :: vs, r')

/-- The run flag of a control word (R54): `C & RUNFLAG ≠ 0`. -/
def runFlagSet (w : Width) (c : Nat) : Bool :=
  c &&& runFlagOf w != 0

/-- The count field of a control word (R54): `C & (RUNFLAG − 1)`. -/
def countField (w : Width) (c : Nat) : Nat :=
  c &&& (runFlagOf w - 1)

/-- How many payload elements follow a control word (R58); the all-zero word is tested first (R63). -/
def payloadCount (w : Width) (c : Nat) : Nat :=
  if c = 0 then 0 else if runFlagSet w c then 1 else c

/-- The token at the head of a byte string and the rest of it, as the reference reader takes them (R70). A run with a
reserved count (R62) is decoded as a run: its instruction is ill-formed and the machine refuses it by name. -/
def decode (w : Width) (o : ByteOrder) (bs : List Byte) : Except DecodeError (Instr × List Byte) :=
  match takeWord w o bs with
  | none => .error .truncatedControl
  | some (c, r) =>
    if c = 0 then .ok (termToken w, r)
    else if runFlagSet w c then
      match takeWord w o r with
      | none => .error .truncatedPayload
      | some (v, r') => .ok (runToken w (countField w c) v, r')
    else
      match takeWords w o c r with
      | none => .error .truncatedPayload
      | some (vs, r') => .ok (litToken w vs, r')

/-- What an instruction is on the wire: a run, a literal or a terminator of a width (R53), or an operation, which has
no binary encoding (R64). -/
inductive TokenView where
  | run (w : Width) (k v : Nat)
  | literal (w : Width) (vs : List Nat)
  | terminator (w : Width)
  | operation
  deriving DecidableEq, Repr

/-- The view of each instruction. -/
def tokenView : Instr → TokenView
  | .runW1 k v => .run .w1 k.toNat v.toNat
  | .litW1 vs => .literal .w1 (vs.map BitVec.toNat)
  | .termW1 => .terminator .w1
  | .runW2 k v => .run .w2 k.toNat v.toNat
  | .litW2 vs => .literal .w2 (vs.map BitVec.toNat)
  | .termW2 => .terminator .w2
  | .runW4 k v => .run .w4 k.toNat v.toNat
  | .litW4 vs => .literal .w4 (vs.map BitVec.toNat)
  | .termW4 => .terminator .w4
  | .polKind _ => .operation
  | .polBits _ => .operation
  | .polCap _ => .operation
  | .polMaxrun _ => .operation
  | .polMaxlit _ => .operation
  | .polRunflag _ => .operation
  | .polFmtRun _ _ => .operation
  | .polFmtLit _ _ => .operation
  | .polFmtTerm _ => .operation
  | .encReset => .operation
  | .encAdd _ => .operation
  | .encFlush => .operation
  | .psPlane _ => .operation
  | .psEncode => .operation
  | .sinkOpen => .operation
  | .ser _ => .operation
  | .sinkPut _ => .operation
  | .sinkTerm => .operation
  | .blkConfig _ => .operation
  | .blkStart => .operation
  | .blkCheck => .operation
  | .blkPad => .operation
  | .blkLoad => .operation
  | .blkReport => .operation
  | .blkStatus => .operation

/-- The width of a token's words; an operation has no words. -/
def tokenWidth? (i : Instr) : Option Width :=
  match tokenView i with
  | .run w _ _ => some w
  | .literal w _ => some w
  | .terminator w => some w
  | .operation => none

/-- The words of a token: control word, then payload (R53 to R57). -/
def encodeWords (i : Instr) : List Nat :=
  match tokenView i with
  | .run w k v => [runFlagOf w ||| k, v]
  | .literal _ vs => vs.length :: vs
  | .terminator w => [fmtTerm w]
  | .operation => []

/-- Words on the wire (R48, R112): each serialised in the order `o`, in order. -/
def serialiseAll (w : Width) (o : ByteOrder) (es : List Nat) : List Byte :=
  es.flatMap (serialise w o)

/-- The bytes of a token in the order `o`; no bytes for an operation. -/
def encode (o : ByteOrder) (i : Instr) : List Byte :=
  match tokenWidth? i with
  | none => []
  | some w => serialiseAll w o (encodeWords i)

/-- The width whose control word has `nbits` bits (R59). -/
def widthOfBits? : Nat → Option Width
  | 8 => some .w1
  | 16 => some .w2
  | 32 => some .w4
  | _ => none

/-- The bytes of the token whose control word is `c` and whose payload is all zeros. -/
def tableBytes (w : Width) (o : ByteOrder) (c : Nat) : List Byte :=
  serialise w o c
    ++ List.replicate (payloadCount w (c % elemLimit w) * widthBytes w) 0

/-- The instruction the decoder reads from a table row's word: the control word `c`, most significant byte first,
followed by a payload of zeros (log 22). -/
def decodeTableWord (nbits c : Nat) : Option Instr :=
  match widthOfBits? nbits with
  | none => none
  | some w =>
    match decode w .big (tableBytes w .big c) with
    | .ok (i, _) => some i
    | .error _ => none

end Sys2Proof
end

