-- ==== Sys2Proof/Machine/TokenOps.lean ====
section
/-! DEFINITION. The nine tokens as the reference reader takes them (30_encoding R70), one token a step; the reader
is no part of the block (R4) and touches none of the block's state (log 2). -/

namespace Sys2Proof.Machine

/-- A plane is being read: fewer than `N` planes are finished. -/
def Reader.running (r : Reader) : Bool :=
  decide (r.done.length < r.nplanes)

/-- The reader at the beginning of `READ(bs, N, W, EORD)`. -/
def Reader.begin (bs : List Byte) (n : Nat) (w : Width) (o : ByteOrder) : Reader :=
  { bytes := bs, pos := 0, nplanes := n, width := w, order := o, done := [], cur := [] }

/-- The token at the reader's position. -/
def fetchToken (r : Reader) : Except Refusal Instr :=
  match decode r.width r.order (r.bytes.drop r.pos) with
  | .ok (i, _) => .ok i
  | .error _ => .error .streamTruncated

/-- Run `k` if a plane is being read in a stream of width `w` (log 21). -/
def withPlane (w : Width) (s : State) (k : Flow) : Flow :=
  if s.rd.running then (if s.rd.width = w then k else .stuck .tokenWidth) else .stuck .noPlaneOpen

/-- `plane[p] <- plane[p] ++ es`, and the position past the `words` words of the token. -/
def State.readElements (s : State) (es : List Nat) (words : Nat) : State :=
  { s with rd := { s.rd with cur := s.rd.cur ++ es, pos := s.rd.pos + words * widthBytes s.rd.width } }

/-- `ceil((L − p) / N)`, 0 when `p ≥ L` (R70, R104). -/
def planeLength (n l p : Nat) : Nat :=
  (l - p + n - 1) / n

/-- The planes have the lengths an interleaving of `l` elements gives them (R70). -/
def planeLengthsOk (n l : Nat) (planes : List (List Nat)) : Bool :=
  (List.range planes.length).all fun p => (planes.getD p []).length == planeLength n l p

/-- `result[p + j·N] <- plane[p][j]` (R70). Where `planeLengthsOk` holds, every element asked for is there. -/
def interleave (n l : Nat) (planes : List (List Nat)) : List Nat :=
  (List.range l).map fun x => (planes.getD (x % n) []).getD (x / n) 0

/-- The number of elements in all planes. -/
def totalLength (planes : List (List Nat)) : Nat :=
  (planes.map List.length).sum

/-- The end of `READ` (R70): the bytes must be used up and the lengths fit; the result is handed back. -/
def finishRead (s : State) : Flow :=
  if s.rd.pos ≠ s.rd.bytes.length then .stuck .trailingBytes
  else if planeLengthsOk s.rd.nplanes (totalLength s.rd.done) s.rd.done then
    .cont (s.answer (.elements (interleave s.rd.nplanes (totalLength s.rd.done) s.rd.done)))
  else .stuck .planeLengths

/-- A run token (R55, R70): `k` copies of `v`; `k < 2` is refused (R62). -/
def readRun (w : Width) (k v : Nat) (s : State) : Flow :=
  withPlane w s (if 2 ≤ k then .cont (s.readElements (List.replicate k v) 2) else .stuck .reservedRunCount)

/-- A literal token (R56, R70): its elements in order. -/
def readLiteral (w : Width) (vs : List Nat) (s : State) : Flow :=
  withPlane w s
    (if 1 ≤ vs.length ∧ vs.length ≤ capOf w then .cont (s.readElements vs (vs.length + 1)) else .stuck .literalLength)

/-- The plane being read is finished, and the position past the terminator. -/
def State.closePlane (s : State) : State :=
  { s with
    rd := { s.rd with done := s.rd.done ++ [s.rd.cur], cur := [], pos := s.rd.pos + widthBytes s.rd.width } }

/-- The terminator (R57, R63, R70): it ends the plane, and after plane `N − 1` the reading. -/
def readTerm (w : Width) (s : State) : Flow :=
  withPlane w s (if s.closePlane.rd.running then .cont s.closePlane else finishRead s.closePlane)

/-- `RUN.W1` (R55). -/
def execRunW1 (k : BitVec 7) (v : BitVec 8) (s : State) : Host.Outcome State Fault Refusal :=
  (readRun .w1 k.toNat v.toNat s).outcome

/-- `LIT.W1` (R56). -/
def execLitW1 (vs : List (BitVec 8)) (s : State) : Host.Outcome State Fault Refusal :=
  (readLiteral .w1 (vs.map BitVec.toNat) s).outcome

/-- `TERM.W1` (R57). -/
def execTermW1 (s : State) : Host.Outcome State Fault Refusal :=
  (readTerm .w1 s).outcome

/-- `RUN.W2` (R55). -/
def execRunW2 (k : BitVec 15) (v : BitVec 16) (s : State) : Host.Outcome State Fault Refusal :=
  (readRun .w2 k.toNat v.toNat s).outcome

/-- `LIT.W2` (R56). -/
def execLitW2 (vs : List (BitVec 16)) (s : State) : Host.Outcome State Fault Refusal :=
  (readLiteral .w2 (vs.map BitVec.toNat) s).outcome

/-- `TERM.W2` (R57). -/
def execTermW2 (s : State) : Host.Outcome State Fault Refusal :=
  (readTerm .w2 s).outcome

/-- `RUN.W4` (R55). -/
def execRunW4 (k : BitVec 31) (v : BitVec 32) (s : State) : Host.Outcome State Fault Refusal :=
  (readRun .w4 k.toNat v.toNat s).outcome

/-- `LIT.W4` (R56). -/
def execLitW4 (vs : List (BitVec 32)) (s : State) : Host.Outcome State Fault Refusal :=
  (readLiteral .w4 (vs.map BitVec.toNat) s).outcome

/-- `TERM.W4` (R57). -/
def execTermW4 (s : State) : Host.Outcome State Fault Refusal :=
  (readTerm .w4 s).outcome

end Sys2Proof.Machine
end

