-- ==== Sys2Proof/Machine/Dispatch.lean ====
section
/-! DEFINITION. The dispatch: one arm per instruction, each one direct call of its meaning. -/

namespace Sys2Proof.Machine

/-- The meaning of an instruction. -/
def exec (i : Instr) (s : State) : Host.Outcome State Fault Refusal :=
  match i with
  | .runW1 k v => Sys2Proof.Machine.execRunW1 k v s
  | .litW1 vs => Sys2Proof.Machine.execLitW1 vs s
  | .termW1 => Sys2Proof.Machine.execTermW1 s
  | .runW2 k v => Sys2Proof.Machine.execRunW2 k v s
  | .litW2 vs => Sys2Proof.Machine.execLitW2 vs s
  | .termW2 => Sys2Proof.Machine.execTermW2 s
  | .runW4 k v => Sys2Proof.Machine.execRunW4 k v s
  | .litW4 vs => Sys2Proof.Machine.execLitW4 vs s
  | .termW4 => Sys2Proof.Machine.execTermW4 s
  | .polKind w => Sys2Proof.Machine.execPolKind w s
  | .polBits w => Sys2Proof.Machine.execPolBits w s
  | .polCap w => Sys2Proof.Machine.execPolCap w s
  | .polMaxrun w => Sys2Proof.Machine.execPolMaxrun w s
  | .polMaxlit w => Sys2Proof.Machine.execPolMaxlit w s
  | .polRunflag w => Sys2Proof.Machine.execPolRunflag w s
  | .polFmtRun w rc => Sys2Proof.Machine.execPolFmtRun w rc s
  | .polFmtLit w n => Sys2Proof.Machine.execPolFmtLit w n s
  | .polFmtTerm w => Sys2Proof.Machine.execPolFmtTerm w s
  | .encReset => Sys2Proof.Machine.execEncReset s
  | .encAdd v => Sys2Proof.Machine.execEncAdd v s
  | .encFlush => Sys2Proof.Machine.execEncFlush s
  | .psPlane p => Sys2Proof.Machine.execPsPlane p s
  | .psEncode => Sys2Proof.Machine.execPsEncode s
  | .sinkOpen => Sys2Proof.Machine.execSinkOpen s
  | .ser e => Sys2Proof.Machine.execSer e s
  | .sinkPut e => Sys2Proof.Machine.execSinkPut e s
  | .sinkTerm => Sys2Proof.Machine.execSinkTerm s
  | .blkConfig c => Sys2Proof.Machine.execBlkConfig c s
  | .blkStart => Sys2Proof.Machine.execBlkStart s
  | .blkCheck => Sys2Proof.Machine.execBlkCheck s
  | .blkPad => Sys2Proof.Machine.execBlkPad s
  | .blkLoad => Sys2Proof.Machine.execBlkLoad s
  | .blkReport => Sys2Proof.Machine.execBlkReport s
  | .blkStatus => Sys2Proof.Machine.execBlkStatus s

end Sys2Proof.Machine
end

