-- ==== Sys2Proof/Machine/HostOps.lean ====
section
/-! DEFINITION. What the host does besides invoking an operation (70_reset_and_hazards R153, R156; 30_encoding R70),
and placing a token where the next step reads it. -/

namespace Sys2Proof.Machine

/-- The host makes input bytes available (R156 (2)). -/
def hostSupplyInput (bs : List Byte) (s : State) : State :=
  { s with env := { s.env with input := bs } }

/-- The host makes a sink available that holds `bs` (R156 (3), R40). -/
def hostSupplySink (bs : List Byte) (s : State) : State :=
  { s with sink := { s.sink with out := bs } }

/-- The reference reader stands at the beginning of `READ(bs, N, W, EORD)` (R70). -/
def startRead (bs : List Byte) (n : Nat) (w : Width) (o : ByteOrder) (s : State) : State :=
  { s with rd := Reader.begin bs n w o }

/-- The host starts the reference reader on a byte string (R70). With `N = 0` there is no plane to read, and the lines
after the loop are all there is: bytes are left over, or the result has no element. -/
def hostRead (bs : List Byte) (n : Nat) (w : Width) (o : ByteOrder) (s : State) : Flow :=
  if (startRead bs n w o s).rd.running then .cont (startRead bs n w o s) else finishRead (startRead bs n w o s)

/-- The state with the token of control word `c` and a zero payload as the stream being read, one plane, the token's
width, in the reader's byte order (log 22). -/
def placeToken (nbits c : Nat) (s : State) : State :=
  match widthOfBits? nbits with
  | none => s
  | some w => { s with rd := Reader.begin (tableBytes w s.rd.order c) 1 w s.rd.order }

end Sys2Proof.Machine
end

