-- ==== Sys2Proof/Machine/Step.lean ====
section
/-! DEFINITION. One step: the reference reader's next token while a stream is being read, else the host's oldest
pending request, else nothing (the block does nothing until it is asked, 70_reset_and_hazards R154). -/

namespace Sys2Proof.Machine

/-- The host's oldest pending request (log 1). -/
def serve (s : State) : Host.Outcome State Fault Refusal :=
  match s.hostq with
  | [] => .next s
  | .invoke i :: q => exec i { s with hostq := q }
  | .supplyInput bs :: q => .next (hostSupplyInput bs { s with hostq := q })
  | .supplySink bs :: q => .next (hostSupplySink bs { s with hostq := q })
  | .blockReset :: q => .next (blockReset { s with hostq := q })
  | .read bs n w o :: q => (hostRead bs n w o { s with hostq := q }).outcome

/-- One step of the machine (log 1, log 2). -/
def step (s : State) : Host.Outcome State Fault Refusal :=
  if s.rd.running then
    match fetchToken s.rd with
    | .ok i => exec i s
    | .error r => .refused r
  else serve s

/-- The state whose next step reads the table row's word `w` of `nbits` bits (log 22). -/
def State.withFetchWord (s : State) (nbits w : Nat) : State :=
  placeToken nbits w s

end Sys2Proof.Machine
end

