-- ==== Sys2Proof/WellFormed.lean ====
section
/-! DEFINITION. The checks an instruction can be given without a state: token counts (30_encoding R53, R62) and
operand ranges (40_control_word_policy R71, R78, R79; 41_rle_encoder R83). -/

namespace Sys2Proof

/-- The widths at which a `POL` function may be evaluated (R71). -/
def legalWidth (w : Nat) : Bool :=
  w == 1 || w == 2 || w == 4

/-- `2^(8w-1) - 1`, the largest count field at a legal width `w` (R74). -/
def countLimit (w : Nat) : Nat :=
  2 ^ (8 * w - 1) - 1

/-- The context-free checks. A run token holds `2 ≤ k` (R62; `k ≤ MAXRUN` is the field's width), a literal token
`1 ≤ n ≤ MAXLIT` elements (R56); a `POL` operand is a legal width and, for the FMT functions, in range; an element
fits the widest element type (whether it fits the configured one is the machine's check). -/
def Instr.wellFormed : Instr → Bool
  | .runW1 k _ => decide (2 ≤ k.toNat)
  | .litW1 vs => decide (1 ≤ vs.length) && decide (vs.length ≤ countLimit 1)
  | .termW1 => true
  | .runW2 k _ => decide (2 ≤ k.toNat)
  | .litW2 vs => decide (1 ≤ vs.length) && decide (vs.length ≤ countLimit 2)
  | .termW2 => true
  | .runW4 k _ => decide (2 ≤ k.toNat)
  | .litW4 vs => decide (1 ≤ vs.length) && decide (vs.length ≤ countLimit 4)
  | .termW4 => true
  | .polKind w => legalWidth w
  | .polBits w => legalWidth w
  | .polCap w => legalWidth w
  | .polMaxrun w => legalWidth w
  | .polMaxlit w => legalWidth w
  | .polRunflag w => legalWidth w
  | .polFmtRun w rc => legalWidth w && decide (1 ≤ rc) && decide (rc + 1 ≤ countLimit w)
  | .polFmtLit w n => legalWidth w && decide (1 ≤ n) && decide (n ≤ countLimit w)
  | .polFmtTerm w => legalWidth w
  | .encReset => true
  | .encAdd v => decide (v < 2 ^ 32)
  | .encFlush => true
  | .psPlane _ => true
  | .psEncode => true
  | .sinkOpen => true
  | .ser e => decide (e < 2 ^ 32)
  | .sinkPut e => decide (e < 2 ^ 32)
  | .sinkTerm => true
  | .blkConfig _ => true
  | .blkStart => true
  | .blkCheck => true
  | .blkPad => true
  | .blkLoad => true
  | .blkReport => true
  | .blkStatus => true

end Sys2Proof
end

