-- ==== Sys2Proof/Safety.lean ====
section
/-! DEFINITION. The words the statements are written in: when the environment accepts, the invariants of the
encoder (41_rle_encoder R97) and of the machine, what a token stands for, and what bytes encode a plane and a
stream (30_encoding R53, R68). -/

namespace Sys2Proof.Machine

/-! ### The environment -/

/-- The next `n` appends are accepted. -/
abbrev AcceptsWrites (n : Nat) (s : State) : Prop :=
  ∀ a ∈ s.env.writes.take n, a = WriteAnswer.accepted

/-- No block reset is among the environment's answers, so that none arrives inside an operation (log 17). -/
abbrev NoResetListed (s : State) : Prop :=
  LoadAnswer.reset ∉ s.env.loads
    ∧ (∀ b, OpenAnswer.reset b ∉ s.env.opens)
    ∧ (∀ n, WriteAnswer.reset n ∉ s.env.writes)

/-- What successful `SINK.PUT`s of the elements `es`, in order, make of a state (R41, R113): the bytes appended, the
count raised, the answers used up. -/
def State.emitted (s : State) (w : Width) (es : List Nat) : State :=
  { s with
    sink := { s.sink with out := s.sink.out ++ serialiseAll w (effectiveOrder s) es }
    res := { s.res with encodedBytes := s.res.encodedBytes + es.length * widthBytes w }
    env := { s.env with writes := s.env.writes.drop es.length } }

/-! ### The encoder -/

/-- Neighbours differ: (I4) of R97. -/
abbrev AdjacentDistinct (xs : List Nat) : Prop :=
  xs.IsChain (· ≠ ·)

/-- (I1) and (I4) of R97: the part that no capacity enters. -/
abbrev EncShape (e : Enc) : Prop :=
  (e.rc = 0 ∨ e.pending.length = 1) ∧ AdjacentDistinct e.pending

/-- (I1) to (I4) of R97 at the capacities of a policy record. -/
abbrev EncInv (pol : Policy) (e : Enc) : Prop :=
  EncShape e ∧ e.pending.length + 1 ≤ pol.maxLit ∧ e.rc + 2 ≤ pol.maxRun

/-- The condition a policy record must meet (00_scope R12). -/
abbrev PolicyOk (pol : Policy) : Prop :=
  2 ≤ pol.maxRun ∧ pol.maxRun ≤ capOf pol.width ∧ 2 ≤ pol.maxLit ∧ pol.maxLit ≤ capOf pol.width

/-- The elements are of type `T` at width `w` (R7). -/
abbrev ElementsFit (w : Width) (es : List Nat) : Prop :=
  ∀ e ∈ es, e < elemLimit w

/-- `held(pending, rc)` (R98): the elements accepted and not yet emitted. -/
def held (e : Enc) : List Nat :=
  if e.rc = 0 then e.pending else List.replicate (e.rc + 1) (e.pending.headD 0)

/-! ### Tokens, planes, streams -/

/-- The elements a token stands for (R55, R56); a terminator stands for none. -/
def tokenElements (i : Instr) : List Nat :=
  match tokenView i with
  | .run _ k v => List.replicate k v
  | .literal _ vs => vs
  | .terminator _ => []
  | .operation => []

/-- A literal token. -/
def isLiteralToken (i : Instr) : Bool :=
  match tokenView i with
  | .run _ _ _ => false
  | .literal _ _ => true
  | .terminator _ => false
  | .operation => false

/-- A run token. -/
def isRunToken (i : Instr) : Bool :=
  match tokenView i with
  | .run _ _ _ => true
  | .literal _ _ => false
  | .terminator _ => false
  | .operation => false

/-- A run or literal token of width `w` that can be emitted: counts in range (R53), and no two adjacent equal elements
in a literal (R68 (b)). -/
abbrev DataToken (w : Width) (i : Instr) : Prop :=
  tokenWidth? i = some w ∧ i.wellFormed = true ∧ (isRunToken i || isLiteralToken i) = true
    ∧ (isLiteralToken i = true → AdjacentDistinct (tokenElements i))

/-- What R68 (c), (d), (e) say of a token `a` directly followed by a token `b`: unless `a` is full, `b` does not begin
with `a`'s last element, and two literals do not follow each other. -/
abbrev MayFollow (w : Width) (a b : Instr) : Prop :=
  (tokenElements a).length < capOf w →
    (tokenElements a).getLast? ≠ (tokenElements b).head?
      ∧ ¬(isLiteralToken a = true ∧ isLiteralToken b = true)

/-- A sequence of tokens as R53 and R68 allow it inside a plane, standing for the elements `es`. -/
abbrev TokensFor (w : Width) (toks : List Instr) (es : List Nat) : Prop :=
  (∀ i ∈ toks, DataToken w i) ∧ toks.IsChain (MayFollow w) ∧ toks.flatMap tokenElements = es

/-- `bs` is one `plane` of the grammar R53 that stands for `es`: tokens, then one terminator. -/
def EncodesPlane (w : Width) (o : ByteOrder) (es : List Nat) (bs : List Byte) : Prop :=
  ∃ toks, TokensFor w toks es ∧ bs = toks.flatMap (encode o) ++ encode o (termToken w)

/-- The elements of plane `p` of `n` (42_plane_splitter R104): `IN[p], IN[p+n], …`. -/
def planeElements (n p : Nat) (elems : List Nat) : List Nat :=
  (List.range (planeLength n elems.length p)).map fun j => elems.getD (p + j * n) 0

/-- `bs` is one `stream` of the grammar R53: exactly `n` planes, plane 0 first (R103, R109). -/
def EncodesStream (w : Width) (o : ByteOrder) (n : Nat) (elems : List Nat) (bs : List Byte) : Prop :=
  ∃ parts : List (List Byte),
    parts.length = n ∧ parts.flatten = bs
      ∧ ∀ p, p < n → EncodesPlane w o (planeElements n p elems) (parts.getD p [])

/-- The elements of a buffer of whole elements, in order (20_memory R38). -/
def elementsOf (w : Width) (o : ByteOrder) (bs : List Byte) : List Nat :=
  (List.range (bs.length / widthBytes w)).map fun i =>
    assemble o ((bs.drop (i * widthBytes w)).take (widthBytes w))

/-- The bytes of the input buffer, in order (20_memory R36). -/
def inputBytes (b : InBuf) : List Byte :=
  Memory.readBytes b.cells 0 b.size

/-- The input buffer holds whole elements of width `w`, `L` of them (20_memory R36, R46). -/
abbrev InputWhole (w : Width) (b : InBuf) : Prop :=
  b.size = b.elems * widthBytes w

/-- The padded input of an invocation (R124): the first `LEN` input bytes and the padding. -/
def paddedInput (w : Width) (s : State) : List Byte :=
  s.env.input.take s.cfg.len ++ List.replicate (padCount w s.cfg.len) 0

/-- `BLK.START` is accepted, the configuration is legal and the input is there (R122, R123, R125): the load and the open
are not answered with a failure. -/
abbrev ReadyToRun (w : Width) (s : State) : Prop :=
  s.res.st ≠ .busy ∧ widthOf? s.cfg.width = some w ∧ 1 ≤ s.cfg.nplanes ∧ s.cfg.len ≤ s.env.input.length
    ∧ (nextLoad s).1 = .attempt true true ∧ (nextOpen s).1 = .opened

/-- `L` of an invocation (R124): the padded length in elements. -/
def logicalLength (w : Width) (s : State) : Nat :=
  (s.cfg.len + padCount w s.cfg.len) / widthBytes w

/-! ### The units of the block -/

/-- The part of the block an instruction belongs to (00_scope R2), or the wire format. -/
inductive BlockUnit where
  | token
  | pol
  | enc
  | ps
  | sink
  | blk
  deriving DecidableEq, Repr

/-- The unit of each instruction. -/
def unitOf : Instr → BlockUnit
  | .runW1 _ _ => .token
  | .litW1 _ => .token
  | .termW1 => .token
  | .runW2 _ _ => .token
  | .litW2 _ => .token
  | .termW2 => .token
  | .runW4 _ _ => .token
  | .litW4 _ => .token
  | .termW4 => .token
  | .polKind _ => .pol
  | .polBits _ => .pol
  | .polCap _ => .pol
  | .polMaxrun _ => .pol
  | .polMaxlit _ => .pol
  | .polRunflag _ => .pol
  | .polFmtRun _ _ => .pol
  | .polFmtLit _ _ => .pol
  | .polFmtTerm _ => .pol
  | .encReset => .enc
  | .encAdd _ => .enc
  | .encFlush => .enc
  | .psPlane _ => .ps
  | .psEncode => .ps
  | .sinkOpen => .sink
  | .ser _ => .sink
  | .sinkPut _ => .sink
  | .sinkTerm => .sink
  | .blkConfig _ => .blk
  | .blkStart => .blk
  | .blkCheck => .blk
  | .blkPad => .blk
  | .blkLoad => .blk
  | .blkReport => .blk
  | .blkStatus => .blk

/-- The instructions that put bytes into the sink or reposition it (R29, R41): all of PS, `ENC.ADD`, `ENC.FLUSH`,
`SINK.OPEN`, `SINK.PUT`, `SINK.TERM`, `BLK.START`. -/
def writesSink (i : Instr) : Bool :=
  match unitOf i with
  | .token => false
  | .pol => false
  | .enc => i != .encReset
  | .ps => true
  | .sink => (match i with | .ser _ => false | _ => true)
  | .blk => i == .blkStart

/-! ### Invariants of the machine -/

/-- Status, error kind and cause agree (10_state R30, 60_exceptions R137 to R140), and BUSY is never seen between
operations (R24). -/
def StatusOk (r : Res) : Prop :=
  r.st ≠ .busy
    ∧ (r.st = .error ↔ r.err ≠ .none)
    ∧ (match r.err with
        | .none => r.cause = none
        | .configurationError => r.cause = some .width ∨ r.cause = some .planes
        | .resourceExhaustion => r.cause = none
        | .ioFailure => r.cause = some .input ∨ r.cause = some .openSink ∨ r.cause = some .write)

/-- The invariant of the machine: the input memory is in canonical form with every cell inside the buffer, status and
cause agree, and the encoder has the shape (I1), (I4) of R97 unless an error has left its registers unspecified (R95). -/
def MachineInv (s : State) : Prop :=
  Memory.wf s.inb.cells = true
    ∧ (∀ c ∈ s.inb.cells, c.1 < s.inb.size)
    ∧ StatusOk s.res
    ∧ (s.res.st ≠ .error → EncShape s.enc)

end Sys2Proof.Machine
end

