-- ==== Sys2Proof/Certificates/Slice0/Obligations.lean ====
section
/-! DEFINITION. The statements for the provers. Each docstring names the rule or section of spec/ it formalises. In
every statement `s` is any state, reached or not, and an environment's answer is any answer. -/

open Sys2Proof Sys2Proof.Machine

/-! ### Encoding -/

/-- 30_encoding §1 and §6: no bit of a token is dropped; what the encoder writes, in either byte order and at each
width, the decoder takes back whole. -/
def Obligations.TokenDecodesAsEncoded : Prop :=
  ∀ (i : Instr) (w : Width) (o : ByteOrder) (rest : List Byte),
    tokenWidth? i = some w → i.wellFormed = true → decode w o (encode o i ++ rest) = .ok (i, rest)

/-- 30_encoding §1: a byte string has one reading; the token read from it is written as the very bytes read. -/
def Obligations.DecodedTokenReencodes : Prop :=
  ∀ (w : Width) (o : ByteOrder) (bs rest : List Byte) (i : Instr),
    decode w o bs = .ok (i, rest) → tokenWidth? i = some w ∧ encode o i ++ rest = bs

/-- 30_encoding §1 (R59) and 95_test_vectors §4, §5: words written out from the spec. -/
def Obligations.WrittenWordsDecode : Prop :=
  decode .w1 .big [0x83, 0x02] = .ok (.runW1 3 2, [])
    ∧ decode .w1 .little [0x04, 0x01, 0x02, 0x01, 0x02, 0x00] = .ok (.litW1 [1, 2, 1, 2], [0x00])
    ∧ decode .w1 .big [0x00] = .ok (.termW1, [])
    ∧ decode .w2 .big [0x80, 0x03, 0x12, 0x34] = .ok (.runW2 3 0x1234, [])
    ∧ decode .w2 .little [0x01, 0x00, 0xFF, 0x00] = .ok (.litW2 [0x00FF], [])
    ∧ decode .w2 .little [0x00, 0x00, 0x07] = .ok (.termW2, [0x07])
    ∧ decode .w4 .little [0x02, 0x00, 0x00, 0x80, 0xEF, 0xBE, 0xAD, 0xDE] = .ok (.runW4 2 0xDEADBEEF, [])
    ∧ decode .w4 .big [0x00, 0x00, 0x00, 0x01, 0x00, 0x00, 0x00, 0x01] = .ok (.litW4 [1], [])
    ∧ decode .w4 .big [0x00, 0x00, 0x00, 0x00] = .ok (.termW4, [])

/-- 20_memory §1 (R38): the element a group of bytes stands for, byte by byte. -/
def Obligations.ElementAssembledFromBytes : Prop :=
  ∀ bs : List Byte,
    assemble .big bs
        = ((List.range bs.length).map fun j => (bs.getD j 0).toNat * 256 ^ (bs.length - 1 - j)).sum
      ∧ assemble .little bs = ((List.range bs.length).map fun j => (bs.getD j 0).toNat * 256 ^ j).sum

/-- 43_output_sink R112: `SER(e)`, byte by byte, and that it undoes the assembly; no state but the returned result
changes. The order `o` is the effective order as 00_scope (R8) and 20_memory §2 (R44) give it, BIG when `BIGEND = 1` and
else `NATIVE_ORDER`, and it is the one every other statement calls `effectiveOrder`; at one byte it has no effect. -/
def Obligations.SerGivesBytesInOrder : Prop :=
  ∀ (s : State) (w : Width) (e : Nat) (o : ByteOrder), widthOf? s.cfg.width = some w → e < 2 ^ (8 * widthBytes w) →
    o = (if s.cfg.bigend = true then .big else s.env.nativeOrder) →
    effectiveOrder s = o ∧
    ∃ bs : List Byte,
      exec (.ser e) s = .next (s.answer (.bytes bs))
        ∧ bs.length = widthBytes w
        ∧ (∀ j, j < widthBytes w →
            bs.getD j 0
              = BitVec.ofNat 8
                  (match o with
                    | .big => e / 256 ^ (widthBytes w - 1 - j)
                    | .little => e / 256 ^ j))
        ∧ (2 ^ (8 * widthBytes w - 1) ≤ e →
            (bs.getD (match o with | .big => 0 | .little => widthBytes w - 1) 0).getLsbD 7 = true)
        ∧ (∀ x : List Byte, x.length = widthBytes w → assemble o x = e → bs = x)
        ∧ (w = .w1 → bs = [BitVec.ofNat 8 e])

/-! ### ControlWordPolicy -/

/-- 40_control_word_policy R73, R74, R77, R80: the layout of the control word at each legal width. -/
def Obligations.PolicyWordLayout : Prop :=
  ∀ (s : State) (w : Width),
    exec (.polBits (widthBytes w)) s = .next (s.answer (.number (8 * widthBytes w)))
      ∧ exec (.polCap (widthBytes w)) s = .next (s.answer (.number (2 ^ (8 * widthBytes w - 1) - 1)))
      ∧ exec (.polRunflag (widthBytes w)) s = .next (s.answer (.number (2 ^ (8 * widthBytes w - 1))))
      ∧ runFlagOf w - 1 = capOf w
      ∧ exec (.polFmtTerm (widthBytes w)) s = .next (s.answer (.number 0))
      ∧ ∀ o, serialise w o 0 = List.replicate (widthBytes w) 0

/-- 40_control_word_policy (R75, R76): both capacities are the largest count the field holds. -/
def Obligations.PolicyCapacities : Prop :=
  ∀ (s : State) (w : Width),
    exec (.polMaxrun (widthBytes w)) s = .next (s.answer (.number (2 ^ (8 * widthBytes w - 1) - 1)))
      ∧ exec (.polMaxlit (widthBytes w)) s = .next (s.answer (.number (2 ^ (8 * widthBytes w - 1) - 1)))

/-- 40_control_word_policy (R72, decision D1): the kind is a function of the width. -/
def Obligations.PolicyKindByWidth : Prop :=
  ∀ s : State,
    exec (.polKind 1) s = .next (s.answer (.kind .byte))
      ∧ exec (.polKind 2) s = .next (s.answer (.kind .full))
      ∧ exec (.polKind 4) s = .next (s.answer (.kind .full))

/-- 40_control_word_policy R78: the run control word is `RUNFLAG + rc + 1` for `1 ≤ rc ≤ MAXRUN − 1`, and outside that
range the function is refused. -/
def Obligations.PolicyFormatsRun : Prop :=
  ∀ (s : State) (w : Width) (rc : Nat),
    (1 ≤ rc ∧ rc ≤ 2 ^ (8 * widthBytes w - 1) - 2 →
        exec (.polFmtRun (widthBytes w) rc) s = .next (s.answer (.number (2 ^ (8 * widthBytes w - 1) + rc + 1)))
          ∧ (2 ^ (8 * widthBytes w - 1)) ||| (rc + 1) = 2 ^ (8 * widthBytes w - 1) + rc + 1)
      ∧ (¬(1 ≤ rc ∧ rc ≤ 2 ^ (8 * widthBytes w - 1) - 2) →
        exec (.polFmtRun (widthBytes w) rc) s = .refused .fmtRunRange)

/-- 40_control_word_policy R79: the literal control word is `n`, top bit clear, for `1 ≤ n ≤ MAXLIT`, and outside that
range the function is refused (95_test_vectors §3, T14). -/
def Obligations.PolicyFormatsLiteral : Prop :=
  ∀ (s : State) (w : Width) (n : Nat),
    (1 ≤ n ∧ n ≤ 2 ^ (8 * widthBytes w - 1) - 1 →
        exec (.polFmtLit (widthBytes w) n) s = .next (s.answer (.number n)) ∧ runFlagSet w n = false)
      ∧ (¬(1 ≤ n ∧ n ≤ 2 ^ (8 * widthBytes w - 1) - 1) →
        exec (.polFmtLit (widthBytes w) n) s = .refused .fmtLitRange)

/-- 40_control_word_policy (R71, last sentence): every `POL` function is refused at a width other than 1, 2, 4. -/
def Obligations.PolicyRefusesOtherWidths : Prop :=
  ∀ (s : State) (w x : Nat), w ≠ 1 → w ≠ 2 → w ≠ 4 →
    exec (.polKind w) s = .refused .illegalWidth ∧ exec (.polBits w) s = .refused .illegalWidth
      ∧ exec (.polCap w) s = .refused .illegalWidth ∧ exec (.polMaxrun w) s = .refused .illegalWidth
      ∧ exec (.polMaxlit w) s = .refused .illegalWidth ∧ exec (.polRunflag w) s = .refused .illegalWidth
      ∧ exec (.polFmtRun w x) s = .refused .illegalWidth ∧ exec (.polFmtLit w x) s = .refused .illegalWidth
      ∧ exec (.polFmtTerm w) s = .refused .illegalWidth

/-! ### RunLengthEncoder -/

/-- 41_rle_encoder R82: `ENC.RESET` drops what was buffered and changes nothing else. -/
def Obligations.EncResetEmpties : Prop :=
  ∀ s : State, exec .encReset s = .next { s with enc := { pending := [], rc := 0 } }

/-- 41_rle_encoder R84: case A0. -/
def Obligations.AddTakesFirstElement : Prop :=
  ∀ (s : State) (w : Width) (v : Nat), widthOf? s.cfg.width = some w → v < 2 ^ (8 * widthBytes w) →
    s.enc = { pending := [], rc := 0 } → exec (.encAdd v) s = .next { s with enc := { pending := [v], rc := 0 } }

/-- 41_rle_encoder R85, R86: cases A1 and A2, below the threshold of R87: the fold emits the span before the repeated
element as one literal token; the repeat is counted. -/
def Obligations.AddFoldsAndCountsRepeat : Prop :=
  ∀ (s : State) (w : Width) (v : Nat), widthOf? s.cfg.width = some w → EncInv (hardwarePolicy w) s.enc →
    ElementsFit w s.enc.pending → s.enc.pending.getLast? = some v →
    s.enc.rc + 1 < 2 ^ (8 * widthBytes w - 1) - 2 → AcceptsWrites s.enc.pending.length s →
    (2 ≤ s.enc.pending.length →
        exec (.encAdd v) s
          = .next
              { s.emitted w ((s.enc.pending.length - 1) :: s.enc.pending.dropLast) with
                enc := { pending := [v], rc := 1 } })
      ∧ (s.enc.pending.length = 1 →
        exec (.encAdd v) s = .next { s with enc := { pending := [v], rc := s.enc.rc + 1 } })

/-- 41_rle_encoder R87, R90, 60_exceptions R145: cases A3 and A6. At the threshold the run token of count MAXRUN (all
ones) or the literal token of length MAXLIT is emitted, the encoder is EMPTY, and the status is as it was. -/
def Obligations.AddForcesFlushAtCapacity : Prop :=
  ∀ (s : State) (w : Width) (v : Nat), widthOf? s.cfg.width = some w → v < 2 ^ (8 * widthBytes w) →
    (s.enc = { pending := [v], rc := 2 ^ (8 * widthBytes w - 1) - 3 } → AcceptsWrites 2 s →
        exec (.encAdd v) s
          = .next { s.emitted w [2 ^ (8 * widthBytes w) - 1, v] with enc := { pending := [], rc := 0 } })
      ∧ (∀ q a, s.enc = { pending := q ++ [a], rc := 0 } → v ≠ a → ElementsFit w (q ++ [a]) →
        AdjacentDistinct (q ++ [a]) → q.length + 2 = 2 ^ (8 * widthBytes w - 1) - 1 →
        AcceptsWrites (q.length + 3) s →
        exec (.encAdd v) s
          = .next
              { s.emitted w ((q.length + 2) :: (q ++ [a, v])) with enc := { pending := [], rc := 0 } })

/-- 41_rle_encoder R88: case A4. -/
def Obligations.AddBreaksRun : Prop :=
  ∀ (s : State) (w : Width) (v a n : Nat), widthOf? s.cfg.width = some w → v < 2 ^ (8 * widthBytes w) →
    a < 2 ^ (8 * widthBytes w) → s.enc = { pending := [a], rc := n + 1 } → n + 2 ≤ 2 ^ (8 * widthBytes w - 1) - 1 →
    v ≠ a → AcceptsWrites 2 s →
    exec (.encAdd v) s
      = .next { s.emitted w [2 ^ (8 * widthBytes w - 1) + (n + 2), a] with enc := { pending := [v], rc := 0 } }

/-- 41_rle_encoder R89: case A5, short of the capacity (R90). -/
def Obligations.AddExtendsLiteral : Prop :=
  ∀ (s : State) (w : Width) (v a : Nat) (q : List Nat), widthOf? s.cfg.width = some w → v < 2 ^ (8 * widthBytes w) →
    s.enc = { pending := q ++ [a], rc := 0 } → v ≠ a → q.length + 2 ≠ 2 ^ (8 * widthBytes w - 1) - 1 →
    exec (.encAdd v) s = .next { s with enc := { pending := q ++ [a, v], rc := 0 } }

/-- 92_eei_decisions D23 and the model's own choice (log 16, log 19): an operand that is no element of the configured
width, and any operand at an illegal width, is refused. -/
def Obligations.AddRefusesNonElement : Prop :=
  ∀ (s : State) (v : Nat),
    (∀ w, widthOf? s.cfg.width = some w → 2 ^ (8 * widthBytes w) ≤ v →
        exec (.encAdd v) s = .refused .elementOutOfRange)
      ∧ (widthOf? s.cfg.width = none → exec (.encAdd v) s = .refused .illegalWidth)

/-- 41_rle_encoder R92, R93, R94: the three arms of `ENC.FLUSH`. The empty arm is a no-op whatever the width and the
environment. -/
def Obligations.FlushEmitsHeldElements : Prop :=
  ∀ (s : State) (w : Width),
    (∀ a n, widthOf? s.cfg.width = some w → s.enc = { pending := [a], rc := n + 1 } →
        n + 2 ≤ 2 ^ (8 * widthBytes w - 1) - 1 → a < 2 ^ (8 * widthBytes w) → AcceptsWrites 2 s →
        exec .encFlush s
          = .next { s.emitted w [2 ^ (8 * widthBytes w - 1) + (n + 2), a] with enc := { pending := [], rc := 0 } })
      ∧ (∀ q, widthOf? s.cfg.width = some w → s.enc = { pending := q, rc := 0 } → 1 ≤ q.length →
        q.length ≤ 2 ^ (8 * widthBytes w - 1) - 1 → ElementsFit w q → AcceptsWrites (q.length + 1) s →
        exec .encFlush s = .next { s.emitted w (q.length :: q) with enc := { pending := [], rc := 0 } })
      ∧ (s.enc = { pending := [], rc := 0 } → exec .encFlush s = .next s)

/-- 41_rle_encoder §6 (its last paragraph, D16): a flush in the unreachable combination has no meaning; the model
faults (log 20). -/
def Obligations.FlushFaultsWhereUnreachable : Prop :=
  ∀ (s : State) (w : Width), widthOf? s.cfg.width = some w → 1 ≤ s.enc.rc → s.enc.pending.length ≠ 1 →
    exec .encFlush s = .fault .flushUnreachable

/-- 41_rle_encoder §6 (invariants I1 to I4): kept by RESET, ADD and FLUSH, except where a refused write has left the
registers unspecified (R95), for which the model draws free values and advances the counter (log 7). -/
def Obligations.EncoderInvariantsKept : Prop :=
  ∀ (s t : State) (w : Width) (i : Instr), widthOf? s.cfg.width = some w → EncInv (hardwarePolicy w) s.enc →
    ElementsFit w s.enc.pending → unitOf i = .enc → exec i s = .next t → t.freeCount = s.freeCount →
    EncInv (hardwarePolicy w) t.enc ∧ ElementsFit w t.enc.pending

/-- 41_rle_encoder §3, §6: from registers that meet the invariants no operation of ENC stops, whatever the environment
answers: it ends with its effect, with IOFailure(write) recorded, or, only where the environment lists a block reset, in
one (log 17). -/
def Obligations.EncoderNeverStops : Prop :=
  ∀ (s : State) (w : Width) (v : Nat), widthOf? s.cfg.width = some w → EncInv (hardwarePolicy w) s.enc →
    ElementsFit w s.enc.pending → v < 2 ^ (8 * widthBytes w) →
    ∀ i, i = .encReset ∨ i = .encAdd v ∨ i = .encFlush →
      ∃ t, exec i s = .next t
        ∧ (t.res.st = s.res.st ∧ t.res.err = s.res.err
          ∨ t.res.st = .error ∧ t.res.err = .ioFailure ∧ t.res.cause = some .write
          ∨ ¬NoResetListed s ∧ t.res = resReset)

/-- 41_rle_encoder §6 (the meaning of the registers) and §5: what `ENC.ADD` appends is a sequence of tokens, and the
elements they stand for, followed by what is held after, are what was held before, followed by the element. -/
def Obligations.AddAccountsForElements : Prop :=
  ∀ (s : State) (w : Width) (v : Nat), widthOf? s.cfg.width = some w → EncInv (hardwarePolicy w) s.enc →
    ElementsFit w s.enc.pending → v < 2 ^ (8 * widthBytes w) → AcceptsWrites (s.enc.pending.length + 2) s →
    ∃ (t : State) (toks : List Instr),
      exec (.encAdd v) s = .next t
        ∧ (∀ i ∈ toks, DataToken w i)
        ∧ toks.length ≤ 1
        ∧ t.sink.out = s.sink.out ++ toks.flatMap (encode (effectiveOrder s))
        ∧ toks.flatMap tokenElements ++ held t.enc = held s.enc ++ [v]

/-- 00_scope §3 (the policy record) and 41_rle_encoder §6: the invariants hold for every policy record that meets the
record's condition. -/
def Obligations.EveryPolicyKeepsInvariants : Prop :=
  ∀ (pol : Policy) (v : Nat) (s t : State), PolicyOk pol → EncInv pol s.enc → addElement pol v s = .cont t →
    EncInv pol t.enc

/-- 41_rle_encoder §5, the rows with `MAXRUN = 2`: one `ENC.ADD` emits a literal and a run. -/
def Obligations.SmallestPolicyEmitsTwoTokens : Prop :=
  ∀ (pol : Policy) (s : State) (q : List Nat) (a : Nat), PolicyOk pol → pol.maxRun = 2 → q ≠ [] →
    s.enc = { pending := q ++ [a], rc := 0 } → EncInv pol s.enc → ElementsFit pol.width (q ++ [a]) →
    AcceptsWrites (q.length + 3) s →
    addElement pol a s
      = .cont
          { s.emitted pol.width ((q.length :: q) ++ [runFlagOf pol.width + 2, a]) with
            enc := { pending := [], rc := 0 } }

/-! ### PlaneSplitter -/

/-- 42_plane_splitter (R101, R104, R107) and 30_encoding §1, §5: `PS.PLANE(p)` completes and appends one plane of the
grammar, for exactly the plane's elements. -/
def Obligations.PlaneEncodesItsElements : Prop :=
  ∀ (s : State) (w : Width) (p n : Nat), widthOf? s.cfg.width = some w → s.cfg.nplanes = (n : Int) → p < n →
    InputWhole w s.inb → AcceptsWrites (2 * planeLength n s.inb.elems p + 1) s →
    ∃ (t : State) (bs : List Byte),
      exec (.psPlane p) s = .next t
        ∧ EncodesPlane w (effectiveOrder s)
            (planeElements n p (elementsOf w (effectiveOrder s) (inputBytes s.inb))) bs
        ∧ t.sink = { s.sink with out := s.sink.out ++ bs }
        ∧ t.enc = { pending := [], rc := 0 }
        ∧ t.ps = { s.ps with i := p + planeLength n s.inb.elems p * n }
        ∧ t.res = { s.res with encodedBytes := s.res.encodedBytes + bs.length }
        ∧ t.cfg = s.cfg ∧ t.inb = s.inb

/-- 41_rle_encoder §3, §4 and 95_test_vectors §2 (P2): a plane of `k` equal elements is as many full run tokens as fit,
then what is left: nothing, a literal of the one element, or a shorter run. -/
def Obligations.EqualElementsAreFullRuns : Prop :=
  ∀ (s : State) (w : Width) (p n v k : Nat), widthOf? s.cfg.width = some w → s.cfg.nplanes = (n : Int) → p < n →
    InputWhole w s.inb → AcceptsWrites (2 * planeLength n s.inb.elems p + 1) s →
    planeElements n p (elementsOf w (effectiveOrder s) (inputBytes s.inb)) = List.replicate k v →
    ∃ t, exec (.psPlane p) s = .next t
      ∧ t.sink.out
        = s.sink.out
          ++ (List.replicate (k / capOf w) (runToken w (capOf w) v)
              ++ (if k % capOf w = 0 then [] else if k % capOf w = 1 then [litToken w [v]]
                  else [runToken w (k % capOf w) v])
              ++ [termToken w]).flatMap (encode (effectiveOrder s))

/-- 41_rle_encoder §3, §4 and 95_test_vectors §2 (P3): a plane without two adjacent equal elements is as many full
literal tokens as fit, then one literal of the rest. -/
def Obligations.DistinctElementsAreFullLiterals : Prop :=
  ∀ (s : State) (w : Width) (p n : Nat) (es : List Nat), widthOf? s.cfg.width = some w → s.cfg.nplanes = (n : Int) →
    p < n → InputWhole w s.inb → AcceptsWrites (2 * planeLength n s.inb.elems p + 1) s →
    planeElements n p (elementsOf w (effectiveOrder s) (inputBytes s.inb)) = es → AdjacentDistinct es →
    ∃ t, exec (.psPlane p) s = .next t
      ∧ t.sink.out
        = s.sink.out
          ++ ((List.range (es.length / capOf w)).map (fun j => litToken w ((es.drop (j * capOf w)).take (capOf w)))
              ++ (if es.length % capOf w = 0 then []
                  else [litToken w (es.drop (es.length / capOf w * capOf w))])
              ++ [termToken w]).flatMap (encode (effectiveOrder s))

/-- 42_plane_splitter (R104): a plane with no element is exactly one terminator. -/
def Obligations.EmptyPlaneIsOneTerminator : Prop :=
  ∀ (s : State) (w : Width) (p : Nat), widthOf? s.cfg.width = some w → (p : Int) < s.cfg.nplanes → s.inb.elems ≤ p →
    AcceptsWrites 1 s →
    exec (.psPlane p) s
      = .next { s.emitted w [0] with enc := { pending := [], rc := 0 }, ps := { s.ps with i := p } }

/-- 42_plane_splitter (R102, R103, R109): `PS.ENCODE` completes and appends exactly `N` planes, plane 0 first; on return
`p = N`, the encoder is EMPTY, and `i` is where the last plane ended. -/
def Obligations.EncodeWritesStream : Prop :=
  ∀ (s : State) (w : Width) (n : Nat), widthOf? s.cfg.width = some w → s.cfg.nplanes = (n : Int) → 1 ≤ n →
    InputWhole w s.inb → AcceptsWrites (2 * s.inb.elems + n) s →
    ∃ (t : State) (bs : List Byte),
      exec .psEncode s = .next t
        ∧ EncodesStream w (effectiveOrder s) n (elementsOf w (effectiveOrder s) (inputBytes s.inb)) bs
        ∧ t.sink = { s.sink with out := s.sink.out ++ bs }
        ∧ t.enc = { pending := [], rc := 0 }
        ∧ t.ps = { p := n, i := n - 1 + planeLength n s.inb.elems (n - 1) * n }
        ∧ t.res = { s.res with encodedBytes := s.res.encodedBytes + bs.length }
        ∧ t.cfg = s.cfg ∧ t.inb = s.inb

/-- 42_plane_splitter (R101, R102) read literally, the model's own choice (log 16, log 25): without a plane `PS.ENCODE`
only sets `p`, and `PS.PLANE` of an index that is no plane is refused. -/
def Obligations.NoPlaneToEncode : Prop :=
  ∀ (s : State) (p : Nat),
    (s.cfg.nplanes < 1 → exec .psEncode s = .next (s.setP 0))
      ∧ (s.cfg.nplanes ≤ (p : Int) → exec (.psPlane p) s = .refused .planeOutOfRange)

/-! ### Output sink -/

/-- 43_output_sink (R111) and 60_exceptions (R139): an open keeps or truncates the sink and marks its length; a refused
open records IOFailure(open), and whether a truncating open has truncated is the environment's (log 6). That `pending`, `rc`
keep their values after the refused open is the model's reading (R141; log 30, DEDUCED; U4). -/
def Obligations.OpenPositionsSink : Prop :=
  ∀ s : State,
    ((nextOpen s).1 = .opened →
        exec .sinkOpen s
          = .next
              { (nextOpen s).2 with
                sink :=
                  { out := if s.cfg.append then s.sink.out else []
                    out0len := (if s.cfg.append then s.sink.out else []).length }
                res := { s.res with encodedBytes := 0 } })
      ∧ (∀ b, (nextOpen s).1 = .refused b →
        exec .sinkOpen s
          = .next
              { (nextOpen s).2 with
                sink := { s.sink with out := if b && !s.cfg.append then [] else s.sink.out }
                res := { s.res with st := .error, err := .ioFailure, cause := some .openSink } })

/-- 43_output_sink (R113), 20_memory (R41, R49, decision D12; log 5): an accepted element is appended and counted; a
refused one leaves a prefix of its bytes, is not counted, and records IOFailure(write). That `pending` and `rc` keep their
values after the refused one is the model's reading (log 30, DEDUCED): R141 leaves them unspecified after a `raise` inside
ENC alone, D12 and U4 after any failed append. -/
def Obligations.PutAppendsElement : Prop :=
  ∀ (s : State) (w : Width) (e : Nat), widthOf? s.cfg.width = some w → e < 2 ^ (8 * widthBytes w) →
    ((nextWrite s).1 = .accepted → exec (.sinkPut e) s = .next (s.emitted w [e]))
      ∧ (∀ n, (nextWrite s).1 = .refused n →
        exec (.sinkPut e) s
          = .next
              { (nextWrite s).2 with
                sink := { s.sink with out := s.sink.out ++ (serialise w (effectiveOrder s) e).take n }
                res := { s.res with st := .error, err := .ioFailure, cause := some .write } })

/-- 43_output_sink R114: `SINK.TERM` is `SINK.PUT(0)` and appends `W` zero bytes. -/
def Obligations.TermPutsZeroElement : Prop :=
  ∀ s : State,
    exec .sinkTerm s = exec (.sinkPut 0) s
      ∧ ∀ w, widthOf? s.cfg.width = some w → AcceptsWrites 1 s →
        exec .sinkTerm s
          = .next
              { (nextWrite s).2 with
                sink := { s.sink with out := s.sink.out ++ List.replicate (widthBytes w) 0 }
                res := { s.res with encodedBytes := s.res.encodedBytes + widthBytes w } }

/-- 20_memory §1 (R41, last sentence) and 60_exceptions (R142): bytes once appended are never changed or removed, except
by a truncating open. -/
def Obligations.SinkBytesNeverChange : Prop :=
  ∀ (i : Instr) (s t : State), exec i s = .next t → s.cfg.append = true ∨ (i ≠ .sinkOpen ∧ i ≠ .blkStart) →
    s.sink.out <+: t.sink.out

/-- 70_reset_and_hazards §1 (block reset), in the model's form (log 17): a reset that arrives during an append abandons
the operation, here a bare `SINK.PUT`; the sink keeps what it holds and the block is at its reset values. -/
def Obligations.ResetDuringWriteAbandons : Prop :=
  ∀ (s : State) (w : Width) (e n : Nat), widthOf? s.cfg.width = some w → e < 2 ^ (8 * widthBytes w) →
    (nextWrite s).1 = .reset n →
    ∃ t, exec (.sinkPut e) s = .next t
      ∧ t.sink = { out := s.sink.out ++ (serialise w (effectiveOrder s) e).take n, out0len := 0 }
      ∧ t.cfg = State.reset.cfg ∧ t.enc = State.reset.enc ∧ t.ps = State.reset.ps ∧ t.res = State.reset.res

/-! ### Block control -/

/-- 44_block_control (R121) and 10_state (R24, decision D8): a configuration write stores the value unchecked; in BUSY
a write and a start are ignored. -/
def Obligations.ConfigStoresAnyValue : Prop :=
  ∀ s : State,
    (s.res.st ≠ .busy →
        (∀ v, exec (.blkConfig (.width v)) s = .next { s with cfg := { s.cfg with width := v } })
          ∧ (∀ v, exec (.blkConfig (.bigend v)) s = .next { s with cfg := { s.cfg with bigend := v } })
          ∧ (∀ v, exec (.blkConfig (.nplanes v)) s = .next { s with cfg := { s.cfg with nplanes := v } })
          ∧ (∀ v, exec (.blkConfig (.append v)) s = .next { s with cfg := { s.cfg with append := v } })
          ∧ (∀ v, exec (.blkConfig (.len v)) s = .next { s with cfg := { s.cfg with len := v } }))
      ∧ (s.res.st = .busy → (∀ c, exec (.blkConfig c) s = .next s) ∧ exec .blkStart s = .next s)

/-- 44_block_control (R123) and 60_exceptions (R143, decision D10): width first, then planes; a legal configuration
passes and nothing changes. -/
def Obligations.CheckRejectsIllegalConfig : Prop :=
  ∀ s : State,
    (s.cfg.width ≠ 1 ∧ s.cfg.width ≠ 2 ∧ s.cfg.width ≠ 4 →
        exec .blkCheck s
          = .next { s with res := { s.res with st := .error, err := .configurationError, cause := some .width } })
      ∧ ((s.cfg.width = 1 ∨ s.cfg.width = 2 ∨ s.cfg.width = 4) → s.cfg.nplanes < 1 →
        exec .blkCheck s
          = .next { s with res := { s.res with st := .error, err := .configurationError, cause := some .planes } })
      ∧ ((s.cfg.width = 1 ∨ s.cfg.width = 2 ∨ s.cfg.width = 4) → 1 ≤ s.cfg.nplanes →
        exec .blkCheck s = .next s)

/-- 60_exceptions R137: an illegal configuration is an error, its cause recorded, width first; a start with one touches
neither the sink nor the input nor ENC nor PS. -/
def Obligations.IllegalConfigTouchesNothing : Prop :=
  ∀ s : State, s.res.st ≠ .busy →
    (widthOf? s.cfg.width = none →
        exec .blkStart s
            = .next { s with res := { resReset with st := .error, err := .configurationError, cause := some .width } }
          ∧ exec .blkCheck s
            = .next { s with res := { s.res with st := .error, err := .configurationError, cause := some .width } })
      ∧ ((widthOf? s.cfg.width).isSome = true → s.cfg.nplanes < 1 →
        exec .blkStart s
            = .next { s with res := { resReset with st := .error, err := .configurationError, cause := some .planes } }
          ∧ exec .blkCheck s
            = .next { s with res := { s.res with st := .error, err := .configurationError, cause := some .planes } })

/-- 44_block_control (R125) and 60_exceptions (R138, R139, R143), with the model's reading of a short input (log 11):
allocation before read; a successful load holds exactly the `LEN` input bytes. That a failed one leaves `INB` as it was
(log 29, DESIGN CHOICE), and `pending`, `rc` too (R141; log 30, DEDUCED; U4), is the model's. -/
def Obligations.LoadAllocatesThenReads : Prop :=
  ∀ (s : State) (alloc read : Bool), (nextLoad s).1 = .attempt alloc read →
    (alloc = false →
        exec .blkLoad s
          = .next
              (((nextLoad s).2.setLoaded none |> raiseError .resourceExhaustion none)))
      ∧ (alloc = true → read = false ∨ s.env.input.length < s.cfg.len →
        exec .blkLoad s = .next ((nextLoad s).2.setLoaded none |> raiseError .ioFailure (some .input)))
      ∧ (alloc = true → read = true → s.cfg.len ≤ s.env.input.length →
        exec .blkLoad s = .next ((nextLoad s).2.setLoaded (some (s.env.input.take s.cfg.len))))

/-- 60_exceptions §1 (R138, R139) and 44_block_control (R122, decision D10): a failed load ends the invocation before
the sink is opened. That ENC keeps its registers then is the model's reading (R141; log 30, DEDUCED; U4). -/
def Obligations.FailedLoadLeavesSink : Prop :=
  ∀ (s : State) (w : Width) (alloc read : Bool), s.res.st ≠ .busy → widthOf? s.cfg.width = some w →
    1 ≤ s.cfg.nplanes → (nextLoad s).1 = .attempt alloc read → (alloc && read) = false →
    ∃ t, exec .blkStart s = .next t ∧ t.sink = s.sink ∧ t.enc = s.enc ∧ t.ps = s.ps ∧ t.cfg = s.cfg
      ∧ t.res
        = { resReset with
            st := .error
            err := if alloc then .ioFailure else .resourceExhaustion
            cause := if alloc then some .input else none }

/-- 44_block_control (R124, decision D14): the padding completes the last element with fewer than `W` zero bytes, and
the input buffer, `L` and the three report registers are set; nothing else changes. The input bytes are those loaded;
where no `LEN` bytes are loaded, some `LEN` bytes, and the model's free-value counter advances (the model's choice, log 12). -/
def Obligations.PadCompletesLastElement : Prop :=
  ∀ (s : State) (w : Width), widthOf? s.cfg.width = some w →
    ∃ (bs : List Byte) (c : Nat) (b : InBuf) (pad : Nat),
      bs.length = s.cfg.len
        ∧ (s.env.loaded = some bs ∧ c = s.freeCount
          ∨ (∀ l, s.env.loaded = some l → l.length ≠ s.cfg.len) ∧ c = s.freeCount + 1)
        ∧ exec .blkPad s
          = .next
              { s with
                inb := b
                res :=
                  { s.res with
                    origSize := s.cfg.len, paddedSize := s.cfg.len + pad, padOccurred := decide (pad ≠ 0) }
                freeCount := c }
        ∧ pad < widthBytes w
        ∧ inputBytes b = bs ++ List.replicate pad 0
        ∧ b.size = s.cfg.len + pad
        ∧ b.size = b.elems * widthBytes w
        ∧ b.elems = (s.cfg.len + widthBytes w - 1) / widthBytes w
        ∧ Memory.wf b.cells = true

/-- 44_block_control (R122, R129, R133): with a legal configuration, the input there, and `2·L + N` writes accepted, the
invocation ends in DONE with one complete stream after what the open left, between `N·W` and `(2·L + N)·W` bytes long. -/
def Obligations.StartCompletes : Prop :=
  ∀ (s : State) (w : Width) (n : Nat), ReadyToRun w s → s.cfg.nplanes = (n : Int) →
    AcceptsWrites (2 * logicalLength w s + n) s →
    ∃ (t : State) (bs : List Byte),
      exec .blkStart s = .next t
        ∧ EncodesStream w (effectiveOrder s) n (elementsOf w (effectiveOrder s) (paddedInput w s)) bs
        ∧ n * widthBytes w ≤ bs.length
        ∧ bs.length ≤ (2 * logicalLength w s + n) * widthBytes w
        ∧ t.sink
          = { out := (if s.cfg.append then s.sink.out else []) ++ bs
              out0len := (if s.cfg.append then s.sink.out else []).length }
        ∧ t.res
          = { st := .done
              err := .none
              cause := none
              origSize := s.cfg.len
              paddedSize := s.cfg.len + padCount w s.cfg.len
              padOccurred := decide (padCount w s.cfg.len ≠ 0)
              encodedBytes := bs.length }
        ∧ t.enc = { pending := [], rc := 0 }
        ∧ t.ps.p = n
        ∧ t.cfg = s.cfg

/-- 44_block_control (R133) and 70_reset_and_hazards §4 (R168): whatever the state and the environment, `BLK.START` ends
in a next state: DONE, a recorded error, or, only where the environment lists a block reset, the reset status. That a start
in BUSY leaves the state as it is, is the model's choice (log 14, DESIGN CHOICE, after D8 and R131), and so are a block reset
arriving with an environment's answer (log 17, DESIGN CHOICE), the truncation by a refused open as that answer's part (log 6,
DESIGN CHOICE), and the kept prefix of a refused write as that answer's part (log 5, DESIGN CHOICE). 60_exceptions §1, §2 (R139, R141, R143): with a legal configuration and the input loaded, a refused open ends
it in IOFailure(open) before anything is appended; and if `k` writes are accepted and the next is refused, one that the
invocation makes (there are more than `k` words in the stream of `t₀`, where every write is accepted), it ends in
IOFailure(write), and the sink holds the words before it and a prefix of the refused one, no more. -/
def Obligations.StartAlwaysEnds : Prop :=
  ∀ s : State,
    ∃ t, exec .blkStart s = .next t
      ∧ (s.res.st ≠ .busy →
          t.res.st = .done ∧ t.res.err = .none ∨ t.res.st = .error ∧ t.res.err ≠ .none
            ∨ ¬NoResetListed s ∧ t.res = resReset)
      ∧ (s.res.st = .busy → t = s)
      ∧ (∀ w b, s.res.st ≠ .busy → widthOf? s.cfg.width = some w → 1 ≤ s.cfg.nplanes →
          s.cfg.len ≤ s.env.input.length → (nextLoad s).1 = .attempt true true → (nextOpen s).1 = .refused b →
          t.res.st = .error ∧ t.res.err = .ioFailure ∧ t.res.cause = some .openSink
            ∧ t.sink = { s.sink with out := if b && !s.cfg.append then [] else s.sink.out })
      ∧ (∀ w k kept later t₀, ReadyToRun w s →
          s.env.writes = List.replicate k .accepted ++ .refused kept :: later →
          exec .blkStart { s with env := { s.env with writes := [] } } = .next t₀ →
          k * widthBytes w < t₀.res.encodedBytes →
          t.res.st = .error ∧ t.res.err = .ioFailure ∧ t.res.cause = some .write
            ∧ t.sink.out = t₀.sink.out.take (t₀.sink.out0len + k * widthBytes w + min kept (widthBytes w)))

/-- 95_test_vectors §2 (P1) and 30_encoding §6: the reference reader, run on the bytes of a completed invocation, hands
back the elements of the padded input, whose serialisation is the padded input. -/
def Obligations.ReaderInvertsEncoder : Prop :=
  ∀ (s : State) (w : Width) (n : Nat), ReadyToRun w s → s.cfg.nplanes = (n : Int) →
    AcceptsWrites (2 * logicalLength w s + n) s →
    ∃ (t u : State) (k : Nat),
      exec .blkStart s = .next t
        ∧ Host.Core.run Sys2Proof.core k
            (startRead (t.sink.out.drop t.sink.out0len) n w (effectiveOrder s) t) = .next u
        ∧ u.ret = some (.elements (elementsOf w (effectiveOrder s) (paddedInput w s)))
        ∧ u.rd.running = false
        ∧ serialiseAll w (effectiveOrder s) (elementsOf w (effectiveOrder s) (paddedInput w s)) = paddedInput w s

/-- 44_block_control (R134): the bytes of a completed invocation depend on the input bytes, `LEN`, `W`, the effective
order and `N` alone, not on `APPEND`, on what the sink held, on the registers, or on an earlier invocation. 95_test_vectors
§2 (P6), 42_plane_splitter (R109), 70_reset_and_hazards (R155): and the bytes of a plane depend on the plane's elements, `W`
and the effective order alone, not on which plane it is, on the other planes, or on what the encoder held. -/
def Obligations.StreamDependsOnInputAlone : Prop :=
  (∀ (s s' t t' : State) (w : Width) (n : Nat), ReadyToRun w s → ReadyToRun w s' → s.cfg.nplanes = (n : Int) →
    s'.cfg.nplanes = (n : Int) → s.cfg.len = s'.cfg.len → effectiveOrder s = effectiveOrder s' →
    s.env.input.take s.cfg.len = s'.env.input.take s.cfg.len →
    AcceptsWrites (2 * logicalLength w s + n) s → AcceptsWrites (2 * logicalLength w s' + n) s' →
    exec .blkStart s = .next t → exec .blkStart s' = .next t' →
    t.sink.out.drop t.sink.out0len = t'.sink.out.drop t'.sink.out0len
      ∧ t.res = t'.res ∧ t.ps = t'.ps)
  ∧ ∀ (s s' : State) (w : Width) (p p' n n' : Nat), widthOf? s.cfg.width = some w → widthOf? s'.cfg.width = some w →
    s.cfg.nplanes = (n : Int) → s'.cfg.nplanes = (n' : Int) → p < n → p' < n' → InputWhole w s.inb →
    InputWhole w s'.inb → effectiveOrder s = effectiveOrder s' →
    planeElements n p (elementsOf w (effectiveOrder s) (inputBytes s.inb))
      = planeElements n' p' (elementsOf w (effectiveOrder s') (inputBytes s'.inb)) →
    AcceptsWrites (2 * planeLength n s.inb.elems p + 1) s →
    AcceptsWrites (2 * planeLength n' s'.inb.elems p' + 1) s' →
    ∃ (t t' : State) (bs : List Byte),
      exec (.psPlane p) s = .next t ∧ exec (.psPlane p') s' = .next t'
        ∧ t.sink.out = s.sink.out ++ bs ∧ t'.sink.out = s'.sink.out ++ bs

/-- 44_block_control R127: the report of a completed invocation. -/
def Obligations.ReportGivesByteCounts : Prop :=
  ∀ s : State, s.res.st = .done →
    exec .blkReport s
      = .next
          (s.answer
            (.report s.res.origSize (if s.res.padOccurred then some s.res.paddedSize else none) s.res.encodedBytes))

/-- 44_block_control (R128), 60_exceptions (R136, decision D9); and the model's own completion of `BLK.REPORT` outside
DONE with a free result (log 8). -/
def Obligations.StatusGivesResult : Prop :=
  ∀ s : State,
    (∃ code,
        exec .blkStatus s
          = .next (s.answer (.status s.res.st s.res.err code (if s.res.st = .error then s.res.cause else none)))
        ∧ (code = 0 ↔ s.res.err = .none) ∧ (code = 1 ↔ s.res.err = .configurationError)
        ∧ (code = 2 ↔ s.res.err = .resourceExhaustion) ∧ (code = 3 ↔ s.res.err = .ioFailure))
      ∧ (s.res.st ≠ .done →
        ∃ a b c, exec .blkReport s = .next { s with ret := some (.report a b c), freeCount := s.freeCount + 1 })

/-! ### The reference reader -/

/-- 30_encoding §6 (R70, R55, R56): a run or literal token of the stream's width appends the elements it stands for to
the plane being read and moves past its words. -/
def Obligations.ReaderTakesToken : Prop :=
  ∀ (s : State) (i : Instr) (w : Width), s.rd.running = true → s.rd.width = w → tokenWidth? i = some w →
    i.wellFormed = true → (isRunToken i || isLiteralToken i) = true →
    exec i s
      = .next
          { s with
            rd :=
              { s.rd with
                cur := s.rd.cur ++ tokenElements i
                pos := s.rd.pos + (encode s.rd.order i).length } }

/-- 30_encoding §6 (R70, R57, R63): the terminator ends the plane; after the last plane, with the bytes used up and the
lengths fitting, the interleaved elements are handed back. -/
def Obligations.ReaderEndsPlaneAtTerminator : Prop :=
  ∀ (s : State) (i : Instr) (w : Width), s.rd.running = true → s.rd.width = w → i = termToken w →
    (s.rd.done.length + 1 < s.rd.nplanes →
        exec i s
          = .next
              { s with
                rd :=
                  { s.rd with
                    done := s.rd.done ++ [s.rd.cur], cur := [], pos := s.rd.pos + widthBytes w } })
      ∧ (s.rd.done.length + 1 = s.rd.nplanes → s.rd.pos + widthBytes w = s.rd.bytes.length →
        ∀ es, s.rd.done ++ [s.rd.cur] = (List.range s.rd.nplanes).map (fun p => planeElements s.rd.nplanes p es) →
        exec i s
          = .next
              { s with
                rd :=
                  { s.rd with
                    done := s.rd.done ++ [s.rd.cur], cur := [], pos := s.rd.pos + widthBytes w }
                ret := some (.elements es) })

/-- 30_encoding §3 and §6 (R62, R70): a run of 0 or 1 is refused; so is a stream cut short in a control word, in the
payload of a run or in the payload of a literal; and so are, at the last terminator, bytes left over, and planes whose
lengths fit no interleaving. The names of the refusals are the model's (log 21). -/
def Obligations.ReaderRefusesBadStreams : Prop :=
  ∀ (s : State) (w : Width), s.rd.running = true → s.rd.width = w →
    (∀ k v, k < 2 → exec (runToken w k v) s = .refused .reservedRunCount)
      ∧ (s.rd.bytes.length < s.rd.pos + widthBytes w → step s = .refused .streamTruncated)
      ∧ (∀ c, s.rd.pos + widthBytes w ≤ s.rd.bytes.length →
        assemble s.rd.order ((s.rd.bytes.drop s.rd.pos).take (widthBytes w)) = c →
        (runFlagSet w c = true → s.rd.bytes.length < s.rd.pos + 2 * widthBytes w →
            step s = .refused .streamTruncated)
          ∧ (runFlagSet w c = false → c ≠ 0 → s.rd.bytes.length < s.rd.pos + (1 + c) * widthBytes w →
            step s = .refused .streamTruncated))
      ∧ (s.rd.done.length + 1 = s.rd.nplanes → s.rd.pos + widthBytes w ≠ s.rd.bytes.length →
        exec (termToken w) s = .refused .trailingBytes)
      ∧ (∀ p, s.rd.done.length + 1 = s.rd.nplanes → s.rd.pos + widthBytes w = s.rd.bytes.length →
        p < s.rd.nplanes →
        ((s.rd.done ++ [s.rd.cur]).getD p []).length
          ≠ planeLength s.rd.nplanes (totalLength (s.rd.done ++ [s.rd.cur])) p →
        exec (termToken w) s = .refused .planeLengths)

/-! ### The step, the reset, the invariant -/

/-- The model's step (log 1, log 2): while a stream is being read, a step runs the token at the reader's position; the
step adds nothing of its own. -/
def Obligations.StepRunsDecodedToken : Prop :=
  ∀ (s : State) (i : Instr) (rest : List Byte), s.rd.running = true →
    decode s.rd.width s.rd.order (s.rd.bytes.drop s.rd.pos) = .ok (i, rest) → step s = exec i s

/-- The model's step (log 1, log 2), 70_reset_and_hazards §2 (R156), §1 (R153, R154) and 30_encoding §6 (R70): otherwise the
oldest request of the host is taken off and served; with none the block does nothing. A reader started with `N = 0` has no
plane to read: it refuses a string that is not empty, and of the empty one the result has no element. -/
def Obligations.StepServesHost : Prop :=
  ∀ (s : State) (q : List HostRequest), s.rd.running = false →
    (∀ i, s.hostq = .invoke i :: q → step s = exec i { s with hostq := q })
      ∧ (∀ bs, s.hostq = .supplyInput bs :: q →
        step s = .next { s with hostq := q, env := { s.env with input := bs } })
      ∧ (∀ bs, s.hostq = .supplySink bs :: q →
        step s = .next { s with hostq := q, sink := { s.sink with out := bs } })
      ∧ (s.hostq = .blockReset :: q →
        step s
          = .next
              { s with
                hostq := q
                cfg := State.reset.cfg
                enc := State.reset.enc
                ps := State.reset.ps
                sink := { out := s.sink.out, out0len := 0 }
                res := State.reset.res })
      ∧ (∀ bs n w o, s.hostq = .read bs n w o :: q →
        (1 ≤ n →
            step s
              = .next
                  { s with
                    hostq := q
                    rd := { bytes := bs, pos := 0, nplanes := n, width := w, order := o, done := [], cur := [] } })
          ∧ (n = 0 → bs ≠ [] → step s = .refused .trailingBytes)
          ∧ (n = 0 → bs = [] →
            step s
              = .next
                  { s with
                    hostq := q
                    rd := { bytes := [], pos := 0, nplanes := 0, width := w, order := o, done := [], cur := [] }
                    ret := some (.elements []) }))
      ∧ (s.hostq = [] → step s = .next s)

/-- 10_state §9 (R34): the reset values of the block's own registers; the values of what stands outside the block are
the model's (log 1, 2, 4, 9, 10, 13). -/
def Obligations.ResetValues : Prop :=
  State.reset.cfg = { width := 1, bigend := false, nplanes := 1, append := false, len := 0 }
    ∧ State.reset.enc = { pending := [], rc := 0 }
    ∧ State.reset.ps = { p := 0, i := 0 }
    ∧ State.reset.sink.out0len = 0
    ∧ State.reset.res.st = .idle ∧ State.reset.res.err = .none
    ∧ State.reset.res.origSize = 0 ∧ State.reset.res.paddedSize = 0 ∧ State.reset.res.padOccurred = false
    ∧ State.reset.res.encodedBytes = 0

/-- 10_state §7 (R30), 60_exceptions (R137 to R141), 41_rle_encoder §6, and the model's memory form (log 10): every step
keeps the invariant of the machine. -/
def Obligations.StepKeepsMachineInvariant : Prop :=
  ∀ s t : State, MachineInv s → step s = .next t → MachineInv t

/-- The invariant of the machine holds at reset: 10_state §9 (R34) for the status and the encoder. That the input buffer is
empty there, and that no cause is recorded, are the model's choice (log 10, log 15, DESIGN CHOICE): R34 gives neither a
reset value. -/
def Obligations.ResetMeetsMachineInvariant : Prop :=
  MachineInv State.reset

/-! ### Frames -/

/-- 10_state §2 (R24): no operation but `BLK.CONFIG` writes `CFG` (a block reset inside an operation does, log 17, DESIGN
CHOICE). 10_state §8 (R33) and 20_memory §1 (R37): none writes the native order or the host's input bytes. That none writes
the host's pending requests is about the model's own queue (log 1, DESIGN CHOICE). -/
def Obligations.ConfigurationFrame : Prop :=
  ∀ (i : Instr) (s t : State), exec i s = .next t →
    (NoResetListed s → (∀ c, i ≠ .blkConfig c) → t.cfg = s.cfg)
      ∧ t.env.nativeOrder = s.env.nativeOrder ∧ t.env.input = s.env.input ∧ t.hostq = s.hostq

/-- 10_state §3 (R25, R26), §5 (R28): the encoder registers are written only by ENC, PS and `BLK.START`, the iterator
only by PS and `BLK.START`. For a refused bare `SINK.PUT`, `SINK.TERM`, `SINK.OPEN` or `BLK.LOAD` that is the model's reading
(R141; log 30, DEDUCED): U4, and D12 for an append, call the registers unspecified. -/
def Obligations.EncoderAndIteratorFrame : Prop :=
  ∀ (i : Instr) (s t : State), exec i s = .next t → NoResetListed s → i ≠ .blkStart →
    (unitOf i ≠ .enc → unitOf i ≠ .ps → t.enc = s.enc) ∧ (unitOf i ≠ .ps → t.ps = s.ps)

/-- 10_state §6 (R29), §7 (R31), 20_memory §1 (R37, R41): which operations write the sink, its open mark, the byte count
and the sizes, and the input memory. -/
def Obligations.MemoryFrame : Prop :=
  ∀ (i : Instr) (s t : State), exec i s = .next t → NoResetListed s → i ≠ .blkStart →
    (writesSink i = false → t.sink.out = s.sink.out ∧ t.res.encodedBytes = s.res.encodedBytes)
      ∧ (i ≠ .sinkOpen → t.sink.out0len = s.sink.out0len)
      ∧ (i ≠ .blkPad →
        t.inb = s.inb ∧ t.res.origSize = s.res.origSize ∧ t.res.paddedSize = s.res.paddedSize
          ∧ t.res.padOccurred = s.res.padOccurred ∧ ∀ a, t.inb.cells.read a = s.inb.cells.read a)

/-- 10_state §7 (R30), 60_exceptions (R135): status, error kind and cause change only by a recorded error or in
`BLK.START` (or by a block reset inside an operation, log 17). That the reader is touched by tokens alone, and the returned
result only by an operation that returns one, is about the model's own fields (log 2 and log 3, DESIGN CHOICE). -/
def Obligations.StatusAndResultFrame : Prop :=
  ∀ (i : Instr) (s t : State), exec i s = .next t →
    (NoResetListed s → i ≠ .blkStart →
        t.res.st = s.res.st ∧ t.res.err = s.res.err ∧ t.res.cause = s.res.cause
          ∨ t.res.st = .error ∧ t.res.err ≠ .none)
      ∧ (unitOf i ≠ .token → t.rd = s.rd)
      ∧ (unitOf i = .enc ∨ unitOf i = .ps ∨ i = .sinkOpen ∨ i = .sinkTerm ∨ (∃ e, i = .sinkPut e) ∨ i = .blkStart
          ∨ i = .blkCheck ∨ i = .blkPad ∨ i = .blkLoad ∨ (∃ c, i = .blkConfig c) → t.ret = s.ret)
end

