-- ==== Sys2Proof/Laws/Bytes.lean ====
section
/-! SUPPORT. Elements and bytes: serialising and assembling undo each other, and the decoder takes back the words
that were serialised. -/

namespace Sys2Proof.Machine

theorem elemLimit_eq (w : Width) : elemLimit w = 256 ^ widthBytes w := by
  cases w <;> rfl

theorem widthBytes_pos (w : Width) : 0 < widthBytes w := by
  cases w <;> decide

@[simp] theorem bytesLE_length (n e : Nat) : (bytesLE n e).length = n := by
  induction n generalizing e with
  | zero => rfl
  | succ n ih => simp [bytesLE, ih]

theorem assembleLE_bytesLE (n e : Nat) : assembleLE (bytesLE n e) = e % 256 ^ n := by
  induction n generalizing e with
  | zero => simp [bytesLE, assembleLE, Nat.mod_one]
  | succ n ih =>
    simp only [bytesLE, assembleLE, ih, BitVec.toNat_ofNat]
    have h : e % (256 * 256 ^ n) = e % 256 + 256 * (e / 256 % 256 ^ n) := Nat.mod_mul
    rw [show (256 : Nat) ^ (n + 1) = 256 * 256 ^ n from Nat.pow_succ', h]

theorem bytesLE_assembleLE (bs : List Byte) : bytesLE bs.length (assembleLE bs) = bs := by
  induction bs with
  | nil => rfl
  | cons b bs ih =>
    have hb : b.toNat < 256 := b.isLt
    have h1 : (b.toNat + 256 * assembleLE bs) / 256 = assembleLE bs := by omega
    simp only [List.length_cons, bytesLE, assembleLE, h1, ih, List.cons.injEq, and_true]
    apply BitVec.eq_of_toNat_eq
    simp only [BitVec.toNat_ofNat]
    omega

theorem assembleLE_lt (bs : List Byte) : assembleLE bs < 256 ^ bs.length := by
  induction bs with
  | nil => simp [assembleLE]
  | cons b bs ih =>
    have hb : b.toNat < 256 := b.isLt
    simp only [assembleLE, List.length_cons, Nat.pow_succ']
    omega

@[simp] theorem serialise_length (w : Width) (o : ByteOrder) (e : Nat) : (serialise w o e).length = widthBytes w := by
  cases o <;> simp [serialise]

theorem assemble_lt (o : ByteOrder) (bs : List Byte) : assemble o bs < 256 ^ bs.length := by
  cases o
  · exact assembleLE_lt bs
  · simpa [assemble] using assembleLE_lt bs.reverse

theorem assemble_of_serialise (w : Width) (o : ByteOrder) (e : Nat) (h : e < elemLimit w) :
    assemble o (serialise w o e) = e := by
  rw [elemLimit_eq] at h
  cases o <;> simp [assemble, serialise, assembleLE_bytesLE, Nat.mod_eq_of_lt h]

theorem serialise_of_assemble (w : Width) (o : ByteOrder) (bs : List Byte) (h : bs.length = widthBytes w) :
    serialise w o (assemble o bs) = bs := by
  cases o
  · simp [assemble, serialise, ← h, bytesLE_assembleLE]
  · have := bytesLE_assembleLE bs.reverse
    simp only [List.length_reverse] at this
    simp [assemble, serialise, ← h, this]

@[simp] theorem serialiseAll_nil (w : Width) (o : ByteOrder) : serialiseAll w o [] = [] := rfl

@[simp] theorem serialiseAll_cons (w : Width) (o : ByteOrder) (e : Nat) (es : List Nat) :
    serialiseAll w o (e :: es) = serialise w o e ++ serialiseAll w o es := by
  simp [serialiseAll]

theorem serialiseAll_append (w : Width) (o : ByteOrder) (xs ys : List Nat) :
    serialiseAll w o (xs ++ ys) = serialiseAll w o xs ++ serialiseAll w o ys := by
  simp [serialiseAll]

@[simp] theorem serialiseAll_length (w : Width) (o : ByteOrder) (es : List Nat) :
    (serialiseAll w o es).length = es.length * widthBytes w := by
  induction es with
  | nil => simp
  | cons e es ih => simp [ih, Nat.succ_mul, Nat.add_comm]

theorem takeBytes_of_append (x r : List Byte) : takeBytes x.length (x ++ r) = some (x, r) := by
  induction x with
  | nil => rfl
  | cons b x ih => simp [takeBytes, ih]

theorem takeWord_of_serialise (w : Width) (o : ByteOrder) (e : Nat) (r : List Byte) (h : e < elemLimit w) :
    takeWord w o (serialise w o e ++ r) = some (e, r) := by
  have := takeBytes_of_append (serialise w o e) r
  rw [serialise_length] at this
  simp [takeWord, this, assemble_of_serialise w o e h]

theorem takeWords_of_serialiseAll (w : Width) (o : ByteOrder) (es : List Nat) (r : List Byte) (h : ElementsFit w es) :
    takeWords w o es.length (serialiseAll w o es ++ r) = some (es, r) := by
  induction es with
  | nil => rfl
  | cons e es ih =>
    have he : e < elemLimit w := h e (by simp)
    have hes : ElementsFit w es := fun x hx => h x (by simp [hx])
    simp [takeWords, takeWord_of_serialise w o e _ he, ih hes]

/-- Byte `j` of an element, least significant first. -/
theorem bytesLE_getD (n e j : Nat) (h : j < n) : (bytesLE n e).getD j 0 = BitVec.ofNat 8 (e / 256 ^ j) := by
  induction n generalizing e j with
  | zero => omega
  | succ n ih =>
    cases j with
    | zero => simp [bytesLE]
    | succ j =>
      simp only [bytesLE, List.getD_cons_succ]
      rw [ih _ _ (by omega), Nat.div_div_eq_div_mul, Nat.pow_succ']

/-- The assembled element as a sum over its bytes (R38). -/
theorem assembleLE_sum (bs : List Byte) : assembleLE bs = ((List.range bs.length).map fun j => (bs.getD j 0).toNat * 256 ^ j).sum := by
  induction bs with
  | nil => rfl
  | cons b bs ih =>
    rw [assembleLE, ih, List.length_cons, List.range_succ_eq_map, List.map_cons, List.sum_cons, List.map_map]
    simp [Function.comp_def]
    rw [← List.sum_map_mul_left]
    congr 1
    apply List.map_congr_left
    intro j _
    rw [Nat.pow_succ]; ring

/-- What taking bytes, a word, words says about the byte string. -/
theorem takeBytes_eq_some (n : Nat) (bs x r : List Byte) (h : takeBytes n bs = some (x, r)) : x.length = n ∧ bs = x ++ r := by
  induction n generalizing bs x r with
  | zero => simp [takeBytes] at h; obtain ⟨rfl, rfl⟩ := h; simp
  | succ n ih =>
    cases bs with
    | nil => simp [takeBytes] at h
    | cons b bs =>
      simp only [takeBytes] at h
      split at h
      · simp at h
      · rename_i y r' hy
        obtain ⟨h1, h2⟩ := ih _ _ _ hy
        simp at h
        obtain ⟨rfl, rfl⟩ := h
        simp [h1, h2]

theorem takeWord_eq_some (w : Width) (o : ByteOrder) (bs r : List Byte) (e : Nat) (h : takeWord w o bs = some (e, r)) :
    e < elemLimit w ∧ bs = serialise w o e ++ r := by
  unfold takeWord at h
  split at h
  · simp at h
  · rename_i x r' hx
    obtain ⟨h1, h2⟩ := takeBytes_eq_some _ _ _ _ hx
    simp at h
    obtain ⟨rfl, rfl⟩ := h
    refine ⟨?_, ?_⟩
    · have := assemble_lt o x
      rwa [h1, ← elemLimit_eq] at this
    · rw [serialise_of_assemble w o x h1, h2]

theorem takeWords_eq_some (w : Width) (o : ByteOrder) (n : Nat) (bs r : List Byte) (es : List Nat)
    (h : takeWords w o n bs = some (es, r)) : es.length = n ∧ ElementsFit w es ∧ bs = serialiseAll w o es ++ r := by
  induction n generalizing bs es r with
  | zero => simp [takeWords] at h; obtain ⟨rfl, rfl⟩ := h; exact ⟨rfl, fun _ h => by simp at h, rfl⟩
  | succ n ih =>
    simp only [takeWords] at h
    split at h
    · simp at h
    · rename_i v r1 hv
      obtain ⟨a1, a2⟩ := takeWord_eq_some _ _ _ _ _ hv
      split at h
      · simp at h
      · rename_i vs r2 hvs
        obtain ⟨h1, h2, h3⟩ := ih _ _ _ hvs
        simp at h
        obtain ⟨rfl, rfl⟩ := h
        refine ⟨by simp [h1], ?_, by simp [a2, h3]⟩
        intro e he
        rcases List.mem_cons.mp he with rfl | he
        · exact a1
        · exact h2 e he

/-- A word where there are enough bytes for one, and none where there are not. -/
theorem takeWord_enough (w : Width) (o : ByteOrder) (bs : List Byte) (h : widthBytes w ≤ bs.length) :
    takeWord w o bs = some (assemble o (bs.take (widthBytes w)), bs.drop (widthBytes w)) := by
  have := takeBytes_of_append (bs.take (widthBytes w)) (bs.drop (widthBytes w))
  rw [List.length_take_of_le h, List.take_append_drop] at this
  rw [takeWord, this]

theorem takeWord_short (w : Width) (o : ByteOrder) (bs : List Byte) (h : bs.length < widthBytes w) :
    takeWord w o bs = none := by
  cases hx : takeWord w o bs with
  | none => rfl
  | some x =>
    have := (takeWord_eq_some w o bs x.2 x.1 hx).2
    rw [this, List.length_append, serialise_length] at h
    omega

theorem takeWords_short (w : Width) (o : ByteOrder) (n : Nat) (bs : List Byte) (h : bs.length < n * widthBytes w) :
    takeWords w o n bs = none := by
  cases hx : takeWords w o n bs with
  | none => rfl
  | some x =>
    obtain ⟨hn, _, hbs⟩ := takeWords_eq_some w o n bs x.2 x.1 hx
    rw [hbs, List.length_append, serialiseAll_length, hn] at h
    omega

end Sys2Proof.Machine
end

