-- ==== Sys2Proof/Laws/State.lean ====
section
/-! SUPPORT. The fields of a state after each named update: one lemma per field per update. -/

namespace Sys2Proof.Machine

@[simp] theorem setPending_cfg (s : State) (xs : List Nat) : (s.setPending xs).cfg = s.cfg := rfl
@[simp] theorem setPending_enc (s : State) (xs : List Nat) : (s.setPending xs).enc = { s.enc with pending := xs } := rfl
@[simp] theorem setPending_ps (s : State) (xs : List Nat) : (s.setPending xs).ps = s.ps := rfl
@[simp] theorem setPending_sink (s : State) (xs : List Nat) : (s.setPending xs).sink = s.sink := rfl
@[simp] theorem setPending_res (s : State) (xs : List Nat) : (s.setPending xs).res = s.res := rfl
@[simp] theorem setPending_inb (s : State) (xs : List Nat) : (s.setPending xs).inb = s.inb := rfl
@[simp] theorem setPending_env (s : State) (xs : List Nat) : (s.setPending xs).env = s.env := rfl
@[simp] theorem setPending_rd (s : State) (xs : List Nat) : (s.setPending xs).rd = s.rd := rfl
@[simp] theorem setPending_hostq (s : State) (xs : List Nat) : (s.setPending xs).hostq = s.hostq := rfl
@[simp] theorem setPending_ret (s : State) (xs : List Nat) : (s.setPending xs).ret = s.ret := rfl
@[simp] theorem setPending_freeCount (s : State) (xs : List Nat) : (s.setPending xs).freeCount = s.freeCount := rfl
@[simp] theorem setPending_effectiveOrder (s : State) (xs : List Nat) : effectiveOrder (s.setPending xs) = effectiveOrder s := rfl

@[simp] theorem setRc_cfg (s : State) (n : Nat) : (s.setRc n).cfg = s.cfg := rfl
@[simp] theorem setRc_enc (s : State) (n : Nat) : (s.setRc n).enc = { s.enc with rc := n } := rfl
@[simp] theorem setRc_ps (s : State) (n : Nat) : (s.setRc n).ps = s.ps := rfl
@[simp] theorem setRc_sink (s : State) (n : Nat) : (s.setRc n).sink = s.sink := rfl
@[simp] theorem setRc_res (s : State) (n : Nat) : (s.setRc n).res = s.res := rfl
@[simp] theorem setRc_inb (s : State) (n : Nat) : (s.setRc n).inb = s.inb := rfl
@[simp] theorem setRc_env (s : State) (n : Nat) : (s.setRc n).env = s.env := rfl
@[simp] theorem setRc_rd (s : State) (n : Nat) : (s.setRc n).rd = s.rd := rfl
@[simp] theorem setRc_hostq (s : State) (n : Nat) : (s.setRc n).hostq = s.hostq := rfl
@[simp] theorem setRc_ret (s : State) (n : Nat) : (s.setRc n).ret = s.ret := rfl
@[simp] theorem setRc_freeCount (s : State) (n : Nat) : (s.setRc n).freeCount = s.freeCount := rfl
@[simp] theorem setRc_effectiveOrder (s : State) (n : Nat) : effectiveOrder (s.setRc n) = effectiveOrder s := rfl

@[simp] theorem clearEnc_cfg (s : State) : (s.clearEnc).cfg = s.cfg := rfl
@[simp] theorem clearEnc_enc (s : State) : (s.clearEnc).enc = { pending := [], rc := 0 } := rfl
@[simp] theorem clearEnc_ps (s : State) : (s.clearEnc).ps = s.ps := rfl
@[simp] theorem clearEnc_sink (s : State) : (s.clearEnc).sink = s.sink := rfl
@[simp] theorem clearEnc_res (s : State) : (s.clearEnc).res = s.res := rfl
@[simp] theorem clearEnc_inb (s : State) : (s.clearEnc).inb = s.inb := rfl
@[simp] theorem clearEnc_env (s : State) : (s.clearEnc).env = s.env := rfl
@[simp] theorem clearEnc_rd (s : State) : (s.clearEnc).rd = s.rd := rfl
@[simp] theorem clearEnc_hostq (s : State) : (s.clearEnc).hostq = s.hostq := rfl
@[simp] theorem clearEnc_ret (s : State) : (s.clearEnc).ret = s.ret := rfl
@[simp] theorem clearEnc_freeCount (s : State) : (s.clearEnc).freeCount = s.freeCount := rfl
@[simp] theorem clearEnc_effectiveOrder (s : State) : effectiveOrder (s.clearEnc) = effectiveOrder s := rfl

@[simp] theorem setI_cfg (s : State) (n : Nat) : (s.setI n).cfg = s.cfg := rfl
@[simp] theorem setI_enc (s : State) (n : Nat) : (s.setI n).enc = s.enc := rfl
@[simp] theorem setI_ps (s : State) (n : Nat) : (s.setI n).ps = { s.ps with i := n } := rfl
@[simp] theorem setI_sink (s : State) (n : Nat) : (s.setI n).sink = s.sink := rfl
@[simp] theorem setI_res (s : State) (n : Nat) : (s.setI n).res = s.res := rfl
@[simp] theorem setI_inb (s : State) (n : Nat) : (s.setI n).inb = s.inb := rfl
@[simp] theorem setI_env (s : State) (n : Nat) : (s.setI n).env = s.env := rfl
@[simp] theorem setI_rd (s : State) (n : Nat) : (s.setI n).rd = s.rd := rfl
@[simp] theorem setI_hostq (s : State) (n : Nat) : (s.setI n).hostq = s.hostq := rfl
@[simp] theorem setI_ret (s : State) (n : Nat) : (s.setI n).ret = s.ret := rfl
@[simp] theorem setI_freeCount (s : State) (n : Nat) : (s.setI n).freeCount = s.freeCount := rfl
@[simp] theorem setI_effectiveOrder (s : State) (n : Nat) : effectiveOrder (s.setI n) = effectiveOrder s := rfl

@[simp] theorem setP_cfg (s : State) (n : Nat) : (s.setP n).cfg = s.cfg := rfl
@[simp] theorem setP_enc (s : State) (n : Nat) : (s.setP n).enc = s.enc := rfl
@[simp] theorem setP_ps (s : State) (n : Nat) : (s.setP n).ps = { s.ps with p := n } := rfl
@[simp] theorem setP_sink (s : State) (n : Nat) : (s.setP n).sink = s.sink := rfl
@[simp] theorem setP_res (s : State) (n : Nat) : (s.setP n).res = s.res := rfl
@[simp] theorem setP_inb (s : State) (n : Nat) : (s.setP n).inb = s.inb := rfl
@[simp] theorem setP_env (s : State) (n : Nat) : (s.setP n).env = s.env := rfl
@[simp] theorem setP_rd (s : State) (n : Nat) : (s.setP n).rd = s.rd := rfl
@[simp] theorem setP_hostq (s : State) (n : Nat) : (s.setP n).hostq = s.hostq := rfl
@[simp] theorem setP_ret (s : State) (n : Nat) : (s.setP n).ret = s.ret := rfl
@[simp] theorem setP_freeCount (s : State) (n : Nat) : (s.setP n).freeCount = s.freeCount := rfl
@[simp] theorem setP_effectiveOrder (s : State) (n : Nat) : effectiveOrder (s.setP n) = effectiveOrder s := rfl

@[simp] theorem answer_cfg (s : State) (r : HostResult) : (s.answer r).cfg = s.cfg := rfl
@[simp] theorem answer_enc (s : State) (r : HostResult) : (s.answer r).enc = s.enc := rfl
@[simp] theorem answer_ps (s : State) (r : HostResult) : (s.answer r).ps = s.ps := rfl
@[simp] theorem answer_sink (s : State) (r : HostResult) : (s.answer r).sink = s.sink := rfl
@[simp] theorem answer_res (s : State) (r : HostResult) : (s.answer r).res = s.res := rfl
@[simp] theorem answer_inb (s : State) (r : HostResult) : (s.answer r).inb = s.inb := rfl
@[simp] theorem answer_env (s : State) (r : HostResult) : (s.answer r).env = s.env := rfl
@[simp] theorem answer_rd (s : State) (r : HostResult) : (s.answer r).rd = s.rd := rfl
@[simp] theorem answer_hostq (s : State) (r : HostResult) : (s.answer r).hostq = s.hostq := rfl
@[simp] theorem answer_ret (s : State) (r : HostResult) : (s.answer r).ret = some r := rfl
@[simp] theorem answer_freeCount (s : State) (r : HostResult) : (s.answer r).freeCount = s.freeCount := rfl
@[simp] theorem answer_effectiveOrder (s : State) (r : HostResult) : effectiveOrder (s.answer r) = effectiveOrder s := rfl

@[simp] theorem setInput_cfg (s : State) (bs : List Byte) (n : Nat) : (s.setInput bs n).cfg = s.cfg := rfl
@[simp] theorem setInput_enc (s : State) (bs : List Byte) (n : Nat) : (s.setInput bs n).enc = s.enc := rfl
@[simp] theorem setInput_ps (s : State) (bs : List Byte) (n : Nat) : (s.setInput bs n).ps = s.ps := rfl
@[simp] theorem setInput_sink (s : State) (bs : List Byte) (n : Nat) : (s.setInput bs n).sink = s.sink := rfl
@[simp] theorem setInput_res (s : State) (bs : List Byte) (n : Nat) : (s.setInput bs n).res = s.res := rfl
@[simp] theorem setInput_inb (s : State) (bs : List Byte) (n : Nat) : (s.setInput bs n).inb = { cells := Memory.ofBytes 0 bs, size := bs.length, elems := n } := rfl
@[simp] theorem setInput_env (s : State) (bs : List Byte) (n : Nat) : (s.setInput bs n).env = s.env := rfl
@[simp] theorem setInput_rd (s : State) (bs : List Byte) (n : Nat) : (s.setInput bs n).rd = s.rd := rfl
@[simp] theorem setInput_hostq (s : State) (bs : List Byte) (n : Nat) : (s.setInput bs n).hostq = s.hostq := rfl
@[simp] theorem setInput_ret (s : State) (bs : List Byte) (n : Nat) : (s.setInput bs n).ret = s.ret := rfl
@[simp] theorem setInput_freeCount (s : State) (bs : List Byte) (n : Nat) : (s.setInput bs n).freeCount = s.freeCount := rfl
@[simp] theorem setInput_effectiveOrder (s : State) (bs : List Byte) (n : Nat) : effectiveOrder (s.setInput bs n) = effectiveOrder s := rfl

@[simp] theorem appendOut_cfg (s : State) (bs : List Byte) : (s.appendOut bs).cfg = s.cfg := rfl
@[simp] theorem appendOut_enc (s : State) (bs : List Byte) : (s.appendOut bs).enc = s.enc := rfl
@[simp] theorem appendOut_ps (s : State) (bs : List Byte) : (s.appendOut bs).ps = s.ps := rfl
@[simp] theorem appendOut_sink (s : State) (bs : List Byte) : (s.appendOut bs).sink = { s.sink with out := s.sink.out ++ bs } := rfl
@[simp] theorem appendOut_res (s : State) (bs : List Byte) : (s.appendOut bs).res = s.res := rfl
@[simp] theorem appendOut_inb (s : State) (bs : List Byte) : (s.appendOut bs).inb = s.inb := rfl
@[simp] theorem appendOut_env (s : State) (bs : List Byte) : (s.appendOut bs).env = s.env := rfl
@[simp] theorem appendOut_rd (s : State) (bs : List Byte) : (s.appendOut bs).rd = s.rd := rfl
@[simp] theorem appendOut_hostq (s : State) (bs : List Byte) : (s.appendOut bs).hostq = s.hostq := rfl
@[simp] theorem appendOut_ret (s : State) (bs : List Byte) : (s.appendOut bs).ret = s.ret := rfl
@[simp] theorem appendOut_freeCount (s : State) (bs : List Byte) : (s.appendOut bs).freeCount = s.freeCount := rfl
@[simp] theorem appendOut_effectiveOrder (s : State) (bs : List Byte) : effectiveOrder (s.appendOut bs) = effectiveOrder s := rfl

@[simp] theorem setEncoded_cfg (s : State) (n : Nat) : (s.setEncoded n).cfg = s.cfg := rfl
@[simp] theorem setEncoded_enc (s : State) (n : Nat) : (s.setEncoded n).enc = s.enc := rfl
@[simp] theorem setEncoded_ps (s : State) (n : Nat) : (s.setEncoded n).ps = s.ps := rfl
@[simp] theorem setEncoded_sink (s : State) (n : Nat) : (s.setEncoded n).sink = s.sink := rfl
@[simp] theorem setEncoded_res (s : State) (n : Nat) : (s.setEncoded n).res = { s.res with encodedBytes := n } := rfl
@[simp] theorem setEncoded_inb (s : State) (n : Nat) : (s.setEncoded n).inb = s.inb := rfl
@[simp] theorem setEncoded_env (s : State) (n : Nat) : (s.setEncoded n).env = s.env := rfl
@[simp] theorem setEncoded_rd (s : State) (n : Nat) : (s.setEncoded n).rd = s.rd := rfl
@[simp] theorem setEncoded_hostq (s : State) (n : Nat) : (s.setEncoded n).hostq = s.hostq := rfl
@[simp] theorem setEncoded_ret (s : State) (n : Nat) : (s.setEncoded n).ret = s.ret := rfl
@[simp] theorem setEncoded_freeCount (s : State) (n : Nat) : (s.setEncoded n).freeCount = s.freeCount := rfl
@[simp] theorem setEncoded_effectiveOrder (s : State) (n : Nat) : effectiveOrder (s.setEncoded n) = effectiveOrder s := rfl

@[simp] theorem markOpen_cfg (s : State) : (s.markOpen).cfg = s.cfg := rfl
@[simp] theorem markOpen_enc (s : State) : (s.markOpen).enc = s.enc := rfl
@[simp] theorem markOpen_ps (s : State) : (s.markOpen).ps = s.ps := rfl
@[simp] theorem markOpen_sink (s : State) : (s.markOpen).sink = { s.sink with out0len := s.sink.out.length } := rfl
@[simp] theorem markOpen_res (s : State) : (s.markOpen).res = s.res := rfl
@[simp] theorem markOpen_inb (s : State) : (s.markOpen).inb = s.inb := rfl
@[simp] theorem markOpen_env (s : State) : (s.markOpen).env = s.env := rfl
@[simp] theorem markOpen_rd (s : State) : (s.markOpen).rd = s.rd := rfl
@[simp] theorem markOpen_hostq (s : State) : (s.markOpen).hostq = s.hostq := rfl
@[simp] theorem markOpen_ret (s : State) : (s.markOpen).ret = s.ret := rfl
@[simp] theorem markOpen_freeCount (s : State) : (s.markOpen).freeCount = s.freeCount := rfl
@[simp] theorem markOpen_effectiveOrder (s : State) : effectiveOrder (s.markOpen) = effectiveOrder s := rfl

@[simp] theorem setLoaded_cfg (s : State) (x : Option (List Byte)) : (s.setLoaded x).cfg = s.cfg := rfl
@[simp] theorem setLoaded_enc (s : State) (x : Option (List Byte)) : (s.setLoaded x).enc = s.enc := rfl
@[simp] theorem setLoaded_ps (s : State) (x : Option (List Byte)) : (s.setLoaded x).ps = s.ps := rfl
@[simp] theorem setLoaded_sink (s : State) (x : Option (List Byte)) : (s.setLoaded x).sink = s.sink := rfl
@[simp] theorem setLoaded_res (s : State) (x : Option (List Byte)) : (s.setLoaded x).res = s.res := rfl
@[simp] theorem setLoaded_inb (s : State) (x : Option (List Byte)) : (s.setLoaded x).inb = s.inb := rfl
@[simp] theorem setLoaded_env (s : State) (x : Option (List Byte)) : (s.setLoaded x).env = { s.env with loaded := x } := rfl
@[simp] theorem setLoaded_rd (s : State) (x : Option (List Byte)) : (s.setLoaded x).rd = s.rd := rfl
@[simp] theorem setLoaded_hostq (s : State) (x : Option (List Byte)) : (s.setLoaded x).hostq = s.hostq := rfl
@[simp] theorem setLoaded_ret (s : State) (x : Option (List Byte)) : (s.setLoaded x).ret = s.ret := rfl
@[simp] theorem setLoaded_freeCount (s : State) (x : Option (List Byte)) : (s.setLoaded x).freeCount = s.freeCount := rfl
@[simp] theorem setLoaded_effectiveOrder (s : State) (x : Option (List Byte)) : effectiveOrder (s.setLoaded x) = effectiveOrder s := rfl

@[simp] theorem setSizes_cfg (s : State) (a b : Nat) : (s.setSizes a b).cfg = s.cfg := rfl
@[simp] theorem setSizes_enc (s : State) (a b : Nat) : (s.setSizes a b).enc = s.enc := rfl
@[simp] theorem setSizes_ps (s : State) (a b : Nat) : (s.setSizes a b).ps = s.ps := rfl
@[simp] theorem setSizes_sink (s : State) (a b : Nat) : (s.setSizes a b).sink = s.sink := rfl
@[simp] theorem setSizes_res (s : State) (a b : Nat) : (s.setSizes a b).res = { s.res with origSize := a, paddedSize := b, padOccurred := decide (b ≠ a) } := rfl
@[simp] theorem setSizes_inb (s : State) (a b : Nat) : (s.setSizes a b).inb = s.inb := rfl
@[simp] theorem setSizes_env (s : State) (a b : Nat) : (s.setSizes a b).env = s.env := rfl
@[simp] theorem setSizes_rd (s : State) (a b : Nat) : (s.setSizes a b).rd = s.rd := rfl
@[simp] theorem setSizes_hostq (s : State) (a b : Nat) : (s.setSizes a b).hostq = s.hostq := rfl
@[simp] theorem setSizes_ret (s : State) (a b : Nat) : (s.setSizes a b).ret = s.ret := rfl
@[simp] theorem setSizes_freeCount (s : State) (a b : Nat) : (s.setSizes a b).freeCount = s.freeCount := rfl
@[simp] theorem setSizes_effectiveOrder (s : State) (a b : Nat) : effectiveOrder (s.setSizes a b) = effectiveOrder s := rfl

@[simp] theorem beginRun_cfg (s : State) : (s.beginRun).cfg = s.cfg := rfl
@[simp] theorem beginRun_enc (s : State) : (s.beginRun).enc = s.enc := rfl
@[simp] theorem beginRun_ps (s : State) : (s.beginRun).ps = s.ps := rfl
@[simp] theorem beginRun_sink (s : State) : (s.beginRun).sink = s.sink := rfl
@[simp] theorem beginRun_res (s : State) : (s.beginRun).res = { resReset with st := .busy } := rfl
@[simp] theorem beginRun_inb (s : State) : (s.beginRun).inb = s.inb := rfl
@[simp] theorem beginRun_env (s : State) : (s.beginRun).env = s.env := rfl
@[simp] theorem beginRun_rd (s : State) : (s.beginRun).rd = s.rd := rfl
@[simp] theorem beginRun_hostq (s : State) : (s.beginRun).hostq = s.hostq := rfl
@[simp] theorem beginRun_ret (s : State) : (s.beginRun).ret = s.ret := rfl
@[simp] theorem beginRun_freeCount (s : State) : (s.beginRun).freeCount = s.freeCount := rfl
@[simp] theorem beginRun_effectiveOrder (s : State) : effectiveOrder (s.beginRun) = effectiveOrder s := rfl

@[simp] theorem endRun_cfg (s : State) : (s.endRun).cfg = s.cfg := rfl
@[simp] theorem endRun_enc (s : State) : (s.endRun).enc = s.enc := rfl
@[simp] theorem endRun_ps (s : State) : (s.endRun).ps = s.ps := rfl
@[simp] theorem endRun_sink (s : State) : (s.endRun).sink = s.sink := rfl
@[simp] theorem endRun_res (s : State) : (s.endRun).res = { s.res with st := .done } := rfl
@[simp] theorem endRun_inb (s : State) : (s.endRun).inb = s.inb := rfl
@[simp] theorem endRun_env (s : State) : (s.endRun).env = s.env := rfl
@[simp] theorem endRun_rd (s : State) : (s.endRun).rd = s.rd := rfl
@[simp] theorem endRun_hostq (s : State) : (s.endRun).hostq = s.hostq := rfl
@[simp] theorem endRun_ret (s : State) : (s.endRun).ret = s.ret := rfl
@[simp] theorem endRun_freeCount (s : State) : (s.endRun).freeCount = s.freeCount := rfl
@[simp] theorem endRun_effectiveOrder (s : State) : effectiveOrder (s.endRun) = effectiveOrder s := rfl

@[simp] theorem readElements_cfg (s : State) (es : List Nat) (n : Nat) : (s.readElements es n).cfg = s.cfg := rfl
@[simp] theorem readElements_enc (s : State) (es : List Nat) (n : Nat) : (s.readElements es n).enc = s.enc := rfl
@[simp] theorem readElements_ps (s : State) (es : List Nat) (n : Nat) : (s.readElements es n).ps = s.ps := rfl
@[simp] theorem readElements_sink (s : State) (es : List Nat) (n : Nat) : (s.readElements es n).sink = s.sink := rfl
@[simp] theorem readElements_res (s : State) (es : List Nat) (n : Nat) : (s.readElements es n).res = s.res := rfl
@[simp] theorem readElements_inb (s : State) (es : List Nat) (n : Nat) : (s.readElements es n).inb = s.inb := rfl
@[simp] theorem readElements_env (s : State) (es : List Nat) (n : Nat) : (s.readElements es n).env = s.env := rfl
@[simp] theorem readElements_rd (s : State) (es : List Nat) (n : Nat) : (s.readElements es n).rd = { s.rd with cur := s.rd.cur ++ es, pos := s.rd.pos + n * widthBytes s.rd.width } := rfl
@[simp] theorem readElements_hostq (s : State) (es : List Nat) (n : Nat) : (s.readElements es n).hostq = s.hostq := rfl
@[simp] theorem readElements_ret (s : State) (es : List Nat) (n : Nat) : (s.readElements es n).ret = s.ret := rfl
@[simp] theorem readElements_freeCount (s : State) (es : List Nat) (n : Nat) : (s.readElements es n).freeCount = s.freeCount := rfl
@[simp] theorem readElements_effectiveOrder (s : State) (es : List Nat) (n : Nat) : effectiveOrder (s.readElements es n) = effectiveOrder s := rfl

@[simp] theorem closePlane_cfg (s : State) : (s.closePlane).cfg = s.cfg := rfl
@[simp] theorem closePlane_enc (s : State) : (s.closePlane).enc = s.enc := rfl
@[simp] theorem closePlane_ps (s : State) : (s.closePlane).ps = s.ps := rfl
@[simp] theorem closePlane_sink (s : State) : (s.closePlane).sink = s.sink := rfl
@[simp] theorem closePlane_res (s : State) : (s.closePlane).res = s.res := rfl
@[simp] theorem closePlane_inb (s : State) : (s.closePlane).inb = s.inb := rfl
@[simp] theorem closePlane_env (s : State) : (s.closePlane).env = s.env := rfl
@[simp] theorem closePlane_rd (s : State) : (s.closePlane).rd = { s.rd with done := s.rd.done ++ [s.rd.cur], cur := [], pos := s.rd.pos + widthBytes s.rd.width } := rfl
@[simp] theorem closePlane_hostq (s : State) : (s.closePlane).hostq = s.hostq := rfl
@[simp] theorem closePlane_ret (s : State) : (s.closePlane).ret = s.ret := rfl
@[simp] theorem closePlane_freeCount (s : State) : (s.closePlane).freeCount = s.freeCount := rfl
@[simp] theorem closePlane_effectiveOrder (s : State) : effectiveOrder (s.closePlane) = effectiveOrder s := rfl

@[simp] theorem raiseError_cfg (k : ErrKind) (c : Option Cause) (s : State) : (raiseError k c s).cfg = s.cfg := rfl
@[simp] theorem raiseError_enc (k : ErrKind) (c : Option Cause) (s : State) : (raiseError k c s).enc = s.enc := rfl
@[simp] theorem raiseError_ps (k : ErrKind) (c : Option Cause) (s : State) : (raiseError k c s).ps = s.ps := rfl
@[simp] theorem raiseError_sink (k : ErrKind) (c : Option Cause) (s : State) : (raiseError k c s).sink = s.sink := rfl
@[simp] theorem raiseError_res (k : ErrKind) (c : Option Cause) (s : State) : (raiseError k c s).res = { s.res with st := .error, err := k, cause := c } := rfl
@[simp] theorem raiseError_inb (k : ErrKind) (c : Option Cause) (s : State) : (raiseError k c s).inb = s.inb := rfl
@[simp] theorem raiseError_env (k : ErrKind) (c : Option Cause) (s : State) : (raiseError k c s).env = s.env := rfl
@[simp] theorem raiseError_rd (k : ErrKind) (c : Option Cause) (s : State) : (raiseError k c s).rd = s.rd := rfl
@[simp] theorem raiseError_hostq (k : ErrKind) (c : Option Cause) (s : State) : (raiseError k c s).hostq = s.hostq := rfl
@[simp] theorem raiseError_ret (k : ErrKind) (c : Option Cause) (s : State) : (raiseError k c s).ret = s.ret := rfl
@[simp] theorem raiseError_freeCount (k : ErrKind) (c : Option Cause) (s : State) : (raiseError k c s).freeCount = s.freeCount := rfl
@[simp] theorem raiseError_effectiveOrder (k : ErrKind) (c : Option Cause) (s : State) : effectiveOrder (raiseError k c s) = effectiveOrder s := rfl

@[simp] theorem blockReset_cfg (s : State) : (blockReset s).cfg = cfgReset := rfl
@[simp] theorem blockReset_enc (s : State) : (blockReset s).enc = { pending := [], rc := 0 } := rfl
@[simp] theorem blockReset_ps (s : State) : (blockReset s).ps = { p := 0, i := 0 } := rfl
@[simp] theorem blockReset_sink (s : State) : (blockReset s).sink = { s.sink with out0len := 0 } := rfl
@[simp] theorem blockReset_res (s : State) : (blockReset s).res = resReset := rfl
@[simp] theorem blockReset_inb (s : State) : (blockReset s).inb = s.inb := rfl
@[simp] theorem blockReset_env (s : State) : (blockReset s).env = s.env := rfl
@[simp] theorem blockReset_rd (s : State) : (blockReset s).rd = s.rd := rfl
@[simp] theorem blockReset_hostq (s : State) : (blockReset s).hostq = s.hostq := rfl
@[simp] theorem blockReset_ret (s : State) : (blockReset s).ret = s.ret := rfl
@[simp] theorem blockReset_freeCount (s : State) : (blockReset s).freeCount = s.freeCount := rfl

@[simp] theorem emitted_cfg (s : State) (w : Width) (es : List Nat) : (s.emitted w es).cfg = s.cfg := rfl
@[simp] theorem emitted_enc (s : State) (w : Width) (es : List Nat) : (s.emitted w es).enc = s.enc := rfl
@[simp] theorem emitted_ps (s : State) (w : Width) (es : List Nat) : (s.emitted w es).ps = s.ps := rfl
@[simp] theorem emitted_sink (s : State) (w : Width) (es : List Nat) : (s.emitted w es).sink = { s.sink with out := s.sink.out ++ serialiseAll w (effectiveOrder s) es } := rfl
@[simp] theorem emitted_res (s : State) (w : Width) (es : List Nat) : (s.emitted w es).res = { s.res with encodedBytes := s.res.encodedBytes + es.length * widthBytes w } := rfl
@[simp] theorem emitted_inb (s : State) (w : Width) (es : List Nat) : (s.emitted w es).inb = s.inb := rfl
@[simp] theorem emitted_env (s : State) (w : Width) (es : List Nat) : (s.emitted w es).env = { s.env with writes := s.env.writes.drop es.length } := rfl
@[simp] theorem emitted_rd (s : State) (w : Width) (es : List Nat) : (s.emitted w es).rd = s.rd := rfl
@[simp] theorem emitted_hostq (s : State) (w : Width) (es : List Nat) : (s.emitted w es).hostq = s.hostq := rfl
@[simp] theorem emitted_ret (s : State) (w : Width) (es : List Nat) : (s.emitted w es).ret = s.ret := rfl
@[simp] theorem emitted_freeCount (s : State) (w : Width) (es : List Nat) : (s.emitted w es).freeCount = s.freeCount := rfl
@[simp] theorem emitted_effectiveOrder (s : State) (w : Width) (es : List Nat) : effectiveOrder (s.emitted w es) = effectiveOrder s := rfl

@[simp] theorem scrambleEnc_cfg (pol : Policy) (s : State) : (scrambleEnc pol s).cfg = s.cfg := rfl
@[simp] theorem scrambleEnc_ps (pol : Policy) (s : State) : (scrambleEnc pol s).ps = s.ps := rfl
@[simp] theorem scrambleEnc_sink (pol : Policy) (s : State) : (scrambleEnc pol s).sink = s.sink := rfl
@[simp] theorem scrambleEnc_res (pol : Policy) (s : State) : (scrambleEnc pol s).res = s.res := rfl
@[simp] theorem scrambleEnc_inb (pol : Policy) (s : State) : (scrambleEnc pol s).inb = s.inb := rfl
@[simp] theorem scrambleEnc_env (pol : Policy) (s : State) : (scrambleEnc pol s).env = s.env := rfl
@[simp] theorem scrambleEnc_rd (pol : Policy) (s : State) : (scrambleEnc pol s).rd = s.rd := rfl
@[simp] theorem scrambleEnc_hostq (pol : Policy) (s : State) : (scrambleEnc pol s).hostq = s.hostq := rfl
@[simp] theorem scrambleEnc_ret (pol : Policy) (s : State) : (scrambleEnc pol s).ret = s.ret := rfl
@[simp] theorem scrambleEnc_freeCount (pol : Policy) (s : State) : (scrambleEnc pol s).freeCount = s.freeCount + 1 := rfl

@[simp] theorem truncateForOpen_cfg (s : State) : s.truncateForOpen.cfg = s.cfg := by
  unfold State.truncateForOpen; split <;> rfl
@[simp] theorem truncateForOpen_enc (s : State) : s.truncateForOpen.enc = s.enc := by
  unfold State.truncateForOpen; split <;> rfl
@[simp] theorem truncateForOpen_ps (s : State) : s.truncateForOpen.ps = s.ps := by
  unfold State.truncateForOpen; split <;> rfl
@[simp] theorem truncateForOpen_res (s : State) : s.truncateForOpen.res = s.res := by
  unfold State.truncateForOpen; split <;> rfl
@[simp] theorem truncateForOpen_inb (s : State) : s.truncateForOpen.inb = s.inb := by
  unfold State.truncateForOpen; split <;> rfl
@[simp] theorem truncateForOpen_env (s : State) : s.truncateForOpen.env = s.env := by
  unfold State.truncateForOpen; split <;> rfl
@[simp] theorem truncateForOpen_rd (s : State) : s.truncateForOpen.rd = s.rd := by
  unfold State.truncateForOpen; split <;> rfl
@[simp] theorem truncateForOpen_hostq (s : State) : s.truncateForOpen.hostq = s.hostq := by
  unfold State.truncateForOpen; split <;> rfl
@[simp] theorem truncateForOpen_ret (s : State) : s.truncateForOpen.ret = s.ret := by
  unfold State.truncateForOpen; split <;> rfl
@[simp] theorem truncateForOpen_freeCount (s : State) : s.truncateForOpen.freeCount = s.freeCount := by
  unfold State.truncateForOpen; split <;> rfl
@[simp] theorem truncateForOpen_sink (s : State) :
    s.truncateForOpen.sink = { s.sink with out := if s.cfg.append then s.sink.out else [] } := by
  unfold State.truncateForOpen; split <;> simp_all

end Sys2Proof.Machine
end

