-- ==== Sys2Proof/Laws/Ops.lean ====
section
/-! SUPPORT. What a write to the sink, and every operation made of such writes, can do: the fields it leaves alone,
and how it ends. -/

namespace Sys2Proof.Machine

@[simp] theorem andThen_cont (s : State) (k : State → Flow) : (Flow.cont s).andThen k = k s := rfl
@[simp] theorem andThen_raised (s : State) (k : State → Flow) : (Flow.raised s).andThen k = .raised s := rfl
@[simp] theorem andThen_abandoned (s : State) (k : State → Flow) : (Flow.abandoned s).andThen k = .abandoned s := rfl
@[simp] theorem andThen_faulted (f : Fault) (k : State → Flow) : (Flow.faulted f).andThen k = .faulted f := rfl
@[simp] theorem andThen_stuck (r : Refusal) (k : State → Flow) : (Flow.stuck r).andThen k = .stuck r := rfl
@[simp] theorem outcome_cont (s : State) : (Flow.cont s).outcome = .next s := rfl
@[simp] theorem outcome_raised (s : State) : (Flow.raised s).outcome = .next s := rfl
@[simp] theorem outcome_abandoned (s : State) : (Flow.abandoned s).outcome = .next s := rfl
@[simp] theorem outcome_faulted (f : Fault) : (Flow.faulted f).outcome = .fault f := rfl
@[simp] theorem outcome_stuck (r : Refusal) : (Flow.stuck r).outcome = .refused r := rfl

/-- What an operation made of sink writes leaves unchanged: everything but the encoder, the iterator, the end of the
sink, the status, the byte count, the answers used up and the free-value counter. -/
structure SinkFrame (s t : State) : Prop where
  cfg : t.cfg = s.cfg
  inb : t.inb = s.inb
  rd : t.rd = s.rd
  hostq : t.hostq = s.hostq
  ret : t.ret = s.ret
  out : s.sink.out <+: t.sink.out
  out0len : t.sink.out0len = s.sink.out0len
  origSize : t.res.origSize = s.res.origSize
  paddedSize : t.res.paddedSize = s.res.paddedSize
  padOccurred : t.res.padOccurred = s.res.padOccurred
  nativeOrder : t.env.nativeOrder = s.env.nativeOrder
  input : t.env.input = s.env.input
  loaded : t.env.loaded = s.env.loaded
  loads : t.env.loads = s.env.loads
  opens : t.env.opens = s.env.opens
  writes : t.env.writes <:+ s.env.writes

/-- Status, error kind and cause are as they were. -/
structure SameStatus (s t : State) : Prop where
  st : t.res.st = s.res.st
  err : t.res.err = s.res.err
  cause : t.res.cause = s.res.cause

/-- An append has been refused: IOFailure(write) is recorded (R139, R141). -/
structure WriteFailed (t : State) : Prop where
  st : t.res.st = .error
  err : t.res.err = .ioFailure
  cause : t.res.cause = some .write

theorem SinkFrame.refl (s : State) : SinkFrame s s := by
  constructor <;> simp

theorem SinkFrame.trans {s t u : State} (h1 : SinkFrame s t) (h2 : SinkFrame t u) : SinkFrame s u where
  cfg := h2.cfg.trans h1.cfg
  inb := h2.inb.trans h1.inb
  rd := h2.rd.trans h1.rd
  hostq := h2.hostq.trans h1.hostq
  ret := h2.ret.trans h1.ret
  out := h1.out.trans h2.out
  out0len := h2.out0len.trans h1.out0len
  origSize := h2.origSize.trans h1.origSize
  paddedSize := h2.paddedSize.trans h1.paddedSize
  padOccurred := h2.padOccurred.trans h1.padOccurred
  nativeOrder := h2.nativeOrder.trans h1.nativeOrder
  input := h2.input.trans h1.input
  loaded := h2.loaded.trans h1.loaded
  loads := h2.loads.trans h1.loads
  opens := h2.opens.trans h1.opens
  writes := h2.writes.trans h1.writes

theorem SameStatus.refl (s : State) : SameStatus s s :=
  ⟨rfl, rfl, rfl⟩

theorem SameStatus.trans {s t u : State} (h1 : SameStatus s t) (h2 : SameStatus t u) : SameStatus s u :=
  ⟨h2.st.trans h1.st, h2.err.trans h1.err, h2.cause.trans h1.cause⟩

/-- How an operation made of sink writes ends when started in `s`: at its end, in a state that meets `P`; by a refused
append, in a state that meets `R`; by a block reset of such a state, one being listed. (That it does not stop is `Flow.Runs`.) -/
def Flow.SinkSpec (x : Flow) (s : State) (R P : State → Prop) : Prop :=
  match x with
  | .cont t => SinkFrame s t ∧ SameStatus s t ∧ P t
  | .raised t => SinkFrame s t ∧ WriteFailed t ∧ R t
  | .abandoned t => (∃ k, WriteAnswer.reset k ∈ s.env.writes) ∧ ∃ u, SinkFrame s u ∧ R u ∧ t = blockReset u
  | .faulted _ => True
  | .stuck _ => True

theorem Flow.SinkSpec.mono {x : Flow} {s : State} {R R' P Q : State → Prop} (h : x.SinkSpec s R P)
    (hR : ∀ t, R t → R' t) (hPQ : ∀ t, P t → Q t) : x.SinkSpec s R' Q := by
  cases x with
  | cont t => exact ⟨h.1, h.2.1, hPQ t h.2.2⟩
  | raised t => exact ⟨h.1, h.2.1, hR t h.2.2⟩
  | abandoned t =>
    obtain ⟨hl, u, hu, hr, rfl⟩ := h
    exact ⟨hl, u, hu, hR u hr, rfl⟩
  | faulted f => trivial
  | stuck r => trivial

/-- A flow started after a change that `SinkFrame` and `SameStatus` do not see. -/
theorem Flow.SinkSpec.from {x : Flow} {s s' : State} {R P : State → Prop} (h : x.SinkSpec s' R P)
    (hf : SinkFrame s s') (hs : SameStatus s s') : x.SinkSpec s R P := by
  cases x with
  | cont t => exact ⟨hf.trans h.1, hs.trans h.2.1, h.2.2⟩
  | raised t => exact ⟨hf.trans h.1, h.2⟩
  | abandoned t =>
    obtain ⟨⟨k, hk⟩, u, hu, hr, rfl⟩ := h
    exact ⟨⟨k, hf.writes.subset hk⟩, u, hf.trans hu, hr, rfl⟩
  | faulted f => trivial
  | stuck r => trivial

/-- An operation followed by another. -/
theorem Flow.SinkSpec.andThen {x : Flow} {k : State → Flow} {s : State} {R P Q : State → Prop}
    (hx : x.SinkSpec s R P) (hk : ∀ t, P t → (k t).SinkSpec t R Q) : (x.andThen k).SinkSpec s R Q := by
  cases x with
  | cont t => exact (hk t hx.2.2).from hx.1 hx.2.1
  | raised t => exact hx
  | abandoned t => exact hx
  | faulted f => trivial
  | stuck r => trivial

/-- An operation that is not stopped: at its end, it has reached a state that meets `P`. -/
def Flow.Runs (x : Flow) (P : State → Prop) : Prop :=
  match x with
  | .cont t => P t
  | .raised _ => True
  | .abandoned _ => True
  | .faulted _ => False
  | .stuck _ => False

theorem Flow.Runs.mono {x : Flow} {P Q : State → Prop} (h : x.Runs P) (hPQ : ∀ t, P t → Q t) : x.Runs Q := by
  cases x with
  | cont t => exact hPQ t h
  | raised t => trivial
  | abandoned t => trivial
  | faulted f => exact h
  | stuck r => exact h

theorem Flow.Runs.andThen {x : Flow} {k : State → Flow} {P Q : State → Prop} (hx : x.Runs P)
    (hk : ∀ t, P t → (k t).Runs Q) : (x.andThen k).Runs Q := by
  cases x with
  | cont t => exact hk t hx
  | raised t => trivial
  | abandoned t => trivial
  | faulted f => exact hx
  | stuck r => exact hx

/-- An operation that is not stopped answers a next state. -/
theorem Flow.Runs.outcome {x : Flow} {P : State → Prop} (h : x.Runs P) : ∃ t, x.outcome = .next t := by
  cases x with
  | cont t => exact ⟨t, rfl⟩
  | raised t => exact ⟨t, rfl⟩
  | abandoned t => exact ⟨t, rfl⟩
  | faulted f => exact h.elim
  | stuck r => exact h.elim

/-- Encoder, iterator and free-value counter are as they were. -/
structure SameRegs (s t : State) : Prop where
  enc : t.enc = s.enc
  ps : t.ps = s.ps
  freeCount : t.freeCount = s.freeCount

theorem SameRegs.trans {s t u : State} (h1 : SameRegs s t) (h2 : SameRegs t u) : SameRegs s u :=
  ⟨h2.enc.trans h1.enc, h2.ps.trans h1.ps, h2.freeCount.trans h1.freeCount⟩

/-- One append (R41, R49): it also leaves the encoder, the iterator and the free-value counter alone. -/
theorem sinkAppend_spec (bs : List Byte) (s : State) :
    (sinkAppend bs s).SinkSpec s (SameRegs s) (SameRegs s) := by
  unfold sinkAppend nextWrite
  cases hw : s.env.writes with
  | nil => refine ⟨?_, ?_, ?_⟩ <;> (constructor <;> simp [hw])
  | cons a as =>
    cases a with
    | accepted => refine ⟨?_, ?_, ?_⟩ <;> (constructor <;> simp [hw])
    | refused kept => refine ⟨?_, ?_, ?_⟩ <;> (constructor <;> simp [hw])
    | reset kept =>
      refine ⟨⟨kept, by rw [hw]; exact List.mem_cons_self⟩, _, ?_, ?_, rfl⟩ <;> (constructor <;> simp [hw])

theorem sinkAppend_runs (bs : List Byte) (s : State) : (sinkAppend bs s).Runs fun _ => True := by
  unfold sinkAppend nextWrite
  cases s.env.writes with
  | nil => trivial
  | cons a as => cases a <;> trivial

theorem put_spec (w : Width) (e : Nat) (s : State) : (put w e s).SinkSpec s (SameRegs s) (SameRegs s) := by
  unfold put withElement
  split
  · exact sinkAppend_spec _ s
  · trivial

/-- Only the range of its operand can stop `SINK.PUT`. -/
theorem put_runs (w : Width) (e : Nat) (s : State) (he : e < elemLimit w) : (put w e s).Runs (SameRegs s) := by
  have h := put_spec w e s
  unfold put withElement at *
  rw [if_pos he] at *
  have hr := sinkAppend_runs (serialise w (effectiveOrder s) e) s
  cases hx : sinkAppend (serialise w (effectiveOrder s) e) s with
  | cont t => rw [hx] at h; exact h.2.2
  | raised t => trivial
  | abandoned t => trivial
  | faulted f => rw [hx] at hr; exact hr
  | stuck r => rw [hx] at hr; exact hr

theorem putAll_spec (w : Width) (es : List Nat) (s : State) :
    (putAll w es s).SinkSpec s (SameRegs s) (SameRegs s) := by
  induction es generalizing s with
  | nil => exact ⟨SinkFrame.refl s, SameStatus.refl s, rfl, rfl, rfl⟩
  | cons e es ih =>
    refine (put_spec w e s).andThen fun t ht => (ih t).mono ?_ ?_
    · exact fun u hu => ht.trans hu
    · exact fun u hu => ht.trans hu

theorem putAll_runs (w : Width) (es : List Nat) (s : State) (he : ElementsFit w es) :
    (putAll w es s).Runs (SameRegs s) := by
  induction es generalizing s with
  | nil => exact ⟨rfl, rfl, rfl⟩
  | cons e es ih =>
    refine (put_runs w e s (he e (by simp))).andThen fun t ht => ?_
    exact (ih t fun x hx => he x (by simp [hx])).mono fun u hu => ht.trans hu

/-! ### Accepted writes -/

@[simp] theorem emitted_nil (s : State) (w : Width) : s.emitted w [] = s := by
  simp [State.emitted]

theorem emitted_emitted (s : State) (w : Width) (xs ys : List Nat) :
    (s.emitted w xs).emitted w ys = s.emitted w (xs ++ ys) := by
  simp only [State.emitted, effectiveOrder, serialiseAll_append, List.append_assoc, List.length_append, Nat.add_mul,
    Nat.add_assoc, List.drop_drop]
  rfl

theorem AcceptsWrites.mono {m n : Nat} {s : State} (h : AcceptsWrites n s) (hmn : m ≤ n) : AcceptsWrites m s :=
  fun a ha => h a ((List.take_subset_take_left s.env.writes hmn) ha)

theorem AcceptsWrites.after {m n : Nat} {s t : State} (h : AcceptsWrites (m + n) s)
    (ht : t.env.writes = s.env.writes.drop m) : AcceptsWrites n t := by
  intro a ha
  rw [ht, List.take_drop] at ha
  exact h a (List.mem_of_mem_drop ha)

theorem put_accepted (w : Width) (e : Nat) (s : State) (he : e < elemLimit w) (ha : AcceptsWrites 1 s) :
    put w e s = .cont (s.emitted w [e]) := by
  unfold put withElement sinkAppend nextWrite
  rw [if_pos he]
  cases hw : s.env.writes with
  | nil =>
    have henv : s.env = { s.env with writes := [] } := by rw [← hw]
    simpa [State.emitted, State.appendOut, State.setEncoded, hw] using henv
  | cons a as =>
    have : a = .accepted := ha a (by simp [hw])
    subst this
    simp [State.emitted, State.appendOut, State.setEncoded, hw]

theorem putAll_accepted (w : Width) (es : List Nat) (s : State) (he : ElementsFit w es)
    (ha : AcceptsWrites es.length s) : putAll w es s = .cont (s.emitted w es) := by
  induction es generalizing s with
  | nil => simp [putAll]
  | cons e es ih =>
    rw [List.length_cons, Nat.add_comm] at ha
    rw [putAll, put_accepted w e s (he e (by simp)) (ha.mono (by omega)), andThen_cont,
      ih _ (fun x hx => he x (by simp [hx])) (ha.after (by simp)), emitted_emitted]
    rfl

end Sys2Proof.Machine
end

