-- ==== Sys2Proof/Laws/Tokens.lean ====
section
/-! SUPPORT. Control words and tokens: the run flag and the count field of a word, and what the decoder makes of the
words of a run, a literal and a terminator. -/

namespace Sys2Proof.Machine

theorem elemLimit_eq_runFlag (w : Width) : elemLimit w = 2 * runFlagOf w := by
  cases w <;> rfl

theorem capOf_succ (w : Width) : capOf w + 1 = runFlagOf w := by
  cases w <;> rfl

theorem two_lt_capOf (w : Width) : 2 < capOf w := by
  cases w <;> decide

theorem widthOf?_widthBytes (w : Width) : widthOf? (widthBytes w) = some w := by
  cases w <;> rfl

theorem widthOf?_eq_some (n : Nat) (w : Width) : widthOf? n = some w ↔ n = widthBytes w := by
  constructor
  · intro h
    unfold widthOf? at h
    split at h <;> simp_all <;> (subst h; rfl)
  · rintro rfl
    exact widthOf?_widthBytes w

theorem runFlag_or (w : Width) (k : Nat) (h : k < runFlagOf w) : runFlagOf w ||| k = runFlagOf w + k := by
  have := Nat.two_pow_add_eq_or_of_lt h 1
  simp only [Nat.mul_one] at this
  exact this.symm

theorem runFlagSet_run (w : Width) (k : Nat) : runFlagSet w (runFlagOf w ||| k) = true := by
  have h : (runFlagOf w ||| k) &&& runFlagOf w = runFlagOf w := by
    apply Nat.eq_of_testBit_eq
    intro i
    simp
    tauto
  rw [runFlagSet, h]
  cases w <;> decide

theorem runFlagSet_small (w : Width) (n : Nat) (h : n < runFlagOf w) : runFlagSet w n = false := by
  have : n &&& runFlagOf w = 0 := by
    rw [runFlagOf, Nat.and_two_pow, Nat.testBit_lt_two_pow h]
    simp
  simp [runFlagSet, this]

theorem countField_run (w : Width) (k : Nat) (h : k < runFlagOf w) : countField w (runFlagOf w ||| k) = k := by
  rw [runFlag_or w k h, countField, runFlagOf, Nat.and_two_pow_sub_one_eq_mod]
  rw [runFlagOf] at h
  rw [Nat.add_mod_left, Nat.mod_eq_of_lt h]

theorem runWord_lt (w : Width) (k : Nat) (h : k < runFlagOf w) : runFlagOf w ||| k < elemLimit w := by
  rw [runFlag_or w k h, elemLimit_eq_runFlag]
  omega

theorem runFlagOf_ne_zero (w : Width) : runFlagOf w ≠ 0 := by
  cases w <;> decide

theorem decode_run_words (w : Width) (o : ByteOrder) (k v : Nat) (r : List Byte) (hk : k < runFlagOf w)
    (hv : v < elemLimit w) :
    decode w o (serialiseAll w o [runFlagOf w ||| k, v] ++ r) = .ok (runToken w k v, r) := by
  simp [decode, takeWord_of_serialise, runWord_lt w k hk, runFlagOf_ne_zero, runFlagSet_run, countField_run w k hk, hv]

theorem decode_literal_words (w : Width) (o : ByteOrder) (vs : List Nat) (r : List Byte) (h1 : 1 ≤ vs.length)
    (h2 : vs.length ≤ capOf w) (hv : ElementsFit w vs) :
    decode w o (serialiseAll w o (vs.length :: vs) ++ r) = .ok (litToken w vs, r) := by
  have hlt : vs.length < runFlagOf w := by
    have := capOf_succ w
    omega
  have hle : vs.length < elemLimit w := by
    rw [elemLimit_eq_runFlag]
    omega
  have hne : vs ≠ [] := by
    rintro rfl
    simp at h1
  simp [decode, takeWord_of_serialise w o _ _ hle, runFlagSet_small w _ hlt, takeWords_of_serialiseAll w o vs r hv, hne]

theorem decode_terminator_word (w : Width) (o : ByteOrder) (r : List Byte) :
    decode w o (serialiseAll w o [0] ++ r) = .ok (termToken w, r) := by
  have h : 0 < elemLimit w := by
    rw [elemLimit_eq]
    exact Nat.pow_pos (by decide)
  simp [decode, takeWord_of_serialise w o 0 _ h]

/-- A run token and what it is on the wire. -/
theorem tokenView_runToken (w : Width) (k v : Nat) (hk : k < runFlagOf w) (hv : v < elemLimit w) :
    tokenView (runToken w k v) = .run w k v := by
  cases w <;> simp_all [runToken, tokenView, runFlagOf, elemLimit, bitsOf, widthBytes]

theorem tokenView_litToken (w : Width) (vs : List Nat) (hv : ElementsFit w vs) :
    tokenView (litToken w vs) = .literal w vs := by
  cases w <;>
  · simp only [litToken, tokenView, List.map_map, TokenView.literal.injEq, true_and]
    conv_rhs => rw [← List.map_id vs]
    apply List.map_congr_left
    intro a ha
    have := hv a ha
    simp [elemLimit, widthBytes] at this
    simp
    omega

theorem tokenView_termToken (w : Width) : tokenView (termToken w) = .terminator w := by
  cases w <;> rfl

/-- Every token is a run, a literal or the terminator of its width. -/
theorem token_cases (i : Instr) (w : Width) (h : tokenWidth? i = some w) :
    (∃ k v, k < runFlagOf w ∧ v < elemLimit w ∧ i = runToken w k v ∧ encodeWords i = [runFlagOf w ||| k, v])
    ∨ (∃ vs, ElementsFit w vs ∧ i = litToken w vs ∧ encodeWords i = vs.length :: vs)
    ∨ i = termToken w := by
  cases i <;> simp [tokenWidth?, tokenView] at h <;> subst h
  case runW1 k v => exact .inl ⟨k.toNat, v.toNat, k.isLt, v.isLt, by simp [runToken], rfl⟩
  case runW2 k v => exact .inl ⟨k.toNat, v.toNat, k.isLt, v.isLt, by simp [runToken], rfl⟩
  case runW4 k v => exact .inl ⟨k.toNat, v.toNat, k.isLt, v.isLt, by simp [runToken], rfl⟩
  case litW1 vs =>
    refine .inr (.inl ⟨vs.map BitVec.toNat, ?_, by simp [litToken, Function.comp_def], by simp [encodeWords, tokenView]⟩)
    intro e he; obtain ⟨x, _, rfl⟩ := List.mem_map.mp he; exact x.isLt
  case litW2 vs =>
    refine .inr (.inl ⟨vs.map BitVec.toNat, ?_, by simp [litToken, Function.comp_def], by simp [encodeWords, tokenView]⟩)
    intro e he; obtain ⟨x, _, rfl⟩ := List.mem_map.mp he; exact x.isLt
  case litW4 vs =>
    refine .inr (.inl ⟨vs.map BitVec.toNat, ?_, by simp [litToken, Function.comp_def], by simp [encodeWords, tokenView]⟩)
    intro e he; obtain ⟨x, _, rfl⟩ := List.mem_map.mp he; exact x.isLt
  all_goals exact .inr (.inr rfl)

theorem wellFormed_litToken_iff (w : Width) (vs : List Nat) : (litToken w vs).wellFormed = true ↔ 1 ≤ vs.length ∧ vs.length ≤ capOf w := by
  cases w <;> simp [litToken, Instr.wellFormed, capOf, countLimit, bitsOf, widthBytes]

/-- A token cut short is not decoded: in its control word, in the payload of a run, in the payload of a literal (R70). -/
theorem decode_cut_control (w : Width) (o : ByteOrder) (bs : List Byte) (h : bs.length < widthBytes w) :
    decode w o bs = .error .truncatedControl := by
  rw [decode, takeWord_short w o bs h]

theorem decode_cut_run (w : Width) (o : ByteOrder) (bs : List Byte) (h : widthBytes w ≤ bs.length)
    (hf : runFlagSet w (assemble o (bs.take (widthBytes w))) = true) (hlen : bs.length < 2 * widthBytes w) :
    decode w o bs = .error .truncatedPayload := by
  have hne : assemble o (bs.take (widthBytes w)) ≠ 0 := by
    intro h0
    rw [h0] at hf
    simp [runFlagSet] at hf
  rw [decode, takeWord_enough w o bs h]
  simp only [if_neg hne, if_pos hf]
  rw [takeWord_short w o _ (by rw [List.length_drop]; omega)]

theorem decode_cut_literal (w : Width) (o : ByteOrder) (bs : List Byte) (h : widthBytes w ≤ bs.length)
    (hf : runFlagSet w (assemble o (bs.take (widthBytes w))) = false) (hne : assemble o (bs.take (widthBytes w)) ≠ 0)
    (hlen : bs.length < (1 + assemble o (bs.take (widthBytes w))) * widthBytes w) :
    decode w o bs = .error .truncatedPayload := by
  rw [Nat.add_mul, Nat.one_mul] at hlen
  rw [decode, takeWord_enough w o bs h]
  simp only [if_neg hne, hf, Bool.false_eq_true, if_false]
  rw [takeWords_short w o _ _ (by rw [List.length_drop]; omega)]

end Sys2Proof.Machine
end

