-- ==== Sys2Proof/Laws/Encoder.lean ====
section
/-! SUPPORT. The encoder's operations once and for all: the words they put and the registers they leave when every
write is accepted, and what they can do whatever the environment answers. -/

namespace Sys2Proof.Machine

/-- The words `ENC.FLUSH` puts (R92, R93, R94). -/
def flushWords (pol : Policy) (e : Enc) : List Nat :=
  if 0 < e.rc then [runFlagOf pol.width ||| (e.rc + 1), e.pending.headD 0]
  else if 0 < e.pending.length then e.pending.length :: e.pending
  else []

/-- The empty encoder. -/
def encEmpty : Enc :=
  { pending := [], rc := 0 }

/-- The words `ENC.ADD(v)` puts and the registers it leaves (the table R96). -/
def addWords (pol : Policy) (v : Nat) (e : Enc) : List Nat × Enc :=
  match e.pending.getLast? with
  | none => ([], { pending := [v], rc := e.rc })
  | some t =>
    if v = t then
      let first := if e.rc = 0 ∧ 2 ≤ e.pending.length then
        flushWords pol { pending := e.pending.dropLast, rc := 0 } else []
      if e.rc + 1 = pol.maxRun - 1 then
        (first ++ flushWords pol { pending := [t], rc := e.rc + 1 }, encEmpty)
      else (first, { pending := [t], rc := e.rc + 1 })
    else if 0 < e.rc then (flushWords pol e, { pending := [v], rc := 0 })
    else if e.pending.length + 1 = pol.maxLit then
      (flushWords pol { pending := e.pending ++ [v], rc := 0 }, encEmpty)
    else ([], { pending := e.pending ++ [v], rc := 0 })

/-- The registers from which a flush has a meaning: inside `ENC.ADD` the counters may stand at their thresholds. -/
abbrev FlushOk (pol : Policy) (e : Enc) : Prop :=
  (e.rc = 0 ∨ e.pending.length = 1) ∧ e.pending.length ≤ pol.maxLit ∧ e.rc + 1 ≤ pol.maxRun

theorem EncInv.flushOk {pol : Policy} {e : Enc} (h : EncInv pol e) : FlushOk pol e :=
  ⟨h.1.1, by have := h.2.1; omega, by have := h.2.2; omega⟩

theorem encInv_empty (pol : Policy) (hp : PolicyOk pol) : EncInv pol encEmpty := by
  refine ⟨⟨Or.inl rfl, by simp [encEmpty]⟩, ?_, ?_⟩ <;> simp [encEmpty] <;> omega

theorem hardwarePolicy_ok (w : Width) : PolicyOk (hardwarePolicy w) := by
  cases w <;> decide

theorem flushWords_fit (pol : Policy) (e : Enc) (hp : PolicyOk pol) (hf : FlushOk pol e)
    (hfit : ElementsFit pol.width e.pending) : ElementsFit pol.width (flushWords pol e) := by
  have hc := capOf_succ pol.width
  obtain ⟨h1, h2, h3⟩ := hf
  unfold flushWords
  split
  · rename_i hrc
    have hlen : e.pending.length = 1 := h1.resolve_left (by omega)
    obtain ⟨a, ha⟩ := List.length_eq_one_iff.mp hlen
    intro x hx
    simp only [ha, List.headD_cons, List.mem_cons, List.not_mem_nil, or_false] at hx
    rcases hx with rfl | rfl
    · exact runWord_lt pol.width _ (by omega)
    · exact hfit _ (by simp [ha])
  · split
    · intro x hx
      rcases List.mem_cons.mp hx with rfl | hx
      · have := elemLimit_eq_runFlag pol.width
        omega
      · exact hfit x hx
    · intro x hx
      simp at hx

/-- `ENC.FLUSH` when its writes are accepted. -/
theorem flush_accepted (pol : Policy) (s : State) (hp : PolicyOk pol) (hf : FlushOk pol s.enc)
    (hfit : ElementsFit pol.width s.enc.pending) (ha : AcceptsWrites (flushWords pol s.enc).length s) :
    flush pol s = .cont { s.emitted pol.width (flushWords pol s.enc) with enc := encEmpty } := by
  have hw := flushWords_fit pol s.enc hp hf hfit
  obtain ⟨h1, h2, h3⟩ := hf
  unfold flush
  by_cases hrc : 0 < s.enc.rc
  · have hlen : s.enc.pending.length = 1 := h1.resolve_left (by omega)
    obtain ⟨a, hpa⟩ := List.length_eq_one_iff.mp hlen
    have hws : flushWords pol s.enc = [runFlagOf pol.width ||| (s.enc.rc + 1), a] := by
      simp [flushWords, hrc, hpa]
    have hfr : fmtRun pol s.enc.rc = some (runFlagOf pol.width ||| (s.enc.rc + 1)) := by
      rw [fmtRun, if_pos ⟨by omega, by omega⟩]
    rw [hws] at hw ha ⊢
    rw [if_pos hrc, hpa]
    simp only [hfr]
    rw [putAll_accepted _ _ _ hw ha]
    rfl
  · rw [if_neg hrc]
    have hz : s.enc.rc = 0 := by omega
    by_cases hlen : 0 < s.enc.pending.length
    · have hws : flushWords pol s.enc = s.enc.pending.length :: s.enc.pending := by
        simp [flushWords, hrc, hlen]
      have hfl : fmtLit pol s.enc.pending.length = some s.enc.pending.length := by
        rw [fmtLit, if_pos ⟨by omega, h2⟩]
      rw [if_pos hlen]
      rw [hws] at hw ha ⊢
      simp only [hfl]
      rw [putAll_accepted _ _ _ hw ha]
      simp [emission, State.setPending, encEmpty, hz]
    · have hnil : s.enc.pending = [] := by simpa using hlen
      have hws : flushWords pol s.enc = [] := by simp [flushWords, hrc, hlen]
      have he : s.enc = encEmpty := by
        cases h : s.enc
        simp_all [encEmpty]
      rw [if_neg hlen, hws, emitted_nil, ← he]

theorem getLast?_split {xs : List Nat} {t : Nat} (h : xs.getLast? = some t) : xs = xs.dropLast ++ [t] := by
  obtain ⟨ys, rfl⟩ := List.getLast?_eq_some_iff.mp h
  simp

/-- `ENC.ADD(v)` when its writes are accepted. -/
theorem addElement_accepted (pol : Policy) (v : Nat) (s : State) (hp : PolicyOk pol) (hi : EncInv pol s.enc)
    (hfit : ElementsFit pol.width s.enc.pending) (hv : v < elemLimit pol.width)
    (ha : AcceptsWrites (addWords pol v s.enc).1.length s) :
    addElement pol v s
      = .cont { s.emitted pol.width (addWords pol v s.enc).1 with enc := (addWords pol v s.enc).2 } := by
  obtain ⟨⟨h1, h4⟩, h2, h3⟩ := hi
  unfold addElement
  cases hl : s.enc.pending.getLast? with
  | none => simp [addWords, hl, State.setPending]
  | some t =>
    have hsplit := getLast?_split hl
    have hpos : 1 ≤ s.enc.pending.length := by rw [hsplit]; simp
    by_cases hvt : v = t
    · subst hvt
      simp only [if_pos]
      by_cases hfold : s.enc.rc = 0 ∧ 2 ≤ s.enc.pending.length
      · have hz := hfold.1
        simp only [if_pos hfold]
        have hfd : FlushOk pol { pending := s.enc.pending.dropLast, rc := 0 } :=
          ⟨Or.inl rfl, by simp; omega, by simp; omega⟩
        have hfitd : ElementsFit pol.width s.enc.pending.dropLast := fun x hx => hfit x (List.dropLast_subset _ hx)
        have henc : (s.setPending s.enc.pending.dropLast).enc = { pending := s.enc.pending.dropLast, rc := 0 } := by
          simp [hfold.1]
        by_cases hthr : s.enc.rc + 1 = pol.maxRun - 1
        · have hw : (addWords pol v s.enc).1 = flushWords pol { pending := s.enc.pending.dropLast, rc := 0 }
              ++ flushWords pol { pending := [v], rc := s.enc.rc + 1 } := by
            rw [hz] at hthr
            simp only [Nat.zero_add] at hthr
            simp [addWords, hl, hfold, ← hthr]
          have he : (addWords pol v s.enc).2 = encEmpty := by simp [addWords, hl, hthr]
          rw [hw, he]
          rw [hw, List.length_append] at ha
          have hflush := flush_accepted pol (s.setPending s.enc.pending.dropLast) hp (henc ▸ hfd)
            (by simpa using hfitd) (by rw [henc]; exact ha.mono (by omega))
          rw [hflush, henc]
          simp only [andThen_cont]
          rw [if_pos (by simp [encEmpty]; omega)]
          rw [flush_accepted pol _ hp ⟨Or.inr rfl, by simp [State.setRc]; omega, by simp [State.setRc, encEmpty]; omega⟩
            (by intro x hx; simp [State.setRc] at hx; omega)
            (AcceptsWrites.after (m := (flushWords pol { pending := s.enc.pending.dropLast, rc := 0 }).length)
              (by simpa [State.setRc, encEmpty, hfold.1] using ha) (by simp))]
          rw [← emitted_emitted]
          simp [State.setRc, State.emitted, encEmpty, hfold.1, effectiveOrder, State.setPending]
          rfl
        · have hw : (addWords pol v s.enc).1 = flushWords pol { pending := s.enc.pending.dropLast, rc := 0 } := by
            rw [hz] at hthr
            simp only [Nat.zero_add] at hthr
            simp [addWords, hl, hfold, hthr]
          have he : (addWords pol v s.enc).2 = { pending := [v], rc := s.enc.rc + 1 } := by
            simp [addWords, hl, hthr]
          rw [hw, he]
          rw [hw] at ha
          have hflush := flush_accepted pol (s.setPending s.enc.pending.dropLast) hp (henc ▸ hfd)
            (by simpa using hfitd) (by rw [henc]; exact ha)
          rw [hflush, henc]
          simp only [andThen_cont]
          rw [if_neg (by simp [encEmpty]; omega)]
          simp [State.setRc, State.setPending, State.emitted, encEmpty, hfold.1, effectiveOrder]
      · simp only [if_neg hfold]
        have hone : s.enc.pending = [v] := by
          have hlen : s.enc.pending.length = 1 := by
            rcases h1 with h | h
            · have : ¬ 2 ≤ s.enc.pending.length := fun hh => hfold ⟨h, hh⟩
              omega
            · exact h
          obtain ⟨a, hpa⟩ := List.length_eq_one_iff.mp hlen
          rw [hpa] at hl ⊢
          simpa using hl
        simp only [andThen_cont]
        have hset : (s.setRc (s.enc.rc + 1)).enc = { pending := [v], rc := s.enc.rc + 1 } := by simp [hone]
        by_cases hthr : s.enc.rc + 1 = pol.maxRun - 1
        · have hw : addWords pol v s.enc = (flushWords pol { pending := [v], rc := s.enc.rc + 1 }, encEmpty) := by
            simp [addWords, hthr, hone]
          rw [hw] at ha ⊢
          rw [if_pos hthr, flush_accepted pol _ hp (by rw [hset]; exact ⟨Or.inr rfl, by simp; omega, by simp; omega⟩)
            (by rw [hset]; intro x hx; simp at hx; omega) (by rw [hset]; exact ha), hset]
          rfl
        · have hw : addWords pol v s.enc = ([], { pending := [v], rc := s.enc.rc + 1 }) := by
            simp [addWords, hthr, hone]
          rw [hw, if_neg hthr, emitted_nil, ← hset]
          rfl
    · simp only [if_neg hvt]
      by_cases hrc : 0 < s.enc.rc
      · have hw : addWords pol v s.enc = (flushWords pol s.enc, { pending := [v], rc := 0 }) := by
          simp [addWords, hl, hvt, hrc]
        rw [hw] at ha ⊢
        rw [if_pos hrc, flush_accepted pol s hp ⟨h1, by omega, by omega⟩ hfit ha]
        simp [State.setPending, encEmpty]
      · have hz : s.enc.rc = 0 := by omega
        rw [if_neg hrc]
        have hset : (s.setPending (s.enc.pending ++ [v])).enc = { pending := s.enc.pending ++ [v], rc := 0 } := by
          simp [hz]
        by_cases hlit : s.enc.pending.length + 1 = pol.maxLit
        · have hw : addWords pol v s.enc = (flushWords pol { pending := s.enc.pending ++ [v], rc := 0 }, encEmpty) := by
            simp [addWords, hl, hvt, hz, hlit]
          rw [hw] at ha ⊢
          rw [if_pos hlit, flush_accepted pol _ hp
            (by rw [hset]; exact ⟨Or.inl rfl, by simp; omega, by simp; omega⟩)
            (by
              rw [hset]
              intro x hx
              rcases List.mem_append.mp hx with hx | hx
              · exact hfit x hx
              · simp at hx; omega)
            (by rw [hset]; exact ha), hset]
          rfl
        · have hw : addWords pol v s.enc = ([], { pending := s.enc.pending ++ [v], rc := 0 }) := by
            simp [addWords, hl, hvt, hz, hlit]
          rw [hw, if_neg hlit, emitted_nil, ← hset]
          rfl

/-! ### Whatever the environment answers -/

/-- `ENC.FLUSH` leaves the encoder EMPTY (R91) and the iterator alone. -/
theorem flush_spec (pol : Policy) (s : State) :
    (flush pol s).SinkSpec s (fun t => t.ps = s.ps)
      fun t => t.enc = encEmpty ∧ t.ps = s.ps ∧ t.freeCount = s.freeCount := by
  have key : ∀ (es : List Nat) (k : State → State),
      (∀ t, SinkFrame t (k t) ∧ SameStatus t (k t) ∧ (k t).ps = t.ps ∧ (k t).freeCount = t.freeCount) →
      (∀ t, t.enc = s.enc → (k t).enc = encEmpty) →
      ((emission pol (putAll pol.width es s)).andThen fun t => .cont (k t)).SinkSpec s (fun t => t.ps = s.ps)
        fun t => t.enc = encEmpty ∧ t.ps = s.ps ∧ t.freeCount = s.freeCount := by
    intro es k hk hke
    have h := putAll_spec pol.width es s
    cases hx : putAll pol.width es s with
    | cont t =>
      rw [hx] at h
      obtain ⟨h1, h2, h3⟩ := h
      obtain ⟨k1, k2, k3, k4⟩ := hk t
      exact ⟨h1.trans k1, h2.trans k2, hke t h3.enc, k3.trans h3.ps, k4.trans h3.freeCount⟩
    | raised t =>
      rw [hx] at h
      refine ⟨h.1.trans ?_, ⟨h.2.1.st, h.2.1.err, h.2.1.cause⟩, h.2.2.ps⟩
      constructor <;> simp
    | abandoned t =>
      rw [hx] at h
      obtain ⟨hl, u, hu, hr, rfl⟩ := h
      exact ⟨hl, u, hu, hr.ps, rfl⟩
    | faulted f => trivial
    | stuck r => trivial
  unfold flush
  split
  · split
    · split
      · refine key _ State.clearEnc (fun t => ⟨?_, ?_, rfl, rfl⟩) (fun t _ => rfl) <;> (constructor <;> simp)
      · trivial
    · trivial
  · rename_i hrc
    split
    · split
      · refine key _ (fun t => t.setPending []) (fun t => ⟨?_, ?_, rfl, rfl⟩) ?_
        · constructor <;> simp
        · constructor <;> simp
        · intro t ht
          simp only [setPending_enc, ht, encEmpty, Enc.mk.injEq, true_and]
          omega
      · trivial
    · rename_i hlen
      refine ⟨SinkFrame.refl s, SameStatus.refl s, ?_, rfl, rfl⟩
      cases h : s.enc
      simp_all [encEmpty]

/-- Only registers outside `FlushOk` can stop `ENC.FLUSH`. -/
theorem flush_runs (pol : Policy) (s : State) (hp : PolicyOk pol) (hf : FlushOk pol s.enc)
    (hfit : ElementsFit pol.width s.enc.pending) : (flush pol s).Runs fun t => t.enc = encEmpty := by
  have hw := flushWords_fit pol s.enc hp hf hfit
  have hs := flush_spec pol s
  obtain ⟨h1, h2, h3⟩ := hf
  have key : ∀ (es : List Nat) (k : State → State), ElementsFit pol.width es →
      ((emission pol (putAll pol.width es s)).andThen fun t => .cont (k t)).Runs fun _ => True := by
    intro es k he
    have h := putAll_runs pol.width es s he
    cases hx : putAll pol.width es s <;> rw [hx] at h <;> trivial
  have hrun : (flush pol s).Runs fun _ => True := by
    unfold flush
    by_cases hrc : 0 < s.enc.rc
    · obtain ⟨a, hpa⟩ := List.length_eq_one_iff.mp (h1.resolve_left (by omega))
      have hfr : fmtRun pol s.enc.rc = some (runFlagOf pol.width ||| (s.enc.rc + 1)) := by
        rw [fmtRun, if_pos ⟨by omega, by omega⟩]
      rw [if_pos hrc, hpa]
      simp only [hfr]
      refine key _ _ ?_
      simpa [flushWords, hrc, hpa] using hw
    · rw [if_neg hrc]
      by_cases hlen : 0 < s.enc.pending.length
      · have hfl : fmtLit pol s.enc.pending.length = some s.enc.pending.length := by
          rw [fmtLit, if_pos ⟨by omega, h2⟩]
        rw [if_pos hlen]
        simp only [hfl]
        refine key _ _ ?_
        simpa [flushWords, hrc, hlen] using hw
      · rw [if_neg hlen]
        trivial
  cases hx : flush pol s with
  | cont t => rw [hx] at hs; exact hs.2.2.1
  | raised t => trivial
  | abandoned t => trivial
  | faulted f => rw [hx] at hrun; exact hrun
  | stuck r => rw [hx] at hrun; exact hrun

/-- In a state of shape (I1), a repeat with nothing to fold finds one element. -/
theorem pending_eq_singleton {e : Enc} {v : Nat} (h1 : e.rc = 0 ∨ e.pending.length = 1)
    (hl : e.pending.getLast? = some v) (hfold : ¬(e.rc = 0 ∧ 2 ≤ e.pending.length)) : e.pending = [v] := by
  have hsplit := getLast?_split hl
  have hpos : 1 ≤ e.pending.length := by rw [hsplit]; simp
  have hlen : e.pending.length = 1 := by
    rcases h1 with h | h
    · have : ¬2 ≤ e.pending.length := fun hh => hfold ⟨h, hh⟩
      omega
    · exact h
  obtain ⟨a, ha⟩ := List.length_eq_one_iff.mp hlen
  rw [ha] at hl ⊢
  simpa using hl

/-- `ENC.ADD(v)` from any registers: how it ends, and, from registers of shape (I1), which registers it leaves. -/
theorem addElement_spec (pol : Policy) (v : Nat) (s : State) :
    (addElement pol v s).SinkSpec s (fun t => t.ps = s.ps)
      fun t => t.ps = s.ps ∧ t.freeCount = s.freeCount
        ∧ (EncShape s.enc → t.enc = (addWords pol v s.enc).2) := by
  unfold addElement
  cases hl : s.enc.pending.getLast? with
  | none =>
    refine ⟨?_, ?_, rfl, rfl, fun _ => ?_⟩
    · constructor <;> simp
    · constructor <;> simp
    · simp [addWords, hl]
  | some t =>
    by_cases hvt : v = t
    · subst hvt
      simp only [if_pos]
      have hmid : ∀ x : Flow,
          x.SinkSpec s (fun t => t.ps = s.ps) (fun u => u.ps = s.ps ∧ u.freeCount = s.freeCount
            ∧ (EncShape s.enc → u.enc = { pending := [v], rc := s.enc.rc })) →
          (x.andThen fun s => if s.enc.rc + 1 = pol.maxRun - 1 then flush pol (s.setRc (s.enc.rc + 1))
            else .cont (s.setRc (s.enc.rc + 1))).SinkSpec s (fun t => t.ps = s.ps)
            fun t => t.ps = s.ps ∧ t.freeCount = s.freeCount
              ∧ (EncShape s.enc → t.enc = (addWords pol v s.enc).2) := by
        intro x hx
        refine hx.andThen fun u ⟨hu1, hu2, hu3⟩ => ?_
        split
        · rename_i hthr
          refine Flow.SinkSpec.from ((flush_spec pol _).mono ?_ ?_) (s' := u.setRc (u.enc.rc + 1)) ?_ ?_
          · exact fun t ht => ht.trans hu1
          · rintro t ⟨h1, h2, h3⟩
            refine ⟨h2.trans hu1, h3.trans hu2, fun hi => ?_⟩
            rw [hu3 hi] at hthr
            simp only at hthr
            rw [h1]
            simp [addWords, hl, hthr]
          · constructor <;> simp
          · constructor <;> simp
        · rename_i hthr
          refine ⟨?_, ?_, hu1, hu2, fun hi => ?_⟩
          · constructor <;> simp
          · constructor <;> simp
          · rw [hu3 hi] at hthr
            simp only at hthr
            simp [addWords, hl, hthr, hu3 hi]
      apply hmid
      split
      · rename_i hfold
        refine Flow.SinkSpec.from (((flush_spec pol _).andThen (Q := fun u => u.ps = s.ps ∧ u.freeCount = s.freeCount
            ∧ (EncShape s.enc → u.enc = { pending := [v], rc := s.enc.rc })) ?_).mono ?_ fun u hu => hu)
          (s' := s.setPending s.enc.pending.dropLast) ?_ ?_
        · rintro u ⟨h1, h2, h3⟩
          refine ⟨?_, ?_, h2, h3, fun _ => ?_⟩
          · constructor <;> simp
          · constructor <;> simp
          · simp [h1, hfold.1, encEmpty]
        · exact fun t ht => ht
        · constructor <;> simp
        · constructor <;> simp
      · rename_i hfold
        refine ⟨SinkFrame.refl s, SameStatus.refl s, rfl, rfl, fun hi => ?_⟩
        have := pending_eq_singleton hi.1 hl hfold
        cases h : s.enc
        simp_all
    · simp only [if_neg hvt]
      split
      · rename_i hrc
        refine (flush_spec pol s).andThen ?_
        rintro u ⟨h1, h2, h3⟩
        refine ⟨?_, ?_, h2, h3, fun _ => ?_⟩
        · constructor <;> simp
        · constructor <;> simp
        · simp [addWords, hl, hvt, hrc, h1, encEmpty]
      · rename_i hrc
        split
        · rename_i hlit
          refine Flow.SinkSpec.from ((flush_spec pol _).mono ?_ ?_) (s' := s.setPending (s.enc.pending ++ [v])) ?_ ?_
          · exact fun t ht => ht
          · rintro t ⟨h1, h2, h3⟩
            refine ⟨h2, h3, fun _ => ?_⟩
            simp [addWords, hl, hvt, hrc, hlit, h1]
          · constructor <;> simp
          · constructor <;> simp
        · rename_i hlit
          refine ⟨?_, ?_, rfl, rfl, fun _ => ?_⟩
          · constructor <;> simp
          · constructor <;> simp
          · simp only [setPending_enc, addWords, hl, hvt, hrc, hlit, if_false, Enc.mk.injEq, true_and]
            omega

/-- (I1) and (I4) are kept by `ENC.ADD` (R97). -/
theorem addWords_shape (pol : Policy) (v : Nat) (e : Enc) (h : EncShape e) : EncShape (addWords pol v e).2 := by
  obtain ⟨h1, h4⟩ := h
  unfold addWords
  cases hl : e.pending.getLast? with
  | none => exact ⟨Or.inr rfl, by simp⟩
  | some t =>
    by_cases hvt : v = t
    · simp only [if_pos hvt]
      split <;> exact ⟨by simp [encEmpty], by simp [encEmpty]⟩
    · simp only [if_neg hvt]
      split
      · exact ⟨by simp, by simp⟩
      · split
        · exact ⟨by simp [encEmpty], by simp [encEmpty]⟩
        · refine ⟨Or.inl rfl, ?_⟩
          rw [getLast?_split hl] at h4 ⊢
          rw [AdjacentDistinct, List.isChain_append]
          refine ⟨h4, by simp, ?_⟩
          intro x hx y hy
          simp at hx hy
          omega

/-- (I1) to (I4) are kept by `ENC.ADD` (R97). -/
theorem addWords_inv (pol : Policy) (v : Nat) (e : Enc) (hp : PolicyOk pol) (h : EncInv pol e) :
    EncInv pol (addWords pol v e).2 := by
  refine ⟨addWords_shape pol v e h.1, ?_⟩
  obtain ⟨⟨h1, h4⟩, h2, h3⟩ := h
  obtain ⟨p1, p2, p3, p4⟩ := hp
  unfold addWords
  cases hl : e.pending.getLast? with
  | none => exact ⟨by simp; omega, h3⟩
  | some t =>
    by_cases hvt : v = t
    · simp only [if_pos hvt]
      split
      · exact ⟨by simp [encEmpty]; omega, by simp [encEmpty]; omega⟩
      · exact ⟨by simp; omega, by simp; omega⟩
    · simp only [if_neg hvt]
      split
      · exact ⟨by simp; omega, by simp; omega⟩
      · split
        · exact ⟨by simp [encEmpty]; omega, by simp [encEmpty]; omega⟩
        · exact ⟨by simp; omega, by simp; omega⟩

/-- The buffered elements stay elements. -/
theorem addWords_fit (pol : Policy) (v : Nat) (e : Enc) (hv : v < elemLimit pol.width)
    (hfit : ElementsFit pol.width e.pending) : ElementsFit pol.width (addWords pol v e).2.pending := by
  have hone : ElementsFit pol.width [v] := fun x hx => by simp at hx; omega
  unfold addWords
  cases hl : e.pending.getLast? with
  | none => exact hone
  | some t =>
    by_cases hvt : v = t
    · simp only [if_pos hvt]
      split
      · intro x hx; simp [encEmpty] at hx
      · exact hvt ▸ hone
    · simp only [if_neg hvt]
      split
      · exact hone
      · split
        · intro x hx; simp [encEmpty] at hx
        · intro x hx
          rcases List.mem_append.mp hx with hx | hx
          · exact hfit x hx
          · exact hone x hx

/-- Nothing stops `ENC.ADD` of an element where the invariants hold. -/
theorem addElement_runs (pol : Policy) (v : Nat) (s : State) (hp : PolicyOk pol) (hi : EncInv pol s.enc)
    (hfit : ElementsFit pol.width s.enc.pending) (hv : v < elemLimit pol.width) :
    (addElement pol v s).Runs fun t => t.enc = (addWords pol v s.enc).2 := by
  have hs := addElement_spec pol v s
  have hrun : (addElement pol v s).Runs fun _ => True := by
    obtain ⟨⟨h1, h4⟩, h2, h3⟩ := hi
    obtain ⟨p1, p2, p3, p4⟩ := id hp
    unfold addElement
    cases hl : s.enc.pending.getLast? with
    | none => trivial
    | some t =>
      by_cases hvt : v = t
      · subst hvt
        simp only [if_pos]
        refine Flow.Runs.andThen (P := fun u => u.enc = { pending := [v], rc := s.enc.rc }) ?_ ?_
        · split
          · rename_i hfold
            refine (flush_runs pol _ hp ?_ ?_).andThen ?_
            · refine ⟨Or.inl ?_, ?_, ?_⟩ <;> simp <;> omega
            · intro x hx
              exact hfit x (List.dropLast_subset _ (by simpa using hx))
            · intro u hu
              show ({ u.enc with pending := [v] } : Enc) = _
              rw [hu, hfold.1]
              rfl
          · rename_i hfold
            have := pending_eq_singleton h1 hl hfold
            show s.enc = _
            cases h : s.enc
            simp_all
        · intro u hu
          split
          · refine (flush_runs pol _ hp ?_ ?_).mono fun _ _ => trivial
            · refine ⟨Or.inr ?_, ?_, ?_⟩ <;> simp [hu] <;> omega
            · intro x hx
              simp [hu] at hx
              omega
          · trivial
      · simp only [if_neg hvt]
        split
        · refine (flush_runs pol s hp ⟨h1, by omega, by omega⟩ hfit).andThen fun _ _ => trivial
        · rename_i hrc
          split
          · refine (flush_runs pol _ hp ?_ ?_).mono fun _ _ => trivial
            · refine ⟨Or.inl ?_, ?_, ?_⟩ <;> simp <;> omega
            · intro x hx
              simp at hx
              rcases hx with hx | hx
              · exact hfit x hx
              · omega
          · trivial
  cases hx : addElement pol v s with
  | cont t => rw [hx] at hs; exact hs.2.2.2.2 hi.1
  | raised t => trivial
  | abandoned t => trivial
  | faulted f => rw [hx] at hrun; exact hrun
  | stuck r => rw [hx] at hrun; exact hrun

/-- A refused write inside `ENC.FLUSH` draws free values for the registers (R95). -/
theorem flush_raised (pol : Policy) (s t : State) (h : flush pol s = .raised t) : t.freeCount = s.freeCount + 1 := by
  have key : ∀ (es : List Nat) (k : State → State),
      (emission pol (putAll pol.width es s)).andThen (fun t => .cont (k t)) = .raised t →
      t.freeCount = s.freeCount + 1 := by
    intro es k hk
    have hs := putAll_spec pol.width es s
    cases hx : putAll pol.width es s <;> rw [hx] at hk hs <;> simp [emission] at hk
    rw [← hk]
    exact congrArg (· + 1) hs.2.2.freeCount
  unfold flush at h
  split at h
  · split at h
    · split at h
      · exact key _ _ h
      · simp at h
    · simp at h
  · split at h
    · split at h
      · exact key _ _ h
      · simp at h
    · simp at h

/-- A refused write inside `ENC.ADD` draws free values for the registers (R95). -/
theorem addElement_raised (pol : Policy) (v : Nat) (s t : State) (h : addElement pol v s = .raised t) :
    t.freeCount = s.freeCount + 1 := by
  unfold addElement at h
  split at h
  · simp at h
  · split at h
    · generalize hx : (if s.enc.rc = 0 ∧ 2 ≤ s.enc.pending.length then
          (flush pol (s.setPending s.enc.pending.dropLast)).andThen fun s => Flow.cont (s.setPending [_])
        else Flow.cont s) = x at h
      have hcont : ∀ u, x = .cont u → u.freeCount = s.freeCount := by
        intro u hu
        rw [← hx] at hu
        split at hu
        · have hf := flush_spec pol (s.setPending s.enc.pending.dropLast)
          cases hy : flush pol (s.setPending s.enc.pending.dropLast) <;> rw [hy] at hu hf <;> simp at hu
          rw [← hu]
          exact hf.2.2.2.2
        · simp at hu
          rw [hu]
      cases x with
      | cont u =>
        simp only [andThen_cont] at h
        split at h
        · rw [flush_raised _ _ _ h]
          exact congrArg (· + 1) (hcont u rfl)
        · simp at h
      | raised u =>
        simp at h
        subst h
        split at hx
        · cases hy : flush pol (s.setPending s.enc.pending.dropLast) <;> rw [hy] at hx <;> simp at hx
          subst hx
          exact flush_raised pol (s.setPending s.enc.pending.dropLast) _ hy
        · simp at hx
      | abandoned u => simp at h
      | faulted f => simp at h
      | stuck r => simp at h
    · split at h
      · cases hy : flush pol s <;> rw [hy] at h <;> simp at h
        subst h
        exact flush_raised _ _ _ hy
      · split at h
        · exact flush_raised pol (s.setPending (s.enc.pending ++ [v])) _ h
        · simp at h

end Sys2Proof.Machine
end

