-- ==== Sys2Proof/Laws/Memory.lean ====
section
/-! SUPPORT. The input memory: the one operation that writes it keeps the canonical form, and reading it gives the
bytes back. -/

namespace Sys2Proof.Machine

theorem Memory.wfFrom_of_le (m : Memory) (a b : Nat) (h : a ≤ b) (hm : Memory.wfFrom b m = true) :
    Memory.wfFrom a m = true := by
  cases m with
  | nil => rfl
  | cons c m =>
    simp only [Memory.wfFrom, Bool.and_eq_true, decide_eq_true_eq] at *
    exact ⟨⟨by omega, hm.1.2⟩, hm.2⟩

theorem Memory.wfFrom_ofBytes (a : Nat) (bs : List Byte) : Memory.wfFrom a (Memory.ofBytes a bs) = true := by
  induction bs generalizing a with
  | nil => rfl
  | cons b bs ih =>
    unfold Memory.ofBytes
    split
    · exact Memory.wfFrom_of_le _ _ _ (Nat.le_succ a) (ih (a + 1))
    · simp_all [Memory.wfFrom]

/-- Writing the input buffer keeps the canonical form. -/
theorem Memory.wf_ofBytes (bs : List Byte) : Memory.wf (Memory.ofBytes 0 bs) = true :=
  Memory.wfFrom_ofBytes 0 bs

theorem Memory.wf_nil : Memory.wf [] = true :=
  rfl

theorem Memory.addr_ofBytes (a : Nat) (bs : List Byte) (c : Host.Cell) (h : c ∈ Memory.ofBytes a bs) :
    a ≤ c.1 ∧ c.1 < a + bs.length := by
  induction bs generalizing a with
  | nil => simp [Memory.ofBytes] at h
  | cons b bs ih =>
    unfold Memory.ofBytes at h
    split at h
    · have := ih (a + 1) h
      simp only [List.length_cons]
      omega
    · rcases List.mem_cons.mp h with rfl | h
      · simp
      · have := ih (a + 1) h
        simp only [List.length_cons]
        omega

theorem Memory.read_of_lt (m : Memory) (lo a : Nat) (hm : Memory.wfFrom lo m = true) (h : a < lo) :
    m.read a = Memory.unlisted := by
  induction m generalizing lo with
  | nil => rfl
  | cons c m ih =>
    simp only [Memory.wfFrom, Bool.and_eq_true, decide_eq_true_eq] at hm
    unfold Memory.read
    rw [if_neg (by omega)]
    exact ih (c.1 + 1) hm.2 (by omega)

theorem Memory.read_ofBytes (a : Nat) (bs : List Byte) (i : Nat) :
    (Memory.ofBytes a bs).read (a + i) = bs.getD i Memory.unlisted := by
  induction bs generalizing a i with
  | nil => rfl
  | cons b bs ih =>
    unfold Memory.ofBytes
    cases i with
    | zero =>
      split
      · rename_i hb
        rw [Memory.read_of_lt _ (a + 1) _ (Memory.wfFrom_ofBytes (a + 1) bs) (by omega)]
        simp [hb]
      · simp [Memory.read]
    | succ i =>
      have h := ih (a + 1) i
      rw [show a + 1 + i = a + (i + 1) by omega] at h
      split
      · simpa using h
      · unfold Memory.read
        rw [if_neg (by omega)]
        simpa using h

theorem Memory.readBytes_length (m : Memory) (a n : Nat) : (m.readBytes a n).length = n := by
  induction n generalizing a with
  | zero => rfl
  | succ n ih => simp [Memory.readBytes, ih]

theorem Memory.readBytes_getElem? (m : Memory) (a n i : Nat) (h : i < n) :
    (m.readBytes a n)[i]? = some (m.read (a + i)) := by
  induction n generalizing a i with
  | zero => omega
  | succ n ih =>
    cases i with
    | zero => simp [Memory.readBytes]
    | succ i =>
      simp only [Memory.readBytes, List.getElem?_cons_succ]
      rw [ih (a + 1) i (by omega), show a + 1 + i = a + (i + 1) by omega]

/-- The bytes of a part of the buffer are that part of the buffer's bytes. -/
theorem Memory.readBytes_part (m : Memory) (size a n : Nat) (h : a + n ≤ size) :
    m.readBytes a n = ((m.readBytes 0 size).drop a).take n := by
  apply List.ext_getElem?
  intro i
  by_cases hi : i < n
  · rw [Memory.readBytes_getElem? m a n i hi, List.getElem?_take_of_lt hi, List.getElem?_drop,
      Memory.readBytes_getElem? m 0 size (a + i) (by omega), Nat.zero_add]
  · rw [List.getElem?_eq_none (by rw [Memory.readBytes_length]; omega),
      List.getElem?_eq_none (by rw [List.length_take]; omega)]

/-- Reading back what was written. -/
theorem Memory.readBytes_ofBytes (bs : List Byte) : (Memory.ofBytes 0 bs).readBytes 0 bs.length = bs := by
  apply List.ext_getElem?
  intro i
  by_cases hi : i < bs.length
  · rw [Memory.readBytes_getElem? _ 0 _ i hi, Memory.read_ofBytes]
    simp [hi]
  · rw [List.getElem?_eq_none (by rw [Memory.readBytes_length]; omega), List.getElem?_eq_none (by omega)]

/-- The bytes of the input buffer after it has been written. -/
theorem inputBytes_setInput (s : State) (bs : List Byte) (n : Nat) : inputBytes (s.setInput bs n).inb = bs :=
  Memory.readBytes_ofBytes bs

end Sys2Proof.Machine
end

