-- ==== Sys2Proof/Laws/Planes.lean ====
section
/-! SUPPORT. The plane splitter's loops: what they read, the words they put when every write is accepted, and what
they can do whatever the environment answers. -/

namespace Sys2Proof.Machine

/-- The element at index `i` of the input buffer (20_memory R38). -/
def elemAt (w : Width) (o : ByteOrder) (b : InBuf) (i : Nat) : Nat :=
  assemble o (Memory.readBytes b.cells (i * widthBytes w) (widthBytes w))

theorem elemAt_lt (w : Width) (o : ByteOrder) (b : InBuf) (i : Nat) : elemAt w o b i < elemLimit w := by
  have := assemble_lt o (Memory.readBytes b.cells (i * widthBytes w) (widthBytes w))
  rwa [Memory.readBytes_length, ← elemLimit_eq] at this

theorem inBuf_range (w : Width) (b : InBuf) (hb : InputWhole w b) (i : Nat) (hi : i < b.elems) :
    i * widthBytes w + widthBytes w ≤ b.size := by
  rw [hb, ← Nat.succ_mul]
  exact Nat.mul_le_mul_right _ hi

/-- Reading an element of a whole buffer. -/
theorem withInput_whole (w : Width) (i : Nat) (s : State) (k : Nat → Flow) (hb : InputWhole w s.inb)
    (hi : i < s.inb.elems) : withInput w i s k = k (elemAt w (effectiveOrder s) s.inb i) := by
  unfold withInput memRead
  rw [if_pos hi, if_pos (inBuf_range w s.inb hb i hi)]
  rfl

/-- The elements of a whole buffer, in order. -/
theorem elementsOf_inputBytes (w : Width) (o : ByteOrder) (b : InBuf) (hb : InputWhole w b) :
    elementsOf w o (inputBytes b) = (List.range b.elems).map (elemAt w o b) := by
  have hlen : (inputBytes b).length = b.size := Memory.readBytes_length _ _ _
  have hdiv : (inputBytes b).length / widthBytes w = b.elems := by
    rw [hlen, hb, Nat.mul_div_cancel _ (widthBytes_pos w)]
  unfold elementsOf
  rw [hdiv]
  apply List.map_congr_left
  intro i hi
  rw [elemAt, Memory.readBytes_part b.cells b.size _ _ (inBuf_range w b hb i (List.mem_range.mp hi))]
  rfl

/-- The words put by adding the elements `vs` in order, and the registers left. -/
def addAllWords (pol : Policy) : List Nat → Enc → List Nat × Enc
  | [], e => ([], e)
  | v :: vs, e =>
    ((addWords pol v e).1 ++ (addAllWords pol vs (addWords pol v e).2).1, (addAllWords pol vs (addWords pol v e).2).2)

theorem addAllWords_inv (pol : Policy) (vs : List Nat) (e : Enc) (hp : PolicyOk pol) (h : EncInv pol e) :
    EncInv pol (addAllWords pol vs e).2 := by
  induction vs generalizing e with
  | nil => exact h
  | cons v vs ih => exact ih _ (addWords_inv pol v e hp h)

theorem addAllWords_fit (pol : Policy) (vs : List Nat) (e : Enc) (hv : ElementsFit pol.width vs)
    (h : ElementsFit pol.width e.pending) : ElementsFit pol.width (addAllWords pol vs e).2.pending := by
  induction vs generalizing e with
  | nil => exact h
  | cons v vs ih =>
    exact ih _ (fun x hx => hv x (by simp [hx])) (addWords_fit pol v e (hv v (by simp)) h)

/-- The elements the loop of `PS.PLANE` adds from index `i` on. -/
def loopElements (f : Nat → Nat) (n l : Nat) : Nat → Nat → List Nat
  | 0, _ => []
  | fuel + 1, i => if i < l then f i :: loopElements f n l fuel (i + n) else []

/-- The index at which the loop ends. -/
def loopEnd (n l : Nat) : Nat → Nat → Nat
  | 0, i => i
  | fuel + 1, i => if i < l then loopEnd n l fuel (i + n) else i

theorem loopElements_fit (w : Width) (o : ByteOrder) (b : InBuf) (n l fuel i : Nat) :
    ElementsFit w (loopElements (elemAt w o b) n l fuel i) := by
  induction fuel generalizing i with
  | zero => intro x hx; simp [loopElements] at hx
  | succ fuel ih =>
    unfold loopElements
    split
    · intro x hx
      rcases List.mem_cons.mp hx with rfl | hx
      · exact elemAt_lt w o b i
      · exact ih (i + n) x hx
    · intro x hx; simp at hx

theorem planeLength_zero (n l i : Nat) (hn : 1 ≤ n) (h : l ≤ i) : planeLength n l i = 0 := by
  unfold planeLength
  rw [Nat.sub_eq_zero_of_le h, Nat.zero_add]
  exact Nat.div_eq_of_lt (by omega)

theorem planeLength_succ (n l i : Nat) (hn : 1 ≤ n) (h : i < l) :
    planeLength n l i = planeLength n l (i + n) + 1 := by
  unfold planeLength
  by_cases hc : i + n ≤ l
  · rw [show l - i + n - 1 = (l - (i + n) + n - 1) + n by omega, Nat.add_div_right _ (by omega)]
  · rw [show l - (i + n) = 0 by omega, Nat.zero_add, Nat.div_eq_of_lt (by omega : n - 1 < n),
      show l - i + n - 1 = (l - i - 1) + n by omega, Nat.add_div_right _ (by omega),
      Nat.div_eq_of_lt (by omega : l - i - 1 < n)]

/-- With enough fuel the loop adds the elements at `i, i+n, …` below `l` (R104). -/
theorem loopElements_eq (f : Nat → Nat) (n l fuel i : Nat) (hn : 1 ≤ n) (hfuel : l ≤ i + fuel) :
    loopElements f n l fuel i = (List.range (planeLength n l i)).map fun j => f (i + j * n) := by
  induction fuel generalizing i with
  | zero => simp [loopElements, planeLength_zero n l i hn (by omega)]
  | succ fuel ih =>
    unfold loopElements
    split
    · rename_i h
      rw [ih (i + n) (by omega), planeLength_succ n l i hn h, List.range_succ_eq_map]
      simp only [List.map_cons, Nat.zero_mul, Nat.add_zero, List.map_map, List.cons.injEq, true_and]
      apply List.map_congr_left
      intro a _
      simp only [Function.comp, Nat.succ_mul]
      rw [show i + n + a * n = i + (a * n + n) by omega]
    · rename_i h
      simp [planeLength_zero n l i hn (by omega)]

theorem loopEnd_eq (n l fuel i : Nat) (hn : 1 ≤ n) (hfuel : l ≤ i + fuel) :
    loopEnd n l fuel i = i + planeLength n l i * n := by
  induction fuel generalizing i with
  | zero => simp [loopEnd, planeLength_zero n l i hn (by omega)]
  | succ fuel ih =>
    unfold loopEnd
    split
    · rename_i h
      rw [ih (i + n) (by omega), planeLength_succ n l i hn h, Nat.succ_mul]
      omega
    · rename_i h
      simp [planeLength_zero n l i hn (by omega)]

/-- The state after a loop that has put the words `ws`, left the registers `e` and reached the index `i`. -/
def State.looped (s : State) (w : Width) (ws : List Nat) (e : Enc) (i : Nat) : State :=
  { s.emitted w ws with enc := e, ps := { s.ps with i := i } }

theorem looped_looped (s : State) (w : Width) (ws ws' : List Nat) (e e' : Enc) (i i' : Nat) :
    (s.looped w ws e i).looped w ws' e' i' = s.looped w (ws ++ ws') e' i' := by
  unfold State.looped
  have := emitted_emitted s w ws ws'
  simp only [State.emitted] at this ⊢
  simp_all [effectiveOrder]

/-- The loop of `PS.PLANE` when its writes are accepted. -/
theorem planeLoop_accepted (pol : Policy) (n fuel : Nat) (s : State) (hp : PolicyOk pol) (hi : EncInv pol s.enc)
    (hfit : ElementsFit pol.width s.enc.pending) (hb : InputWhole pol.width s.inb)
    (ha : AcceptsWrites (addAllWords pol
      (loopElements (elemAt pol.width (effectiveOrder s) s.inb) n s.inb.elems fuel s.ps.i) s.enc).1.length s) :
    planeLoop pol n fuel s = .cont (s.looped pol.width
      (addAllWords pol (loopElements (elemAt pol.width (effectiveOrder s) s.inb) n s.inb.elems fuel s.ps.i) s.enc).1
      (addAllWords pol (loopElements (elemAt pol.width (effectiveOrder s) s.inb) n s.inb.elems fuel s.ps.i) s.enc).2
      (loopEnd n s.inb.elems fuel s.ps.i)) := by
  induction fuel generalizing s with
  | zero => simp [planeLoop, loopElements, addAllWords, loopEnd, State.looped]
  | succ fuel ih =>
    unfold planeLoop
    by_cases hlt : s.ps.i < s.inb.elems
    · simp only [loopElements, if_pos hlt, addAllWords, loopEnd, List.length_append] at ha ⊢
      have hv := elemAt_lt pol.width (effectiveOrder s) s.inb s.ps.i
      rw [withInput_whole pol.width s.ps.i s _ hb hlt,
        addElement_accepted pol _ s hp hi hfit hv (ha.mono (by omega)), andThen_cont]
      generalize elemAt pol.width (effectiveOrder s) s.inb s.ps.i = v at ha hv ⊢
      have hnext := ih (s.looped pol.width (addWords pol v s.enc).1 (addWords pol v s.enc).2 (s.ps.i + n))
        (addWords_inv pol v s.enc hp hi) (addWords_fit pol v s.enc hv hfit) hb (AcceptsWrites.after ha rfl)
      rw [looped_looped] at hnext
      exact hnext
    · simp [loopElements, hlt, addAllWords, loopEnd, State.looped]

/-- The words of one plane: its elements added from an empty encoder, the flush, the terminator. -/
def planeWords (pol : Policy) (es : List Nat) : List Nat :=
  (addAllWords pol es encEmpty).1 ++ flushWords pol (addAllWords pol es encEmpty).2 ++ [0]

/-- The elements of plane `p` of the input buffer. -/
def bufferPlane (w : Width) (o : ByteOrder) (b : InBuf) (n p : Nat) : List Nat :=
  planeElements n p (elementsOf w o (inputBytes b))

theorem bufferPlane_eq (w : Width) (o : ByteOrder) (b : InBuf) (n p : Nat) (hn : 1 ≤ n) (hb : InputWhole w b) :
    bufferPlane w o b n p = loopElements (elemAt w o b) n b.elems b.elems p := by
  rw [loopElements_eq _ _ _ _ _ hn (by omega), bufferPlane, elementsOf_inputBytes w o b hb, planeElements]
  simp only [List.length_map, List.length_range]
  apply List.map_congr_left
  intro j hj
  have hlt : p + j * n < b.elems := by
    have hj := List.mem_range.mp hj
    unfold planeLength at hj
    have h1 : (j + 1) * n ≤ b.elems - p + n - 1 :=
      (Nat.le_div_iff_mul_le (by omega)).mp hj
    rw [Nat.succ_mul] at h1
    by_cases hz : b.elems ≤ p
    · have : b.elems - p = 0 := by omega
      rw [this] at h1
      have : 0 ≤ j * n := Nat.zero_le _
      omega
    · omega
  simp [hlt]

/-- `PS.PLANE(p)` when its writes are accepted (R101). -/
theorem planeBody_accepted (w : Width) (n p : Nat) (s : State) (hw : widthOf? s.cfg.width = some w) (hn : 1 ≤ n)
    (hb : InputWhole w s.inb)
    (ha : AcceptsWrites (planeWords (hardwarePolicy w) (bufferPlane w (effectiveOrder s) s.inb n p)).length s) :
    planeBody n p s = .cont (s.looped w (planeWords (hardwarePolicy w) (bufferPlane w (effectiveOrder s) s.inb n p))
      encEmpty (p + planeLength n s.inb.elems p * n)) := by
  have hp := hardwarePolicy_ok w
  have hfit0 : ElementsFit (hardwarePolicy w).width encEmpty.pending := fun x hx => by simp [encEmpty] at hx
  rw [bufferPlane_eq w (effectiveOrder s) s.inb n p hn hb] at ha ⊢
  have hfitE : ElementsFit (hardwarePolicy w).width
      (loopElements (elemAt w (effectiveOrder s) s.inb) n s.inb.elems s.inb.elems p) :=
    loopElements_fit w (effectiveOrder s) s.inb n s.inb.elems s.inb.elems p
  generalize hes : loopElements (elemAt w (effectiveOrder s) s.inb) n s.inb.elems s.inb.elems p = es at ha hfitE ⊢
  have hpw : planeWords (hardwarePolicy w) es = (addAllWords (hardwarePolicy w) es encEmpty).1
      ++ flushWords (hardwarePolicy w) (addAllWords (hardwarePolicy w) es encEmpty).2 ++ [0] := rfl
  have hinv := addAllWords_inv (hardwarePolicy w) es encEmpty hp (encInv_empty _ hp)
  have hfit := addAllWords_fit (hardwarePolicy w) es encEmpty hfitE hfit0
  have hpol : withPolicy s = fun k => k (hardwarePolicy w) := by
    funext k
    simp [withPolicy, withWidth, hw]
  rw [hpw] at ha ⊢
  simp only [List.length_append] at ha
  have hloop : planeLoop (hardwarePolicy w) n s.inb.elems (s.clearEnc.setI p)
      = .cont (s.looped w (addAllWords (hardwarePolicy w) es encEmpty).1 (addAllWords (hardwarePolicy w) es encEmpty).2
        (p + planeLength n s.inb.elems p * n)) := by
    have hl := planeLoop_accepted (hardwarePolicy w) n s.inb.elems (s.clearEnc.setI p) hp (encInv_empty _ hp) hfit0 hb
      (by
        show AcceptsWrites (addAllWords (hardwarePolicy w)
          (loopElements (elemAt w (effectiveOrder s) s.inb) n s.inb.elems s.inb.elems p) encEmpty).1.length s
        rw [hes]
        exact ha.mono (by omega))
    rw [hl]
    show Flow.cont (s.looped w
      (addAllWords (hardwarePolicy w) (loopElements (elemAt w (effectiveOrder s) s.inb) n s.inb.elems s.inb.elems p)
        encEmpty).1
      (addAllWords (hardwarePolicy w) (loopElements (elemAt w (effectiveOrder s) s.inb) n s.inb.elems s.inb.elems p)
        encEmpty).2
      (loopEnd n s.inb.elems s.inb.elems p)) = _
    rw [hes, loopEnd_eq n _ _ p hn (by omega)]
  unfold planeBody
  rw [hpol]
  simp only [hloop, andThen_cont]
  have h1 : AcceptsWrites (flushWords (hardwarePolicy w) (addAllWords (hardwarePolicy w) es encEmpty).2).length
      (s.looped w (addAllWords (hardwarePolicy w) es encEmpty).1 (addAllWords (hardwarePolicy w) es encEmpty).2
        (p + planeLength n s.inb.elems p * n)) := by
    refine AcceptsWrites.after (m := (addAllWords (hardwarePolicy w) es encEmpty).1.length) (s := s) ?_ rfl
    exact ha.mono (by omega)
  rw [flush_accepted (hardwarePolicy w) _ hp hinv.flushOk hfit h1, andThen_cont, terminate, fmtTerm,
    put_accepted (hardwarePolicy w).width 0 _ (by rw [elemLimit_eq]; exact Nat.pow_pos (by decide))]
  · rw [List.append_assoc, ← looped_looped (e := encEmpty) (i := p + planeLength n s.inb.elems p * n),
      ← looped_looped (e := encEmpty) (i := p + planeLength n s.inb.elems p * n)]
    rfl
  · refine AcceptsWrites.after (s := s) (m := (addAllWords (hardwarePolicy w) es encEmpty).1.length
      + (flushWords (hardwarePolicy w) (addAllWords (hardwarePolicy w) es encEmpty).2).length) ?_ ?_
    · exact ha.mono (by simp)
    · simp [State.looped, hardwarePolicy]

/-- The words of `count` planes from plane `p` on. -/
def planesWords (pol : Policy) (plane : Nat → List Nat) : Nat → Nat → List Nat
  | 0, _ => []
  | count + 1, p => planeWords pol (plane p) ++ planesWords pol plane count (p + 1)

/-- The state after the planes up to (not including) `p`, the last of them ending at index `i`. -/
def State.planed (s : State) (w : Width) (ws : List Nat) (p i : Nat) : State :=
  { s.emitted w ws with enc := encEmpty, ps := { p := p, i := i } }

/-- The index at which plane `p` ends (R102). -/
def planeEnd (n l p : Nat) : Nat :=
  p + planeLength n l p * n

/-- The loop of `PS.ENCODE` when its writes are accepted (R102). -/
theorem encodeLoop_accepted (w : Width) (n count : Nat) (s : State) (hw : widthOf? s.cfg.width = some w) (hn : 1 ≤ n)
    (hb : InputWhole w s.inb) (hp : s.ps.p + count = n) (hc : 1 ≤ count)
    (ha : AcceptsWrites
      (planesWords (hardwarePolicy w) (bufferPlane w (effectiveOrder s) s.inb n) count s.ps.p).length s) :
    encodeLoop n count s = .cont (s.planed w
      (planesWords (hardwarePolicy w) (bufferPlane w (effectiveOrder s) s.inb n) count s.ps.p) n
      (planeEnd n s.inb.elems (n - 1))) := by
  induction count generalizing s with
  | zero => omega
  | succ count ih =>
    have ha' := ha
    simp only [planesWords, List.length_append] at ha'
    unfold encodeLoop
    rw [if_pos (by omega), planeBody_accepted w n s.ps.p s hw hn hb (ha'.mono (by omega)), andThen_cont]
    by_cases hz : count = 0
    · subst hz
      have hlast : n - 1 = s.ps.p := by omega
      simp only [encodeLoop, planesWords, List.append_nil, hlast, planeEnd]
      have : s.ps.p + 1 = n := by omega
      simp only [State.setP, State.looped, State.planed, this]
    · have hnext := ih
        (State.setP (s.looped w (planeWords (hardwarePolicy w) (bufferPlane w (effectiveOrder s) s.inb n s.ps.p)) encEmpty
          (s.ps.p + planeLength n s.inb.elems s.ps.p * n)) (s.ps.p + 1)) hw hb
        (show s.ps.p + 1 + count = n by omega) (by omega) (AcceptsWrites.after ha' rfl)
      refine hnext.trans ?_
      simp only [planesWords, State.planed, ← emitted_emitted]
      rfl

/-- `PS.ENCODE` when its writes are accepted and there is a plane (R102). -/
theorem encodePlanes_accepted (w : Width) (s : State) (hw : widthOf? s.cfg.width = some w) (hn : 1 ≤ s.cfg.nplanes)
    (hb : InputWhole w s.inb)
    (ha : AcceptsWrites (planesWords (hardwarePolicy w)
      (bufferPlane w (effectiveOrder s) s.inb s.cfg.nplanes.toNat) s.cfg.nplanes.toNat 0).length s) :
    encodePlanes s = .cont (s.planed w
      (planesWords (hardwarePolicy w) (bufferPlane w (effectiveOrder s) s.inb s.cfg.nplanes.toNat)
        s.cfg.nplanes.toNat 0) s.cfg.nplanes.toNat
      (planeEnd s.cfg.nplanes.toNat s.inb.elems (s.cfg.nplanes.toNat - 1))) := by
  unfold encodePlanes
  exact encodeLoop_accepted w s.cfg.nplanes.toNat s.cfg.nplanes.toNat (s.setP 0) hw (by omega) hb
    (by simp) (by omega) ha

/-! ### Whatever the environment answers -/

theorem planeLoop_spec (pol : Policy) (n fuel : Nat) (s : State) :
    (planeLoop pol n fuel s).SinkSpec s (fun t => t.ps.p = s.ps.p)
      fun t => t.ps.p = s.ps.p ∧ (EncShape s.enc → EncShape t.enc) := by
  induction fuel generalizing s with
  | zero => exact ⟨SinkFrame.refl s, SameStatus.refl s, rfl, id⟩
  | succ fuel ih =>
    unfold planeLoop
    split
    · unfold withInput
      split
      · split
        · rename_i bs _
          refine Flow.SinkSpec.andThen
            ((addElement_spec pol (assemble (effectiveOrder s) bs) s).mono ?_ (fun t ht => ht)) ?_
          · exact fun t ht => by rw [ht]
          · rintro t ⟨h1, h2, h3⟩
            refine Flow.SinkSpec.from ((ih _).mono ?_ ?_) (s' := t.setI (t.ps.i + n)) ?_ ?_
            · exact fun u hu => hu.trans (by simp [h1])
            · rintro u ⟨hu1, hu2⟩
              refine ⟨hu1.trans (by simp [h1]), fun hi => hu2 ?_⟩
              rw [setI_enc, h3 hi]
              exact addWords_shape pol _ _ hi
            · constructor <;> simp
            · constructor <;> simp
        · trivial
      · trivial
    · exact ⟨SinkFrame.refl s, SameStatus.refl s, rfl, id⟩

theorem planeBody_spec (n p : Nat) (s : State) :
    (planeBody n p s).SinkSpec s (fun t => t.ps.p = s.ps.p) fun t => t.ps.p = s.ps.p ∧ t.enc = encEmpty := by
  unfold planeBody withPolicy withWidth
  split
  · trivial
  · rename_i w _
    refine Flow.SinkSpec.from (s' := s.clearEnc.setI p) (R := fun t => t.ps.p = s.ps.p) ?_ ?_ ?_
    · refine Flow.SinkSpec.andThen (P := fun t => t.ps.p = s.ps.p ∧ t.enc = encEmpty)
        (Flow.SinkSpec.andThen (P := fun t => t.ps.p = s.ps.p) ?_ ?_) ?_
      · exact (planeLoop_spec _ _ _ _).mono (fun t ht => ht) (fun t ht => ht.1)
      · intro t ht
        exact (flush_spec _ t).mono (fun u hu => by rw [hu, ht]) (fun u hu => ⟨by rw [hu.2.1, ht], hu.1⟩)
      · rintro t ⟨ht1, ht2⟩
        exact (put_spec _ _ t).mono (fun u hu => by rw [hu.ps, ht1]) (fun u hu => ⟨by rw [hu.ps, ht1], by rw [hu.enc, ht2]⟩)
    · constructor <;> simp
    · constructor <;> simp

theorem encodeLoop_spec (n fuel : Nat) (s : State) :
    (encodeLoop n fuel s).SinkSpec s (fun _ => True) fun t => EncShape s.enc → EncShape t.enc := by
  induction fuel generalizing s with
  | zero => exact ⟨SinkFrame.refl s, SameStatus.refl s, id⟩
  | succ fuel ih =>
    unfold encodeLoop
    split
    · refine Flow.SinkSpec.andThen ((planeBody_spec n s.ps.p s).mono (fun _ _ => trivial) fun t ht => ht) ?_
      rintro t ⟨_, ht⟩
      refine Flow.SinkSpec.from ((ih _).mono (fun _ _ => trivial) fun u hu _ => hu ?_) (s' := t.setP (t.ps.p + 1)) ?_ ?_
      · rw [setP_enc, ht]
        exact ⟨Or.inl rfl, by simp [encEmpty]⟩
      · constructor <;> simp
      · constructor <;> simp
    · exact ⟨SinkFrame.refl s, SameStatus.refl s, id⟩

theorem encodePlanes_spec (s : State) :
    (encodePlanes s).SinkSpec s (fun _ => True) fun t => EncShape s.enc → EncShape t.enc := by
  unfold encodePlanes
  refine Flow.SinkSpec.from (encodeLoop_spec _ _ _) (s' := s.setP 0) ?_ ?_ <;> (constructor <;> simp)

/-- Nothing stops the loop of `PS.PLANE` on a whole input buffer. -/
theorem planeLoop_runs (pol : Policy) (n fuel : Nat) (s : State) (hp : PolicyOk pol) (hi : EncInv pol s.enc)
    (hfit : ElementsFit pol.width s.enc.pending) (hb : InputWhole pol.width s.inb) :
    (planeLoop pol n fuel s).Runs fun t => EncInv pol t.enc ∧ ElementsFit pol.width t.enc.pending := by
  induction fuel generalizing s with
  | zero => exact ⟨hi, hfit⟩
  | succ fuel ih =>
    unfold planeLoop
    split
    · rename_i hlt
      rw [withInput_whole pol.width s.ps.i s _ hb hlt]
      have hv := elemAt_lt pol.width (effectiveOrder s) s.inb s.ps.i
      have hrun := addElement_runs pol _ s hp hi hfit hv
      have hspec := addElement_spec pol (elemAt pol.width (effectiveOrder s) s.inb s.ps.i) s
      cases hx : addElement pol (elemAt pol.width (effectiveOrder s) s.inb s.ps.i) s with
      | cont t =>
        rw [hx] at hrun hspec
        have ht : t.enc = _ := hrun
        simp only [andThen_cont]
        refine ih _ ?_ ?_ ?_
        · rw [setI_enc, ht]; exact addWords_inv pol _ _ hp hi
        · rw [setI_enc, ht]; exact addWords_fit pol _ _ hv hfit
        · rw [setI_inb, hspec.1.inb]; exact hb
      | raised t => trivial
      | abandoned t => trivial
      | faulted f => rw [hx] at hrun; exact hrun
      | stuck r => rw [hx] at hrun; exact hrun
    · exact ⟨hi, hfit⟩

theorem planeBody_runs (w : Width) (n p : Nat) (s : State) (hw : widthOf? s.cfg.width = some w)
    (hb : InputWhole w s.inb) : (planeBody n p s).Runs fun _ => True := by
  unfold planeBody withPolicy withWidth
  rw [hw]
  have hp := hardwarePolicy_ok w
  refine Flow.Runs.andThen (P := fun _ => True) (Flow.Runs.andThen
    (planeLoop_runs (hardwarePolicy w) n _ _ hp (encInv_empty _ hp) (fun x hx => by simp at hx) hb) ?_) ?_
  · intro t ht
    exact (flush_runs _ t hp ht.1.flushOk ht.2).mono fun _ _ => trivial
  · intro t _
    exact (put_runs _ _ t (by rw [elemLimit_eq]; exact Nat.pow_pos (by decide))).mono fun _ _ => trivial

/-- Nothing stops `PS.ENCODE` on a whole input buffer. -/
theorem encodeLoop_runs (w : Width) (n fuel : Nat) (s : State) (hw : widthOf? s.cfg.width = some w)
    (hb : InputWhole w s.inb) : (encodeLoop n fuel s).Runs fun _ => True := by
  induction fuel generalizing s with
  | zero => trivial
  | succ fuel ih =>
    unfold encodeLoop
    split
    · have hrun := planeBody_runs w n s.ps.p s hw hb
      have hspec := planeBody_spec n s.ps.p s
      cases hx : planeBody n s.ps.p s with
      | cont t =>
        rw [hx] at hspec
        simp only [andThen_cont]
        refine ih _ ?_ ?_
        · rw [setP_cfg, hspec.1.cfg]; exact hw
        · rw [setP_inb, hspec.1.inb]; exact hb
      | raised t => trivial
      | abandoned t => trivial
      | faulted f => rw [hx] at hrun; exact hrun
      | stuck r => rw [hx] at hrun; exact hrun
    · trivial

theorem encodePlanes_runs (w : Width) (s : State) (hw : widthOf? s.cfg.width = some w) (hb : InputWhole w s.inb) :
    (encodePlanes s).Runs fun _ => True :=
  encodeLoop_runs w _ _ (s.setP 0) hw hb

end Sys2Proof.Machine
end

