-- ==== Sys2Proof/Laws/Stream.lean ====
section
/-! SUPPORT. The words of a plane are the words of a sequence of tokens that stands for the plane's elements
(30_encoding R53, R68), and there are at most two words for each element. -/

namespace Sys2Proof.Machine

theorem wellFormed_runToken (w : Width) (k v : Nat) (h2 : 2 ≤ k) (hk : k < runFlagOf w) :
    (runToken w k v).wellFormed = true := by
  cases w <;> simp_all [runToken, Instr.wellFormed, runFlagOf, bitsOf, widthBytes, Nat.mod_eq_of_lt]

theorem wellFormed_litToken (w : Width) (vs : List Nat) (h1 : 1 ≤ vs.length) (h2 : vs.length ≤ capOf w) :
    (litToken w vs).wellFormed = true := by
  cases w <;> simp_all [litToken, Instr.wellFormed, capOf, countLimit, bitsOf, widthBytes]

/-- The token a flush of the registers `e` emits. -/
def flushToken (w : Width) (e : Enc) : Instr :=
  if 0 < e.rc then runToken w (e.rc + 1) (e.pending.headD 0) else litToken w e.pending

theorem flushToken_spec (w : Width) (e : Enc) (hf : FlushOk (hardwarePolicy w) e)
    (hfit : ElementsFit w e.pending) (hd : AdjacentDistinct e.pending) (hne : e.pending ≠ []) :
    DataToken w (flushToken w e) ∧ flushWords (hardwarePolicy w) e = encodeWords (flushToken w e)
      ∧ tokenElements (flushToken w e) = held e ∧ (isLiteralToken (flushToken w e) = true → e.rc = 0) := by
  obtain ⟨h1, h2, h3⟩ := hf
  have hc := capOf_succ w
  have hcap : (hardwarePolicy w).maxRun = capOf w := rfl
  have hcapl : (hardwarePolicy w).maxLit = capOf w := rfl
  have hpos : 0 < e.pending.length := List.length_pos_iff.mpr hne
  unfold flushToken flushWords
  by_cases hrc : 0 < e.rc
  · obtain ⟨a, hpa⟩ := List.length_eq_one_iff.mp (h1.resolve_left (by omega))
    have ha : a < elemLimit w := hfit a (by simp [hpa])
    have hk : e.rc + 1 < runFlagOf w := by omega
    have hv := tokenView_runToken w (e.rc + 1) a hk ha
    simp only [if_pos hrc, hpa, List.headD_cons]
    refine ⟨⟨?_, wellFormed_runToken w _ _ (by omega) hk, ?_, ?_⟩, ?_, ?_, ?_⟩
    · simp [tokenWidth?, hv]
    · simp [isRunToken, hv]
    · simp [isLiteralToken, hv]
    · simp [encodeWords, hv, hardwarePolicy]
    · have hz : e.rc ≠ 0 := by omega
      simp [tokenElements, hv, held, hpa, hz]
    · simp [isLiteralToken, hv]
  · have hz : e.rc = 0 := by omega
    have hv := tokenView_litToken w e.pending hfit
    simp only [if_neg hrc, if_pos hpos]
    refine ⟨⟨?_, wellFormed_litToken w _ (by omega) (by omega), ?_, ?_⟩, ?_, ?_, ?_⟩
    · simp [tokenWidth?, hv]
    · simp [isLiteralToken, hv]
    · intro _
      simpa [tokenElements, hv] using hd
    · simp [encodeWords, hv]
    · simp [tokenElements, hv, held, hz]
    · exact fun _ => hz

/-- The tokens `toks` have been emitted for a plane of which the elements `es` have been accepted, and the registers
are `e` (R98, R68). -/
structure Emitting (w : Width) (toks : List Instr) (e : Enc) (es : List Nat) : Prop where
  data : ∀ i ∈ toks, DataToken w i
  chain : toks.IsChain (MayFollow w)
  elems : toks.flatMap tokenElements ++ held e = es
  link : ∀ a ∈ toks.getLast?, (tokenElements a).length < capOf w →
    held e ≠ [] ∧ (tokenElements a).getLast? ≠ (held e).head? ∧ (isLiteralToken a = true → 0 < e.rc)

/-- One more token: it begins with the first held element, and is a literal only if nothing is counted. -/
theorem Emitting.emit {w : Width} {toks : List Instr} {e e' : Enc} {es es' : List Nat} (h : Emitting w toks e es)
    (tok : Instr) (hd : DataToken w tok) (hhead : (tokenElements tok).head? = (held e).head?)
    (hlit : isLiteralToken tok = true → e.rc = 0) (helems : toks.flatMap tokenElements ++ tokenElements tok ++ held e' = es')
    (hlink : (tokenElements tok).length < capOf w →
      held e' ≠ [] ∧ (tokenElements tok).getLast? ≠ (held e').head? ∧ (isLiteralToken tok = true → 0 < e'.rc)) :
    Emitting w (toks ++ [tok]) e' es' where
  data := by
    intro i hi
    rcases List.mem_append.mp hi with hi | hi
    · exact h.data i hi
    · simp at hi
      subst hi
      exact hd
  chain := by
    rw [List.isChain_append]
    refine ⟨h.chain, by simp, ?_⟩
    intro a ha b hb
    simp at hb
    subst hb
    intro hlt
    obtain ⟨_, h2, h3⟩ := h.link a ha hlt
    refine ⟨by rw [hhead]; exact h2, fun hh => ?_⟩
    have := h3 hh.1
    have := hlit hh.2
    omega
  elems := by simpa using helems
  link := by
    intro a ha
    simp at ha
    subst ha
    exact hlink

theorem held_literal (p : List Nat) : held { pending := p, rc := 0 } = p := rfl

theorem held_run (a n : Nat) : held { pending := [a], rc := n } = List.replicate (n + 1) a := by
  unfold held
  by_cases h : n = 0
  · simp [h]
  · simp [h]

/-- `ENC.ADD(v)` on the tokens (R96, R98). -/
theorem Emitting.add {w : Width} {toks : List Instr} {e : Enc} {es : List Nat} (h : Emitting w toks e es) (v : Nat)
    (hi : EncInv (hardwarePolicy w) e) (hfit : ElementsFit w e.pending) (hv : v < elemLimit w) :
    ∃ new, new.length ≤ 1 ∧ (addWords (hardwarePolicy w) v e).1 = new.flatMap encodeWords
      ∧ Emitting w (toks ++ new) (addWords (hardwarePolicy w) v e).2 (es ++ [v]) := by
  obtain ⟨⟨h1, h4⟩, h2, h3⟩ := hi
  have hcap := two_lt_capOf w
  have hmr : (hardwarePolicy w).maxRun = capOf w := rfl
  have hml : (hardwarePolicy w).maxLit = capOf w := rfl
  have helems := h.elems
  unfold addWords
  cases hl : e.pending.getLast? with
  | none =>
    have hnil : e.pending = [] := List.getLast?_eq_none_iff.mp hl
    have hz : e.rc = 0 := h1.resolve_right (by simp [hnil])
    have hheld : held e = [] := by simp [held, hz, hnil]
    refine ⟨[], by simp, rfl, ?_⟩
    rw [List.append_nil, hz]
    refine ⟨h.data, h.chain, ?_, ?_⟩
    · rw [held_literal, ← helems, hheld, List.append_nil]
    · intro a ha hlt
      exact absurd hheld (h.link a ha hlt).1
  | some t =>
    have hne : e.pending ≠ [] := by
      intro hn
      simp [hn] at hl
    have hsplit := getLast?_split hl
    by_cases hvt : v = t
    · subst hvt
      simp only [if_pos]
      by_cases hfold : e.rc = 0 ∧ 2 ≤ e.pending.length
      · have hz := hfold.1
        have hheld : held e = e.pending.dropLast ++ [v] := by rw [← hsplit]; simp [held, hz]
        have hqne : e.pending.dropLast ≠ [] := by
          intro hn
          have := congrArg List.length hn
          simp at this
          omega
        have hthr : ¬e.rc + 1 = (hardwarePolicy w).maxRun - 1 := by omega
        simp only [if_pos hfold, if_neg hthr]
        have h4' := h4
        rw [hsplit, AdjacentDistinct, List.isChain_append] at h4'
        obtain ⟨s1, s2, s3, s4⟩ := flushToken_spec w { pending := e.pending.dropLast, rc := 0 }
          ⟨Or.inl rfl, by simp; omega, by simp; omega⟩ (fun x hx => hfit x (List.dropLast_subset _ hx)) h4'.1 hqne
        rw [held_literal] at s3
        refine ⟨[flushToken w { pending := e.pending.dropLast, rc := 0 }], by simp, by simpa using s2, ?_⟩
        refine h.emit _ s1 ?_ (fun _ => hz) ?_ ?_
        · rw [s3, hheld, List.head?_append_of_ne_nil _ hqne]
        · rw [held_run, s3, ← helems, hheld, hz]
          simp
        · intro _
          rw [held_run, s3, hz]
          refine ⟨by simp, ?_, fun _ => by simp⟩
          intro heq
          simp at heq
          have := h4'.2.2 v (by rw [heq]; rfl) v (by simp)
          exact this rfl
      · have hone := pending_eq_singleton h1 hl hfold
        have hheld : held e = List.replicate (e.rc + 1) v := by
          rw [← held_run, ← hone]
        simp only [if_neg hfold]
        by_cases hthr : e.rc + 1 = (hardwarePolicy w).maxRun - 1
        · simp only [if_pos hthr]
          obtain ⟨s1, s2, s3, s4⟩ := flushToken_spec w { pending := [v], rc := e.rc + 1 }
            ⟨Or.inr rfl, by simp; omega, by simp; omega⟩ (by intro x hx; simp at hx; omega) (by simp) (by simp)
          rw [held_run] at s3
          refine ⟨[flushToken w { pending := [v], rc := e.rc + 1 }], by simp, by simpa using s2, ?_⟩
          refine h.emit _ s1 ?_ ?_ ?_ ?_
          · rw [s3, hheld]
            simp [List.replicate_succ]
          · intro hh
            have := s4 hh
            simp at this
          · rw [s3, ← helems, hheld]
            simp [held, encEmpty, List.replicate_succ']
          · intro hlt
            rw [s3] at hlt
            simp at hlt
            omega
        · simp only [if_neg hthr]
          refine ⟨[], by simp, rfl, ?_⟩
          rw [List.append_nil]
          refine ⟨h.data, h.chain, ?_, ?_⟩
          · rw [held_run, ← helems, hheld]
            simp [List.replicate_succ']
          · intro a ha hlt
            obtain ⟨_, l2, _⟩ := h.link a ha hlt
            rw [held_run]
            refine ⟨by simp, ?_, fun _ => by simp⟩
            rw [hheld] at l2
            simpa [List.replicate_succ] using l2
    · simp only [if_neg hvt]
      by_cases hrc : 0 < e.rc
      · simp only [if_pos hrc]
        obtain ⟨a, hpa⟩ := List.length_eq_one_iff.mp (h1.resolve_left (by omega))
        have hat : a = t := by simpa [hpa] using hl
        obtain ⟨s1, s2, s3, s4⟩ := flushToken_spec w e ⟨h1, by omega, by omega⟩ hfit h4 hne
        have hheld : held e = List.replicate (e.rc + 1) a := by
          rw [← held_run, ← hpa]
        refine ⟨[flushToken w e], by simp, by simpa using s2, ?_⟩
        refine h.emit _ s1 (by rw [s3]) s4 ?_ ?_
        · rw [held_literal, s3, helems]
        · intro _
          rw [held_literal, s3, hheld]
          refine ⟨by simp, ?_, ?_⟩
          · rw [List.replicate_succ', List.getLast?_concat, List.head?_cons]
            intro heq
            exact hvt (by rw [← hat]; exact (Option.some.inj heq).symm)
          · intro hh
            have := s4 hh
            omega
      · have hz : e.rc = 0 := by omega
        have hheld : held e = e.pending := by simp [held, hz]
        simp only [if_neg hrc]
        by_cases hlit : e.pending.length + 1 = (hardwarePolicy w).maxLit
        · simp only [if_pos hlit]
          have h4' : AdjacentDistinct (e.pending ++ [v]) := by
            rw [AdjacentDistinct, List.isChain_append]
            refine ⟨h4, by simp, ?_⟩
            intro x hx y hy
            rw [hl] at hx
            simp at hx hy
            omega
          obtain ⟨s1, s2, s3, s4⟩ := flushToken_spec w { pending := e.pending ++ [v], rc := 0 }
            ⟨Or.inl rfl, by simp; omega, by simp; omega⟩
            (by
              intro x hx
              simp at hx
              rcases hx with hx | hx
              · exact hfit x hx
              · omega) h4' (by simp)
          rw [held_literal] at s3
          refine ⟨[flushToken w { pending := e.pending ++ [v], rc := 0 }], by simp, by simpa using s2, ?_⟩
          refine h.emit _ s1 ?_ (fun _ => hz) ?_ ?_
          · rw [s3, hheld, List.head?_append_of_ne_nil _ hne]
          · rw [s3, ← helems, hheld]
            simp [held, encEmpty]
          · intro hlt
            rw [s3] at hlt
            simp at hlt
            omega
        · simp only [if_neg hlit]
          refine ⟨[], by simp, rfl, ?_⟩
          rw [List.append_nil]
          refine ⟨h.data, h.chain, ?_, ?_⟩
          · rw [held_literal, ← helems, hheld]
            simp
          · intro a ha hlt
            obtain ⟨_, l2, l3⟩ := h.link a ha hlt
            rw [held_literal]
            refine ⟨by simp, ?_, ?_⟩
            · rw [List.head?_append_of_ne_nil _ hne, ← hheld]
              exact l2
            · intro hh
              have := l3 hh
              omega

/-- All the elements of a plane. -/
theorem Emitting.addAll {w : Width} (vs : List Nat) {toks : List Instr} {e : Enc} {es : List Nat}
    (h : Emitting w toks e es) (hi : EncInv (hardwarePolicy w) e) (hfit : ElementsFit w e.pending)
    (hv : ElementsFit w vs) :
    ∃ new, (addAllWords (hardwarePolicy w) vs e).1 = new.flatMap encodeWords
      ∧ Emitting w (toks ++ new) (addAllWords (hardwarePolicy w) vs e).2 (es ++ vs) := by
  induction vs generalizing toks e es with
  | nil => exact ⟨[], rfl, by simpa [addAllWords] using h⟩
  | cons v vs ih =>
    have hv1 : v < elemLimit w := hv v (by simp)
    obtain ⟨new, _, hn1, hn2⟩ := h.add v hi hfit hv1
    obtain ⟨new', hn3, hn4⟩ := ih hn2 (addWords_inv _ v e (hardwarePolicy_ok w) hi)
      (addWords_fit (hardwarePolicy w) v e hv1 hfit) (fun x hx => hv x (by simp [hx]))
    refine ⟨new ++ new', ?_, ?_⟩
    · simp [addAllWords, hn1, hn3]
    · simpa [addAllWords] using hn4

theorem emitting_start (w : Width) : Emitting w [] encEmpty [] where
  data := by simp
  chain := by simp
  elems := rfl
  link := by simp

/-- The words of a plane are the words of tokens for its elements, and a terminator. -/
theorem planeWords_tokens (w : Width) (es : List Nat) (hv : ElementsFit w es) :
    ∃ toks, TokensFor w toks es ∧ planeWords (hardwarePolicy w) es = toks.flatMap encodeWords ++ [0] := by
  have hp := hardwarePolicy_ok w
  have hi0 := encInv_empty _ hp
  have hf0 : ElementsFit w encEmpty.pending := fun x hx => by simp [encEmpty] at hx
  obtain ⟨toks, ht1, ht2⟩ := (emitting_start w).addAll es hi0 hf0 hv
  rw [List.nil_append, List.nil_append] at ht2
  have hinv := addAllWords_inv (hardwarePolicy w) es encEmpty hp hi0
  have hfit := addAllWords_fit (hardwarePolicy w) es encEmpty hv hf0
  have hr : planeWords (hardwarePolicy w) es = (addAllWords (hardwarePolicy w) es encEmpty).1
      ++ flushWords (hardwarePolicy w) (addAllWords (hardwarePolicy w) es encEmpty).2 ++ [0] := rfl
  generalize addAllWords (hardwarePolicy w) es encEmpty = r at ht1 ht2 hinv hfit hr
  by_cases hne : r.2.pending = []
  · have hz : r.2.rc = 0 := hinv.1.1.resolve_right (by simp [hne])
    have hheld : held r.2 = [] := by simp [held, hz, hne]
    have hfw : flushWords (hardwarePolicy w) r.2 = [] := by simp [flushWords, hz, hne]
    refine ⟨toks, ⟨ht2.data, ht2.chain, ?_⟩, ?_⟩
    · have := ht2.elems
      rwa [hheld, List.append_nil] at this
    · rw [hr, ht1, hfw, List.append_nil]
  · obtain ⟨s1, s2, s3, s4⟩ := flushToken_spec w r.2 hinv.flushOk hfit hinv.1.2 hne
    refine ⟨toks ++ [flushToken w r.2], ⟨?_, ?_, ?_⟩, ?_⟩
    · intro i hi
      rcases List.mem_append.mp hi with hi | hi
      · exact ht2.data i hi
      · simp at hi
        subst hi
        exact s1
    · rw [List.isChain_append]
      refine ⟨ht2.chain, by simp, ?_⟩
      intro a ha b hb hlt
      simp at hb
      subst hb
      obtain ⟨_, l2, l3⟩ := ht2.link a ha hlt
      refine ⟨by rw [s3]; exact l2, fun hh => ?_⟩
      have := l3 hh.1
      have := s4 hh.2
      omega
    · simpa [s3] using ht2.elems
    · rw [hr, ht1, s2]
      simp

/-- A token has at most two words for each element it stands for (R133). -/
theorem encodeWords_length_le (w : Width) (i : Instr) (h : DataToken w i) :
    (encodeWords i).length ≤ 2 * (tokenElements i).length := by
  obtain ⟨_, hwf, hk, _⟩ := h
  cases i <;> simp [isRunToken, isLiteralToken, tokenView] at hk <;>
    simp [encodeWords, tokenElements, tokenView, Instr.wellFormed] at hwf ⊢ <;> omega

theorem flatMap_words_length_le (w : Width) (toks : List Instr) (h : ∀ i ∈ toks, DataToken w i) :
    (toks.flatMap encodeWords).length ≤ 2 * (toks.flatMap tokenElements).length := by
  induction toks with
  | nil => simp
  | cons i toks ih =>
    have h1 := encodeWords_length_le w i (h i (by simp))
    have h2 := ih fun j hj => h j (by simp [hj])
    simp only [List.flatMap_cons, List.length_append]
    omega

/-- A plane puts at most two words for each element and one terminator (R133). -/
theorem planeWords_length_le (w : Width) (es : List Nat) (hv : ElementsFit w es) :
    (planeWords (hardwarePolicy w) es).length ≤ 2 * es.length + 1 := by
  obtain ⟨toks, ht, hw⟩ := planeWords_tokens w es hv
  have := flatMap_words_length_le w toks ht.1
  rw [ht.2.2] at this
  rw [hw]
  simp only [List.length_append, List.length_singleton]
  omega

theorem encode_of_width (w : Width) (o : ByteOrder) (i : Instr) (h : tokenWidth? i = some w) :
    encode o i = serialiseAll w o (encodeWords i) := by
  simp [encode, h]

theorem serialiseAll_tokens (w : Width) (o : ByteOrder) (toks : List Instr) (h : ∀ i ∈ toks, tokenWidth? i = some w) :
    serialiseAll w o (toks.flatMap encodeWords) = toks.flatMap (encode o) := by
  induction toks with
  | nil => rfl
  | cons i toks ih =>
    rw [List.flatMap_cons, List.flatMap_cons, serialiseAll_append, ih fun j hj => h j (by simp [hj]),
      encode_of_width w o i (h i (by simp))]

/-- The bytes of a plane encode its elements (R53, R68, R101). -/
theorem planeWords_encodes (w : Width) (o : ByteOrder) (es : List Nat) (hv : ElementsFit w es) :
    EncodesPlane w o es (serialiseAll w o (planeWords (hardwarePolicy w) es)) := by
  obtain ⟨toks, ht, hw⟩ := planeWords_tokens w es hv
  refine ⟨toks, ht, ?_⟩
  rw [hw, serialiseAll_append, serialiseAll_tokens w o toks fun i hi => (ht.1 i hi).1]
  have : encode o (termToken w) = serialiseAll w o [0] := by
    cases w <;> rfl
  rw [this]

/-! ### Streams -/

/-- The length of a plane in closed form (R104): the first `l mod n` planes are one element longer. -/
theorem planeLength_eq (n l p : Nat) (hp : p < n) : planeLength n l p = l / n + if p < l % n then 1 else 0 := by
  have hn : 0 < n := by omega
  have hdm := Nat.div_add_mod l n
  have hm := Nat.mod_lt l hn
  generalize hq : l / n = q at hdm ⊢
  generalize hr : l % n = r at hdm hm ⊢
  unfold planeLength
  split
  · rename_i hlt
    rw [show l - p + n - 1 = (r - p - 1) + n * (q + 1) by rw [Nat.mul_succ]; omega, Nat.add_mul_div_left _ _ hn,
      Nat.div_eq_of_lt (by omega), Nat.zero_add]
  · rename_i hge
    cases q with
    | zero =>
      rw [Nat.mul_zero, Nat.zero_add] at hdm
      rw [show l - p = 0 by omega, Nat.zero_add, Nat.div_eq_of_lt (by omega)]
    | succ q =>
      rw [Nat.mul_succ] at hdm
      rw [show l - p + n - 1 = (n - 1 - (p - r)) + n * (q + 1) by rw [Nat.mul_succ]; omega,
        Nat.add_mul_div_left _ _ hn, Nat.div_eq_of_lt (by omega)]
      omega

theorem sum_range_lt (n r : Nat) (h : r ≤ n) : ((List.range n).map fun p => if p < r then 1 else 0).sum = r := by
  induction n generalizing r with
  | zero => simp; omega
  | succ n ih =>
    rw [List.range_succ, List.map_append, List.sum_append]
    by_cases hc : r ≤ n
    · rw [ih r hc]
      simp
      omega
    · have hr : r = n + 1 := by omega
      subst hr
      have : (List.range n).map (fun p => if p < n + 1 then 1 else 0)
          = (List.range n).map fun p => if p < n then 1 else 0 := by
        apply List.map_congr_left
        intro p hp
        have := List.mem_range.mp hp
        rw [if_pos (by omega), if_pos this]
      rw [this, ih n (Nat.le_refl n)]
      simp

/-- Every element belongs to one plane (R108). -/
theorem sum_planeLength (n l : Nat) (hn : 1 ≤ n) : ((List.range n).map fun p => planeLength n l p).sum = l := by
  have h1 : (List.range n).map (fun p => planeLength n l p)
      = (List.range n).map fun p => l / n + if p < l % n then 1 else 0 := by
    apply List.map_congr_left
    intro p hp
    exact planeLength_eq n l p (List.mem_range.mp hp)
  have h2 : ∀ (xs : List Nat) (f g : Nat → Nat), (xs.map fun p => f p + g p).sum = (xs.map f).sum + (xs.map g).sum := by
    intro xs f g
    induction xs with
    | nil => rfl
    | cons x xs ih => simp only [List.map_cons, List.sum_cons, ih]; omega
  rw [h1, h2 _ (fun _ => l / n), sum_range_lt n (l % n) (Nat.le_of_lt (Nat.mod_lt l hn))]
  simp only [List.map_const', List.sum_replicate, List.length_range, smul_eq_mul]
  exact Nat.div_add_mod l n

theorem planesWords_eq (pol : Policy) (plane : Nat → List Nat) (count p : Nat) :
    planesWords pol plane count p = (List.range count).flatMap fun j => planeWords pol (plane (p + j)) := by
  induction count generalizing p with
  | zero => rfl
  | succ count ih =>
    rw [planesWords, ih, List.range_succ_eq_map, List.flatMap_cons, List.flatMap_map]
    simp only [Nat.add_zero]
    congr 2
    funext j
    rw [show p + 1 + j = p + j.succ by omega]

theorem planeElements_fit (w : Width) (n p : Nat) (es : List Nat) (h : ElementsFit w es) :
    ElementsFit w (planeElements n p es) := by
  intro x hx
  obtain ⟨j, _, rfl⟩ := List.mem_map.mp hx
  rw [List.getD_eq_getElem?_getD]
  cases hg : es[p + j * n]? with
  | none => rw [Option.getD_none, elemLimit_eq]; exact Nat.pow_pos (by decide)
  | some y => exact h y (List.mem_of_getElem? hg)

theorem elementsOf_fit (w : Width) (o : ByteOrder) (bs : List Byte) : ElementsFit w (elementsOf w o bs) := by
  intro x hx
  obtain ⟨i, _, rfl⟩ := List.mem_map.mp hx
  refine Nat.lt_of_lt_of_le (assemble_lt o _) ?_
  rw [elemLimit_eq]
  exact Nat.pow_le_pow_right (by decide) (by rw [List.length_take]; omega)

/-- All planes together put at most two words for each element and `n` terminators (R133). -/
theorem planesWords_length_le (w : Width) (n : Nat) (es : List Nat) (hn : 1 ≤ n) (hv : ElementsFit w es) :
    (planesWords (hardwarePolicy w) (fun p => planeElements n p es) n 0).length ≤ 2 * es.length + n := by
  have key : ∀ ps : List Nat, (ps.flatMap fun p => planeWords (hardwarePolicy w) (planeElements n p es)).length
      ≤ 2 * (ps.map fun p => planeLength n es.length p).sum + ps.length := by
    intro ps
    induction ps with
    | nil => simp
    | cons p ps ih =>
      have h := planeWords_length_le w _ (planeElements_fit w n p es hv)
      have hl : (planeElements n p es).length = planeLength n es.length p := by simp [planeElements]
      rw [hl] at h
      simp only [List.flatMap_cons, List.length_append, List.map_cons, List.sum_cons, List.length_cons]
      omega
  have h := key (List.range n)
  rw [sum_planeLength n es.length hn, List.length_range] at h
  rw [planesWords_eq]
  simpa using h

theorem serialiseAll_flatMap (w : Width) (o : ByteOrder) (xs : List Nat) (f : Nat → List Nat) :
    serialiseAll w o (xs.flatMap f) = (xs.map fun x => serialiseAll w o (f x)).flatten := by
  induction xs with
  | nil => rfl
  | cons x xs ih => rw [List.flatMap_cons, serialiseAll_append, ih]; simp

/-- The bytes of all planes are one stream (R53, R109). -/
theorem planesWords_encodes (w : Width) (o : ByteOrder) (n : Nat) (es : List Nat) (hv : ElementsFit w es) :
    EncodesStream w o n es
      (serialiseAll w o (planesWords (hardwarePolicy w) (fun p => planeElements n p es) n 0)) := by
  refine ⟨(List.range n).map fun p => serialiseAll w o (planeWords (hardwarePolicy w) (planeElements n p es)), ?_, ?_, ?_⟩
  · simp
  · rw [planesWords_eq, serialiseAll_flatMap]
    simp
  · intro p hp
    have : ((List.range n).map fun p => serialiseAll w o (planeWords (hardwarePolicy w) (planeElements n p es))).getD p []
        = serialiseAll w o (planeWords (hardwarePolicy w) (planeElements n p es)) := by
      simp [hp]
    rw [this]
    exact planeWords_encodes w o _ (planeElements_fit w n p es hv)

end Sys2Proof.Machine
end

