-- ==== Sys2Proof/Laws/Block.lean ====
section
/-! SUPPORT. Block control once and for all: how a load, a padding, an open and an accepted invocation end. -/

namespace Sys2Proof.Machine

/-- The padding completes the last element (R124). -/
theorem padCount_spec (w : Width) (len : Nat) :
    padCount w len < widthBytes w
      ∧ (len + padCount w len) / widthBytes w = (len + widthBytes w - 1) / widthBytes w
      ∧ (len + padCount w len) / widthBytes w * widthBytes w = len + padCount w len := by
  unfold padCount
  cases w <;> simp only [widthBytes] <;> omega

/-- The state in which an accepted invocation, its load and its open answered with success, starts to encode (R122). -/
def State.prepared (s : State) (w : Width) : State :=
  { s with
    sink :=
      { out := if s.cfg.append then s.sink.out else []
        out0len := (if s.cfg.append then s.sink.out else []).length }
    res :=
      { resReset with
        st := .busy
        origSize := s.cfg.len
        paddedSize := s.cfg.len + padCount w s.cfg.len
        padOccurred := decide (padCount w s.cfg.len ≠ 0) }
    inb :=
      { cells := Memory.ofBytes 0 (paddedInput w s)
        size := s.cfg.len + padCount w s.cfg.len
        elems := logicalLength w s }
    env :=
      { s.env with
        loaded := some (s.env.input.take s.cfg.len)
        loads := s.env.loads.drop 1
        opens := s.env.opens.drop 1 } }

theorem nextLoad_eq (s : State) :
    (nextLoad s).2 = { s with env := { s.env with loads := s.env.loads.drop 1 } } := by
  unfold nextLoad
  cases h : s.env.loads with
  | nil => simp; rw [← h]
  | cons a as => simp

theorem nextOpen_eq (s : State) :
    (nextOpen s).2 = { s with env := { s.env with opens := s.env.opens.drop 1 } } := by
  unfold nextOpen
  cases h : s.env.opens with
  | nil => simp; rw [← h]
  | cons a as => simp

theorem nextLoad_fst (s : State) : (nextLoad s).1 = s.env.loads.headD (.attempt true true) := by
  unfold nextLoad
  cases s.env.loads <;> rfl

theorem nextOpen_fst (s : State) : (nextOpen s).1 = s.env.opens.headD .opened := by
  unfold nextOpen
  cases s.env.opens <;> rfl

/-- An accepted invocation whose load and open succeed is the encoding of the prepared state (R122). -/
theorem runInvocation_ready (w : Width) (s : State) (h : ReadyToRun w s) :
    runInvocation s = (encodePlanes (s.prepared w)).andThen fun s => .cont s.endRun := by
  obtain ⟨hb, hw, hn, hlen, hl, ho⟩ := h
  rw [nextLoad_fst] at hl
  rw [nextOpen_fst] at ho
  have hc : checkConfig s.beginRun = .cont s.beginRun := by
    unfold checkConfig
    rw [show s.beginRun.cfg = s.cfg from rfl, hw]
    simp only []
    rw [if_neg (by omega)]
  have hload : loadInput s.beginRun = .cont ({ s.beginRun with env := { s.env with loads := s.env.loads.drop 1, loaded := some (s.env.input.take s.cfg.len) } }) := by
    unfold loadInput
    have h1 : nextLoad s.beginRun = (.attempt true true, { s.beginRun with env := { s.env with loads := s.env.loads.drop 1 } }) := by
      apply Prod.ext
      · rw [nextLoad_fst]; exact hl
      · rw [nextLoad_eq]; rfl
    rw [h1]
    simp only []
    rw [if_neg (by simp), if_neg (by simp [State.beginRun]; omega)]
    rfl
  unfold runInvocation
  rw [hc, andThen_cont, hload, andThen_cont]
  have hpad : ∀ t : State, t.cfg = s.cfg → t.env.loaded = some (s.env.input.take s.cfg.len) →
      padInput t = .cont ((t.setInput (paddedInput w s) (logicalLength w s)).setSizes s.cfg.len (s.cfg.len + padCount w s.cfg.len)) := by
    intro t h1 h2
    unfold padInput withWidth
    rw [h1, hw, h2]
    simp only []
    rw [if_pos (by simp; omega)]
    unfold padBytes
    rw [h1]
    rfl
  rw [hpad _ (by rfl) (by rfl), andThen_cont]
  have hopen : ∀ t : State, t.env.opens = s.env.opens →
      openSink t = .cont (({ t with env := { t.env with opens := t.env.opens.drop 1 } } : State).truncateForOpen.markOpen.setEncoded 0) := by
    intro t h1
    unfold openSink
    have h2 : nextOpen t = (.opened, { t with env := { t.env with opens := t.env.opens.drop 1 } }) := by
      apply Prod.ext
      · rw [nextOpen_fst, h1]; exact ho
      · rw [nextOpen_eq]
    rw [h2]
  rw [hopen _ (by rfl), andThen_cont]
  congr 2
  have hsz : (paddedInput w s).length = s.cfg.len + padCount w s.cfg.len := by simp [paddedInput]; omega
  cases hap : s.cfg.append <;>
    simp [State.truncateForOpen, State.markOpen, State.setEncoded, State.setSizes, State.setInput, State.beginRun, State.prepared, hap, hsz, resReset]

/-- At its end an operation meets `P`; ended early by an error or a block reset, `R`. Stops are not seen. -/
def Flow.Ends (x : Flow) (P R : State → Prop) : Prop :=
  match x with
  | .cont t => P t
  | .raised t => R t
  | .abandoned t => R t
  | .faulted _ => True
  | .stuck _ => True

theorem Flow.Ends.andThen {x : Flow} {k : State → Flow} {P Q R : State → Prop} (hx : x.Ends P R)
    (hk : ∀ t, P t → (k t).Ends Q R) : (x.andThen k).Ends Q R := by
  cases x with
  | cont t => exact hk t hx
  | raised t => exact hx
  | abandoned t => exact hx
  | faulted f => trivial
  | stuck r => trivial

theorem Flow.Ends.next {x : Flow} {P R : State → Prop} {t : State} (h : x.Ends P R) (hx : x.outcome = .next t) :
    P t ∨ R t := by
  cases x with
  | cont u => simp at hx; subst hx; exact .inl h
  | raised u => simp at hx; subst hx; exact .inr h
  | abandoned u => simp at hx; subst hx; exact .inr h
  | faulted f => simp at hx
  | stuck r => simp at hx

theorem Flow.SinkSpec.ends {x : Flow} {s : State} {R P P' R' : State → Prop} (h : x.SinkSpec s R P)
    (h1 : ∀ t, SinkFrame s t → SameStatus s t → P t → P' t)
    (h2 : ∀ t, SinkFrame s t → WriteFailed t → R t → R' t)
    (h3 : ∀ u, (∃ k, WriteAnswer.reset k ∈ s.env.writes) → SinkFrame s u → R u → R' (blockReset u)) : x.Ends P' R' := by
  cases x with
  | cont t => exact h1 t h.1 h.2.1 h.2.2
  | raised t => exact h2 t h.1 h.2.1 h.2.2
  | abandoned t => obtain ⟨hl, u, hu, hr, rfl⟩ := h; exact h3 u hl hu hr
  | faulted f => trivial
  | stuck r => trivial

/-- What a successful load leaves in the driver's hands (R125). -/
theorem loadInput_cases (s : State) :
    (∃ env, loadInput s = .cont { s with env := env } ∧ env.loaded = some (s.env.input.take s.cfg.len)
        ∧ s.cfg.len ≤ s.env.input.length ∧ env.nativeOrder = s.env.nativeOrder ∧ env.input = s.env.input
        ∧ env.opens = s.env.opens ∧ env.writes = s.env.writes ∧ env.loads = s.env.loads.drop 1)
      ∨ (∃ env k c, loadInput s = .raised (raiseError k c { s with env := env })
        ∧ (k = .resourceExhaustion ∧ c = none ∨ k = .ioFailure ∧ c = some .input)
        ∧ env.nativeOrder = s.env.nativeOrder ∧ env.input = s.env.input ∧ env.opens = s.env.opens
        ∧ env.writes = s.env.writes ∧ env.loads = s.env.loads.drop 1)
      ∨ (∃ env, loadInput s = .abandoned (blockReset { s with env := env })
        ∧ env.nativeOrder = s.env.nativeOrder ∧ env.input = s.env.input ∧ env.opens = s.env.opens
        ∧ env.writes = s.env.writes ∧ LoadAnswer.reset ∈ s.env.loads) := by
  unfold loadInput
  have h1 := nextLoad_fst s
  have h2 := nextLoad_eq s
  cases hh : nextLoad s with
  | mk a t =>
    rw [hh] at h1 h2
    simp only at h1 h2
    subst h2
    cases a with
    | attempt alloc read =>
      cases alloc with
      | false => exact .inr (.inl ⟨_, _, _, rfl, .inl ⟨rfl, rfl⟩, rfl, rfl, rfl, rfl, rfl⟩)
      | true =>
        simp only [Bool.true_eq_false, if_false]
        split
        · exact .inr (.inl ⟨_, _, _, rfl, .inr ⟨rfl, rfl⟩, rfl, rfl, rfl, rfl, rfl⟩)
        · rename_i h
          exact .inl ⟨_, rfl, rfl, by simp at h; exact h.2, rfl, rfl, rfl, rfl, rfl⟩
    | reset =>
      refine .inr (.inr ⟨_, rfl, rfl, rfl, rfl, rfl, ?_⟩)
      cases hl : s.env.loads with
      | nil => rw [hl] at h1; simp at h1
      | cons a as => rw [hl] at h1; simp at h1; simp [h1]

/-- How an open can end (R111). -/
theorem openSink_cases (s : State) :
    (∃ out, openSink s = .cont { s with
          sink := { out := out, out0len := out.length }
          res := { s.res with encodedBytes := 0 }
          env := { s.env with opens := s.env.opens.drop 1 } }
        ∧ out = (if s.cfg.append then s.sink.out else []))
      ∨ (∃ out, openSink s = .raised (raiseError .ioFailure (some .openSink)
          { s with sink := { s.sink with out := out }, env := { s.env with opens := s.env.opens.drop 1 } })
        ∧ (out = s.sink.out ∨ s.cfg.append = false ∧ out = []))
      ∨ (∃ out b, openSink s = .abandoned (blockReset
          { s with sink := { s.sink with out := out }, env := { s.env with opens := s.env.opens.drop 1 } })
        ∧ (out = s.sink.out ∨ s.cfg.append = false ∧ out = []) ∧ OpenAnswer.reset b ∈ s.env.opens) := by
  unfold openSink
  have h1 := nextOpen_fst s
  have h2 := nextOpen_eq s
  cases hh : nextOpen s with
  | mk a t =>
    rw [hh] at h1 h2
    simp only at h1 h2
    subst h2
    cases a with
    | opened =>
      refine .inl ⟨_, ?_, rfl⟩
      cases hap : s.cfg.append <;> simp [State.truncateForOpen, hap, State.markOpen, State.setEncoded]
    | refused b =>
      refine .inr (.inl ?_)
      cases hap : s.cfg.append <;> cases b
      · exact ⟨s.sink.out, by simp, .inl rfl⟩
      · exact ⟨[], by simp [State.truncateForOpen, hap], .inr ⟨rfl, rfl⟩⟩
      · exact ⟨s.sink.out, by simp, .inl rfl⟩
      · exact ⟨s.sink.out, by simp [State.truncateForOpen, hap], .inl rfl⟩
    | reset b =>
      refine .inr (.inr ?_)
      have hm : OpenAnswer.reset b ∈ s.env.opens := by
        cases hl : s.env.opens with
        | nil => rw [hl] at h1; simp at h1
        | cons a as => rw [hl] at h1; simp at h1; simp [h1]
      cases hap : s.cfg.append <;> cases b
      · exact ⟨s.sink.out, false, by simp, .inl rfl, hm⟩
      · exact ⟨[], true, by simp [State.truncateForOpen, hap], .inr ⟨rfl, rfl⟩, hm⟩
      · exact ⟨s.sink.out, false, by simp, .inl rfl, hm⟩
      · exact ⟨s.sink.out, true, by simp [State.truncateForOpen, hap], .inl rfl, hm⟩

/-- The input buffer `BLK.PAD` makes of loaded bytes (R124). -/
def paddedBuffer (w : Width) (bs : List Byte) : InBuf :=
  { cells := Memory.ofBytes 0 (bs ++ List.replicate (padCount w bs.length) 0)
    size := bs.length + padCount w bs.length
    elems := (bs.length + padCount w bs.length) / widthBytes w }

theorem paddedBuffer_whole (w : Width) (bs : List Byte) : InputWhole w (paddedBuffer w bs) :=
  (padCount_spec w bs.length).2.2.symm

theorem paddedBuffer_bytes (w : Width) (bs : List Byte) :
    inputBytes (paddedBuffer w bs) = bs ++ List.replicate (padCount w bs.length) 0 := by
  have := Memory.readBytes_ofBytes (bs ++ List.replicate (padCount w bs.length) 0)
  rw [List.length_append, List.length_replicate] at this
  exact this

theorem paddedBuffer_wf (w : Width) (bs : List Byte) :
    Memory.wf (paddedBuffer w bs).cells = true ∧ ∀ c ∈ (paddedBuffer w bs).cells, c.1 < (paddedBuffer w bs).size := by
  refine ⟨Memory.wf_ofBytes _, ?_⟩
  intro c hc
  have := Memory.addr_ofBytes _ _ c hc
  simp [paddedBuffer] at this ⊢
  omega

/-- `BLK.PAD` on loaded bytes (R124). -/
theorem padInput_loaded (w : Width) (s : State) (bs : List Byte) (hw : widthOf? s.cfg.width = some w)
    (hl : s.env.loaded = some bs) (hlen : bs.length = s.cfg.len) :
    padInput s = .cont { s with
      inb := paddedBuffer w bs
      res :=
        { s.res with
          origSize := bs.length
          paddedSize := bs.length + padCount w bs.length
          padOccurred := decide (padCount w bs.length ≠ 0) } } := by
  unfold padInput withWidth
  rw [hw, hl]
  simp only []
  rw [if_pos hlen]
  simp [padBytes, State.setInput, State.setSizes, paddedBuffer, ← hlen]


/-- `BLK.PAD` with no loaded input of `LEN` bytes runs on a free one of that length (R124, log 12). -/
theorem padInput_free (w : Width) (s : State) (hw : widthOf? s.cfg.width = some w)
    (hl : ∀ bs, s.env.loaded = some bs → bs.length ≠ s.cfg.len) :
    padInput s = .cont { s with
      inb := paddedBuffer w (freeInputBytes s)
      res :=
        { s.res with
          origSize := s.cfg.len
          paddedSize := s.cfg.len + padCount w s.cfg.len
          padOccurred := decide (padCount w s.cfg.len ≠ 0) }
      freeCount := s.freeCount + 1 } := by
  have hlen : (freeInputBytes s).length = s.cfg.len := by simp [freeInputBytes]
  unfold padInput withWidth
  rw [hw]
  simp only []
  split
  · simp [padBytes, State.setInput, State.setSizes, paddedBuffer, hlen]
  · rename_i bs hbs
    rw [if_neg (hl bs hbs)]
    simp [padBytes, State.setInput, State.setSizes, paddedBuffer, hlen]

/-- How `BLK.PAD` can end (R124): refused at an illegal width, or done on `LEN` bytes. -/
theorem padInput_cases (s : State) :
    widthOf? s.cfg.width = none ∧ padInput s = .stuck .illegalWidth
      ∨ ∃ w bs c, widthOf? s.cfg.width = some w ∧ bs.length = s.cfg.len
        ∧ padInput s = .cont { s with
          inb := paddedBuffer w bs
          res :=
            { s.res with
              origSize := s.cfg.len
              paddedSize := s.cfg.len + padCount w s.cfg.len
              padOccurred := decide (padCount w s.cfg.len ≠ 0) }
          freeCount := c } := by
  cases hw : widthOf? s.cfg.width with
  | none => exact .inl ⟨rfl, by simp [padInput, withWidth, hw]⟩
  | some w =>
    right
    by_cases h : ∃ bs, s.env.loaded = some bs ∧ bs.length = s.cfg.len
    · obtain ⟨bs, h1, h2⟩ := h
      exact ⟨w, bs, s.freeCount, rfl, h2, by rw [padInput_loaded w s bs hw h1 h2, h2]⟩
    · exact ⟨w, freeInputBytes s, s.freeCount + 1, rfl, by simp [freeInputBytes],
        padInput_free w s hw fun l h1 h2 => h ⟨l, h1, h2⟩⟩

/-- Each plane puts at least its terminator (R133). -/
theorem planesWords_length_ge (pol : Policy) (f : Nat → List Nat) (c p : Nat) : c ≤ (planesWords pol f c p).length := by
  induction c generalizing p with
  | zero => simp
  | succ c ih => have := ih (p+1); simp [planesWords, planeWords]; omega

end Sys2Proof.Machine
end

