-- ==== Sys2Proof/Laws/Reader.lean ====
section
/-! SUPPORT. The reference reader: the tokens by width, the interleaving of planes, and runs of the machine. -/

namespace Sys2Proof.Machine

/-- The nine tokens by width (R55, R56, R57). -/
theorem exec_runToken (w : Width) (k v : Nat) (s : State) (hk : k < runFlagOf w) (hv : v < elemLimit w) :
    exec (runToken w k v) s = (readRun w k v s).outcome := by
  cases w <;> simp_all [runToken, exec, execRunW1, execRunW2, execRunW4, runFlagOf, elemLimit, bitsOf, widthBytes, Nat.mod_eq_of_lt]

theorem map_ofNat_toNat (n : Nat) (vs : List Nat) (h : ∀ e ∈ vs, e < 2 ^ n) :
    (vs.map (BitVec.ofNat n)).map BitVec.toNat = vs := by
  rw [List.map_map]
  conv_rhs => rw [← List.map_id vs]
  apply List.map_congr_left
  intro a ha
  simp [Nat.mod_eq_of_lt (h a ha)]

theorem exec_litToken (w : Width) (vs : List Nat) (s : State) (hv : ElementsFit w vs) :
    exec (litToken w vs) s = (readLiteral w vs s).outcome := by
  cases w
  · exact congrArg (fun x => (readLiteral .w1 x s).outcome) (map_ofNat_toNat 8 vs hv)
  · exact congrArg (fun x => (readLiteral .w2 x s).outcome) (map_ofNat_toNat 16 vs hv)
  · exact congrArg (fun x => (readLiteral .w4 x s).outcome) (map_ofNat_toNat 32 vs hv)

theorem exec_termToken (w : Width) (s : State) : exec (termToken w) s = (readTerm w s).outcome := by
  cases w <;> rfl

theorem encode_length (o : ByteOrder) (w : Width) (i : Instr) (h : tokenWidth? i = some w) :
    (encode o i).length = (encodeWords i).length * widthBytes w := by
  rw [encode_of_width w o i h, serialiseAll_length]

/-- A run or literal token of the stream's width (R70). -/
theorem exec_dataToken (w : Width) (i : Instr) (s : State) (hrun : s.rd.running = true) (hw : s.rd.width = w)
    (ht : tokenWidth? i = some w) (hwf : i.wellFormed = true) (hk : (isRunToken i || isLiteralToken i) = true) :
    exec i s = .next (s.readElements (tokenElements i) (encodeWords i).length) := by
  rcases token_cases i w ht with ⟨k, v, hkl, hv, rfl, he⟩ | ⟨vs, hv, rfl, he⟩ | rfl
  · have hview := tokenView_runToken w k v hkl hv
    have h2 : 2 ≤ k := by cases w <;> simp_all [runToken, Instr.wellFormed, runFlagOf, bitsOf, widthBytes, Nat.mod_eq_of_lt]
    rw [exec_runToken w k v s hkl hv, he]
    simp [readRun, withPlane, hrun, hw, h2, tokenElements, hview]
  · have hview := tokenView_litToken w vs hv
    obtain ⟨h1, h2⟩ := (wellFormed_litToken_iff w vs).mp hwf
    rw [exec_litToken w vs s hv, he]
    simp [readLiteral, withPlane, hrun, hw, h1, h2, tokenElements, hview]
  · rw [isRunToken, isLiteralToken, tokenView_termToken] at hk
    simp at hk

/-- Where no token can be read the step is refused (R70). -/
theorem step_of_decode_error (s : State) (e : DecodeError) (hrun : s.rd.running = true)
    (h : decode s.rd.width s.rd.order (s.rd.bytes.drop s.rd.pos) = .error e) : step s = .refused .streamTruncated := by
  simp [step, hrun, fetchToken, h]

/-- A reader started with a plane to read stands before its first token. -/
theorem hostRead_planes (bs : List Byte) (n : Nat) (w : Width) (o : ByteOrder) (s : State) (hn : 1 ≤ n) :
    hostRead bs n w o s = .cont (startRead bs n w o s) := by
  unfold hostRead
  rw [if_pos (show (startRead bs n w o s).rd.running = true from decide_eq_true hn)]

/-- A reader started without a plane to read is at its end: `READ(bs, 0, W, EORD)` (R70). -/
theorem hostRead_no_plane (bs : List Byte) (w : Width) (o : ByteOrder) (s : State) :
    hostRead bs 0 w o s
      = if bs = [] then .cont ((startRead bs 0 w o s).answer (.elements [])) else .stuck .trailingBytes := by
  cases bs <;> rfl

/-- What starting the reader touches: the reader, and the returned result. -/
theorem hostRead_frame (bs : List Byte) (n : Nat) (w : Width) (o : ByteOrder) (s t : State)
    (h : (hostRead bs n w o s).outcome = .next t) : ∃ rd ret, t = { s with rd := rd, ret := ret } := by
  cases n with
  | zero =>
    rw [hostRead_no_plane] at h
    split at h <;> simp at h
    exact ⟨_, _, h.symm⟩
  | succ n =>
    rw [hostRead_planes bs (n + 1) w o s (by omega)] at h
    simp at h
    exact ⟨_, _, h.symm⟩

/-- The planes of `es` interleave to `es` (R70, R104). -/
theorem interleave_planes (n : Nat) (es : List Nat) (hn : 1 ≤ n) :
    let planes := (List.range n).map (fun p => planeElements n p es)
    totalLength planes = es.length ∧ planeLengthsOk n es.length planes = true ∧ interleave n es.length planes = es := by
  intro planes
  refine ⟨?_, ?_, ?_⟩
  · unfold totalLength
    rw [List.map_map]
    have := sum_planeLength n es.length hn
    rw [← this]; congr 1
    apply List.map_congr_left
    intro p _; simp [planeElements]
  · unfold planeLengthsOk
    rw [List.all_eq_true]
    intro p hp
    simp [planes] at hp
    simp [planes, hp, planeElements]
  · unfold interleave
    apply List.ext_getElem
    · simp
    · intro x h1 h2
      simp at h1
      have hm : x % n < n := Nat.mod_lt _ (by omega)
      have hdm := Nat.div_add_mod x n
      simp [planes, hm, planeElements]
      have hlt : x / n < planeLength n es.length (x % n) := by
        rw [planeLength_eq n es.length _ hm]
        have h3 := Nat.div_add_mod es.length n
        have h4 := Nat.mod_lt es.length (by omega : 0 < n)
        have h5 : x / n ≤ es.length / n := Nat.div_le_div_right (by omega)
        split
        · omega
        · rename_i hge
          rcases Nat.lt_or_eq_of_le h5 with h | h
          · omega
          · rw [h] at hdm; omega
      simp [hlt]
      have : x % n + x / n * n = x := by rw [Nat.mul_comm]; omega
      rw [this]; simp [h2]

/-- Serialising undoes the assembly of whole elements. -/
theorem serialiseAll_elementsOf (w : Width) (o : ByteOrder) (k : Nat) (bs : List Byte) (h : bs.length = k * widthBytes w) :
    serialiseAll w o (elementsOf w o bs) = bs := by
  induction k generalizing bs with
  | zero => simp at h; subst h; simp [elementsOf]
  | succ k ih =>
    have hw := widthBytes_pos w
    have hl : bs.length = widthBytes w + k * widthBytes w := by rw [h, Nat.succ_mul, Nat.add_comm]
    have hr : elementsOf w o bs = assemble o (bs.take (widthBytes w)) :: elementsOf w o (bs.drop (widthBytes w)) := by
      unfold elementsOf
      have h1 : bs.length / widthBytes w = k + 1 := by rw [h]; exact Nat.mul_div_cancel _ hw
      have h2 : (bs.drop (widthBytes w)).length / widthBytes w = k := by
        rw [List.length_drop, hl, Nat.add_sub_cancel_left]; exact Nat.mul_div_cancel _ hw
      rw [h1, h2, List.range_succ_eq_map, List.map_cons, List.map_map]
      simp [Function.comp_def, Nat.succ_mul, Nat.add_comm]
    rw [hr, serialiseAll_cons, serialise_of_assemble w o _ (by rw [List.length_take]; omega), ih _ (by rw [List.length_drop]; omega)]
    exact List.take_append_drop _ _

theorem run_succ (k : Nat) (s t : State) (h : step s = .next t) :
    Host.Core.run Sys2Proof.core (k + 1) s = Host.Core.run Sys2Proof.core k t := by
  simp [Host.Core.run, show Sys2Proof.core.step s = .next t from h]

theorem run_one (s : State) : Host.Core.run Sys2Proof.core 1 s = step s := by
  have h : Sys2Proof.core.step s = step s := rfl
  simp only [Host.Core.run, h]
  cases step s <;> rfl

theorem run_add (a b : Nat) (s t : State) (h : Host.Core.run Sys2Proof.core a s = .next t) :
    Host.Core.run Sys2Proof.core (a + b) s = Host.Core.run Sys2Proof.core b t := by
  induction a generalizing s with
  | zero =>
    injection h with h
    rw [h, Nat.zero_add]
  | succ a ih =>
    rw [Nat.succ_add]
    cases hs : step s with
    | next u =>
      rw [run_succ _ _ _ hs] at h ⊢
      exact ih u h
    | fault f => simp [Host.Core.run, show Sys2Proof.core.step s = .fault f from hs] at h
    | refused r => simp [Host.Core.run, show Sys2Proof.core.step s = .refused r from hs] at h

end Sys2Proof.Machine
end

