-- ==== Sys2Proof/Laws/Exec.lean ====
section
/-! SUPPORT. What whole instructions can do: tokens touch the reader alone, `POL` functions write nothing, the writers
are made of sink writes. -/

namespace Sys2Proof.Machine

/-- A token touches the reader and the returned result alone (log 2). -/
theorem exec_token_frame (i : Instr) (s t : State) (hu : unitOf i = .token) (h : exec i s = .next t) :
    ∃ rd ret, t = { s with rd := rd, ret := ret } := by
  have hp : ∀ (w : Width) (k : Flow), (∀ u, k.outcome = .next u → ∃ rd ret, u = { s with rd := rd, ret := ret }) →
      ∀ u, (withPlane w s k).outcome = .next u → ∃ rd ret, u = { s with rd := rd, ret := ret } := by
    intro w k hk u hu
    unfold withPlane at hu
    split at hu
    · split at hu
      · exact hk u hu
      · simp at hu
    · simp at hu
  have hrun : ∀ w k v, ∀ u, (readRun w k v s).outcome = .next u → ∃ rd ret, u = { s with rd := rd, ret := ret } := by
    intro w k v
    refine hp w _ ?_
    intro u hu
    split at hu
    · simp at hu; subst hu; exact ⟨_, _, rfl⟩
    · simp at hu
  have hlit : ∀ w vs, ∀ u, (readLiteral w vs s).outcome = .next u → ∃ rd ret, u = { s with rd := rd, ret := ret } := by
    intro w vs
    refine hp w _ ?_
    intro u hu
    split at hu
    · simp at hu; subst hu; exact ⟨_, _, rfl⟩
    · simp at hu
  have hterm : ∀ w, ∀ u, (readTerm w s).outcome = .next u → ∃ rd ret, u = { s with rd := rd, ret := ret } := by
    intro w
    refine hp w _ ?_
    intro u hu
    split at hu
    · simp at hu; subst hu; exact ⟨_, _, rfl⟩
    · unfold finishRead at hu
      split at hu
      · simp at hu
      · split at hu
        · simp at hu; subst hu; exact ⟨_, _, rfl⟩
        · simp at hu
  cases i <;> simp [unitOf] at hu
  case runW1 k v => exact hrun _ _ _ _ h
  case runW2 k v => exact hrun _ _ _ _ h
  case runW4 k v => exact hrun _ _ _ _ h
  case litW1 vs => exact hlit _ _ _ h
  case litW2 vs => exact hlit _ _ _ h
  case litW4 vs => exact hlit _ _ _ h
  case termW1 => exact hterm _ _ h
  case termW2 => exact hterm _ _ h
  case termW4 => exact hterm _ _ h

/-- A `POL` function returns a result and writes nothing (R71). -/
theorem exec_pol_frame (i : Instr) (s t : State) (hu : unitOf i = .pol) (h : exec i s = .next t) :
    ∃ r, t = s.answer r := by
  have hp : ∀ (w : Nat) (k : Width → Flow), (∀ x u, (k x).outcome = .next u → ∃ r, u = s.answer r) →
      ∀ u, (withOperandWidth w k).outcome = .next u → ∃ r, u = s.answer r := by
    intro w k hk u hu
    unfold withOperandWidth at hu
    split at hu
    · simp at hu
    · exact hk _ u hu
  cases i <;> simp [unitOf] at hu
  case polFmtRun w rc =>
    refine hp w _ ?_ t h
    intro x u hu
    split at hu
    · simp at hu; exact ⟨_, hu.symm⟩
    · simp at hu
  case polFmtLit w rc =>
    refine hp w _ ?_ t h
    intro x u hu
    split at hu
    · simp at hu; exact ⟨_, hu.symm⟩
    · simp at hu
  all_goals
    refine hp _ _ ?_ t h
    intro x u hu
    simp at hu
    exact ⟨_, hu.symm⟩

/-- An operation of ENC, PS, or a bare `SINK.PUT`, `SINK.TERM`, is made of sink writes. -/
theorem exec_writer_spec (i : Instr) (s : State)
    (hu : unitOf i = .enc ∨ unitOf i = .ps ∨ (∃ e, i = .sinkPut e) ∨ i = .sinkTerm) :
    ∃ x : Flow, exec i s = x.outcome
      ∧ x.SinkSpec s (fun t => unitOf i ≠ .ps → t.ps = s.ps)
        (fun t => (unitOf i ≠ .ps → t.ps = s.ps) ∧ (EncShape s.enc → EncShape t.enc))
      ∧ ((unitOf i = .enc ∨ unitOf i = .ps)
        ∨ x.SinkSpec s (fun t => t.enc = s.enc) (fun t => t.enc = s.enc)) := by
  have emp : ∀ t : State, t.enc = encEmpty → EncShape t.enc := by
    intro t h; rw [h]; exact ⟨.inl rfl, by simp [encEmpty]⟩
  generalize hSh : EncShape = Sh at emp ⊢
  cases i <;> simp [unitOf] at hu ⊢ <;> subst hSh
  case encReset =>
    refine ⟨.cont s.clearEnc, rfl, ?_⟩
    refine ⟨?_, ?_, rfl, fun _ => emp _ rfl⟩ <;> constructor <;> simp
  case encAdd v =>
    refine ⟨_, rfl, ?_⟩
    unfold withPolicy withWidth
    split
    · trivial
    · beta_reduce
      unfold withElement
      split
      · exact (addElement_spec _ v s).mono (fun _ h => h) fun t ht => ⟨ht.1, fun hs => by
          rw [ht.2.2 hs]; exact addWords_shape _ _ _ hs⟩
      · trivial
  case encFlush =>
    by_cases he : s.enc.isEmpty = true
    · exact ⟨.cont s, by simp [exec, execEncFlush, he], SinkFrame.refl s, SameStatus.refl s, rfl, id⟩
    · refine ⟨withPolicy s fun pol => flush pol s, by simp [exec, execEncFlush, he], ?_⟩
      unfold withPolicy withWidth
      split
      · trivial
      · exact (flush_spec _ s).mono (fun _ h => h) fun t ht => ⟨ht.2.1, fun _ => emp _ ht.1⟩
  case psPlane p =>
    refine ⟨_, rfl, ?_⟩
    split
    · exact (planeBody_spec _ p s).mono (fun _ _ => trivial) fun t ht => fun _ => emp _ ht.2
    · trivial
  case psEncode =>
    exact ⟨_, rfl, (encodePlanes_spec s).mono (fun _ _ => trivial) fun t ht => ht⟩
  case sinkPut e =>
    refine ⟨_, rfl, ?_⟩
    unfold withWidth
    split
    · exact ⟨trivial, trivial⟩
    · exact ⟨(put_spec _ e s).mono (fun _ h => h.ps) fun t ht => ⟨ht.ps, fun hs => by rw [ht.enc]; exact hs⟩,
        (put_spec _ e s).mono (fun _ h => h.enc) fun t ht => ht.enc⟩
  case sinkTerm =>
    refine ⟨_, rfl, ?_⟩
    unfold withWidth
    split
    · exact ⟨trivial, trivial⟩
    · exact ⟨(put_spec _ _ s).mono (fun _ h => h.ps) fun t ht => ⟨ht.ps, fun hs => by rw [ht.enc]; exact hs⟩,
        (put_spec _ _ s).mono (fun _ h => h.enc) fun t ht => ht.enc⟩

/-- With a plane to encode, `PS.ENCODE` leaves the encoder EMPTY (R102). -/
theorem encodeLoop_empty (n fuel : Nat) (s : State) (h : s.enc = encEmpty ∨ 0 < fuel ∧ s.ps.p < n) :
    (encodeLoop n fuel s).SinkSpec s (fun _ => True) fun t => t.enc = encEmpty := by
  induction fuel generalizing s with
  | zero => exact ⟨SinkFrame.refl s, SameStatus.refl s, h.resolve_right (by simp)⟩
  | succ fuel ih =>
    unfold encodeLoop
    split
    · refine Flow.SinkSpec.andThen ((planeBody_spec n s.ps.p s).mono (fun _ _ => trivial) fun t ht => ht) ?_
      rintro t ⟨_, ht⟩
      refine (ih (t.setP (t.ps.p + 1)) (.inl ht)).from ?_ ?_ <;> constructor <;> simp
    · rename_i hlt
      exact ⟨SinkFrame.refl s, SameStatus.refl s, h.resolve_right (fun hh => hlt hh.2)⟩

theorem encodePlanes_empty (s : State) (h : 1 ≤ s.cfg.nplanes) :
    (encodePlanes s).SinkSpec s (fun _ => True) fun t => t.enc = encEmpty := by
  unfold encodePlanes
  refine Flow.SinkSpec.from (encodeLoop_empty _ _ _ (.inr ⟨by omega, ?_⟩)) (s' := s.setP 0) ?_ ?_
  · show 0 < s.cfg.nplanes.toNat
    omega
  · constructor <;> simp
  · constructor <;> simp

end Sys2Proof.Machine
end

