-- ==== Sys2Proof/Laws/PerInstr.lean ====
section
/-! SUPPORT. One fact per instruction, for the host's case split: how many bytes an instruction has on the wire, and
which operations have none (30_encoding R55 to R58, R64). -/

namespace Sys2Proof.Laws.TokenLength

open Sys2Proof Sys2Proof.Machine

/-- The bytes of an instruction on the wire, in either order: two words for a run, the payload and one word for a
literal, one word for a terminator, none for an operation. -/
def Statement (i : Instr) : Prop :=
  ∀ o : ByteOrder,
    (encode o i).length
      = match tokenView i with
        | .run w _ _ => 2 * widthBytes w
        | .literal w vs => (vs.length + 1) * widthBytes w
        | .terminator w => widthBytes w
        | .operation => 0

theorem runW1 (k : BitVec 7) (v : BitVec 8) : Statement (.runW1 k v) := by
  intro o
  simp [encode, tokenWidth?, tokenView, encodeWords, Nat.two_mul]

theorem litW1 (vs : List (BitVec 8)) : Statement (.litW1 vs) := by
  intro o
  simp [encode, tokenWidth?, tokenView, encodeWords]
  rw [Nat.succ_mul, Nat.add_comm]

theorem termW1 : Statement .termW1 := by
  intro o
  simp [encode, tokenWidth?, tokenView, encodeWords]

theorem runW2 (k : BitVec 15) (v : BitVec 16) : Statement (.runW2 k v) := by
  intro o
  simp [encode, tokenWidth?, tokenView, encodeWords, Nat.two_mul]

theorem litW2 (vs : List (BitVec 16)) : Statement (.litW2 vs) := by
  intro o
  simp [encode, tokenWidth?, tokenView, encodeWords]
  rw [Nat.succ_mul, Nat.add_comm]

theorem termW2 : Statement .termW2 := by
  intro o
  simp [encode, tokenWidth?, tokenView, encodeWords]

theorem runW4 (k : BitVec 31) (v : BitVec 32) : Statement (.runW4 k v) := by
  intro o
  simp [encode, tokenWidth?, tokenView, encodeWords, Nat.two_mul]

theorem litW4 (vs : List (BitVec 32)) : Statement (.litW4 vs) := by
  intro o
  simp [encode, tokenWidth?, tokenView, encodeWords]
  rw [Nat.succ_mul, Nat.add_comm]

theorem termW4 : Statement .termW4 := by
  intro o
  simp [encode, tokenWidth?, tokenView, encodeWords]

theorem polKind (w : Nat) : Statement (.polKind w) := by
  intro o
  rfl

theorem polBits (w : Nat) : Statement (.polBits w) := by
  intro o
  rfl

theorem polCap (w : Nat) : Statement (.polCap w) := by
  intro o
  rfl

theorem polMaxrun (w : Nat) : Statement (.polMaxrun w) := by
  intro o
  rfl

theorem polMaxlit (w : Nat) : Statement (.polMaxlit w) := by
  intro o
  rfl

theorem polRunflag (w : Nat) : Statement (.polRunflag w) := by
  intro o
  rfl

theorem polFmtRun (w rc : Nat) : Statement (.polFmtRun w rc) := by
  intro o
  rfl

theorem polFmtLit (w n : Nat) : Statement (.polFmtLit w n) := by
  intro o
  rfl

theorem polFmtTerm (w : Nat) : Statement (.polFmtTerm w) := by
  intro o
  rfl

theorem encReset : Statement .encReset := by
  intro o
  rfl

theorem encAdd (v : Nat) : Statement (.encAdd v) := by
  intro o
  rfl

theorem encFlush : Statement .encFlush := by
  intro o
  rfl

theorem psPlane (p : Nat) : Statement (.psPlane p) := by
  intro o
  rfl

theorem psEncode : Statement .psEncode := by
  intro o
  rfl

theorem sinkOpen : Statement .sinkOpen := by
  intro o
  rfl

theorem ser (e : Nat) : Statement (.ser e) := by
  intro o
  rfl

theorem sinkPut (e : Nat) : Statement (.sinkPut e) := by
  intro o
  rfl

theorem sinkTerm : Statement .sinkTerm := by
  intro o
  rfl

theorem blkConfig (c : CfgWrite) : Statement (.blkConfig c) := by
  intro o
  rfl

theorem blkStart : Statement .blkStart := by
  intro o
  rfl

theorem blkCheck : Statement .blkCheck := by
  intro o
  rfl

theorem blkPad : Statement .blkPad := by
  intro o
  rfl

theorem blkLoad : Statement .blkLoad := by
  intro o
  rfl

theorem blkReport : Statement .blkReport := by
  intro o
  rfl

theorem blkStatus : Statement .blkStatus := by
  intro o
  rfl

end Sys2Proof.Laws.TokenLength
end

