-- ==== Sys2Proof/Laws/Refused.lean ====
section
/-! SUPPORT. What the writers of the sink do when the environment refuses an append: the words before it are there, a
prefix of it, and nothing after it (20_memory R49, 60_exceptions R139, R141, R142). -/

namespace Sys2Proof.Machine

/-- The environment accepts the next `k` appends and refuses the one after them, leaving `kept` bytes of it. -/
def State.refusing (s : State) (k kept : Nat) (later : List WriteAnswer) : State :=
  { s with env := { s.env with writes := List.replicate k .accepted ++ .refused kept :: later } }

/-- What an operation `f`, of words of width `w`, does when the environment refuses an append, beside what it does when
none is refused: it makes fewer appends and ends as it would, or the sink holds the words before the refused one and what
is kept of it, a prefix of what it would hold, and IOFailure(write) is recorded (R49, R139, R141). -/
def MirrorsAt (w : Width) (f : State → Flow) (s : State) : Prop :=
  s.env.writes = [] → ∀ t₀, f s = .cont t₀ →
    t₀.env.writes = [] ∧ t₀.sink.out0len = s.sink.out0len ∧ s.sink.out <+: t₀.sink.out
      ∧ ∀ k kept later,
        (∃ m, m ≤ k ∧ t₀.sink.out.length = s.sink.out.length + m * widthBytes w
            ∧ f (s.refusing k kept later) = .cont (t₀.refusing (k - m) kept later))
          ∨ ∃ t, f (s.refusing k kept later) = .raised t ∧ WriteFailed t
            ∧ t.sink.out = t₀.sink.out.take (s.sink.out.length + k * widthBytes w + min kept (widthBytes w))
            ∧ s.sink.out.length + k * widthBytes w + widthBytes w ≤ t₀.sink.out.length

theorem MirrorsAt.congr {w : Width} {f g : State → Flow} {s : State} (h : MirrorsAt w f s) (h0 : g s = f s)
    (h1 : ∀ k kept later, g (s.refusing k kept later) = f (s.refusing k kept later)) : MirrorsAt w g s := by
  intro hs t₀ ht
  rw [h0] at ht
  obtain ⟨a, b, c, d⟩ := h hs t₀ ht
  exact ⟨a, b, c, fun k kept later => by rw [h1]; exact d k kept later⟩

/-- An update of the registers that neither looks at the answers to come nor touches the sink. -/
theorem mirrors_update (w : Width) (h : State → State) (s : State) (h1 : (h s).env.writes = s.env.writes)
    (h2 : (h s).sink = s.sink) (h3 : ∀ k kept later, h (s.refusing k kept later) = (h s).refusing k kept later) :
    MirrorsAt w (fun t => .cont (h t)) s := by
  intro hs t₀ ht
  cases ht
  refine ⟨h1.trans hs, by rw [h2], by rw [h2], fun k kept later => .inl ⟨0, by omega, by rw [h2]; simp, ?_⟩⟩
  exact congrArg Flow.cont (h3 k kept later)

theorem MirrorsAt.andThen {w : Width} {f g : State → Flow} {s : State} (hf : MirrorsAt w f s)
    (hg : ∀ t, f s = .cont t → MirrorsAt w g t) : MirrorsAt w (fun s => (f s).andThen g) s := by
  intro hs t₀ ht
  dsimp only at ht ⊢
  cases hx : f s with
  | cont u =>
    rw [hx, andThen_cont] at ht
    obtain ⟨f1, f2, f3, f4⟩ := hf hs u hx
    obtain ⟨g1, g2, g3, g4⟩ := hg u hx f1 t₀ ht
    have hle := g3.length_le
    refine ⟨g1, g2.trans f2, f3.trans g3, fun k kept later => ?_⟩
    rcases f4 k kept later with ⟨m, hm, hlen, hc⟩ | ⟨t, hc, hw, hout, hle2⟩
    · have hk : (k - m) * widthBytes w + m * widthBytes w = k * widthBytes w := by
        rw [← Nat.add_mul, Nat.sub_add_cancel hm]
      rw [hc, andThen_cont]
      rcases g4 (k - m) kept later with ⟨m', hm', hlen', hc'⟩ | ⟨t, hc', hw', hout', hle'⟩
      · refine .inl ⟨m + m', by omega, by rw [hlen', hlen, Nat.add_mul]; omega, ?_⟩
        rw [hc', Nat.sub_sub]
      · refine .inr ⟨t, hc', hw', ?_, by omega⟩
        rw [hout', hlen]
        congr 2
        omega
    · rw [hc, andThen_raised]
      refine .inr ⟨t, rfl, hw, ?_, by omega⟩
      rw [hout]
      obtain ⟨z, hz⟩ := g3
      rw [← hz, List.take_append_of_le_length]
      have := Nat.min_le_right kept (widthBytes w)
      omega
  | raised u => rw [hx] at ht; simp at ht
  | abandoned u => rw [hx] at ht; simp at ht
  | faulted x => rw [hx] at ht; simp at ht
  | stuck x => rw [hx] at ht; simp at ht

theorem put_mirrors (w : Width) (e : Nat) (s : State) : MirrorsAt w (put w e) s := by
  intro hs t₀ ht
  unfold put withElement at ht ⊢
  split at ht
  · rename_i he
    have hl : (serialise w (effectiveOrder s) e).length = widthBytes w := serialise_length _ _ _
    simp only [sinkAppend, nextWrite, hs, Flow.cont.injEq] at ht
    subst ht
    refine ⟨hs, rfl, by simp [State.setEncoded, State.appendOut], fun k kept later => ?_⟩
    rw [if_pos he]
    have ho : effectiveOrder (s.refusing k kept later) = effectiveOrder s := rfl
    rw [ho]
    cases k with
    | zero =>
      refine .inr ⟨_, rfl, ⟨rfl, rfl, rfl⟩, ?_, ?_⟩
      · have htake : s.sink.out.take (s.sink.out.length + min kept (widthBytes w)) = s.sink.out :=
          List.take_of_length_le (by omega)
        have hkept : (serialise w (effectiveOrder s) e).take (min kept (widthBytes w))
            = (serialise w (effectiveOrder s) e).take kept := by
          rw [List.take_eq_take_iff, hl]
          omega
        simp [State.setEncoded, State.appendOut, raiseError, State.refusing, List.take_append, htake, hkept]
      · simp [State.setEncoded, State.appendOut, hl]
    | succ k =>
      refine .inl ⟨1, by omega, by simp [State.setEncoded, State.appendOut, hl], ?_⟩
      simp [sinkAppend, nextWrite, State.refusing, List.replicate_succ, State.setEncoded, State.appendOut]
  · simp at ht

theorem putAll_mirrors (w : Width) (es : List Nat) (s : State) : MirrorsAt w (putAll w es) s := by
  induction es generalizing s with
  | nil => exact mirrors_update w id s rfl rfl fun _ _ _ => rfl
  | cons e es ih => exact (put_mirrors w e s).andThen fun t _ => ih t

theorem MirrorsAt.emission {w : Width} {f : State → Flow} {s : State} (pol : Policy) (h : MirrorsAt w f s) :
    MirrorsAt w (fun s => emission pol (f s)) s := by
  intro hs t₀ ht
  dsimp only at ht ⊢
  cases hx : f s <;> rw [hx] at ht <;> simp [Machine.emission] at ht
  rename_i u
  subst ht
  obtain ⟨a, b, c, d⟩ := h hs u hx
  refine ⟨a, b, c, fun k kept later => ?_⟩
  rcases d k kept later with ⟨m, hm, hlen, hc⟩ | ⟨t, hc, hw, hrest⟩
  · exact .inl ⟨m, hm, hlen, by rw [hc]; rfl⟩
  · exact .inr ⟨scrambleEnc pol t, by rw [hc]; rfl, ⟨hw.st, hw.err, hw.cause⟩, hrest⟩

/-- An operation that stops or ends early has nothing to mirror. -/
theorem mirrors_of_not_cont {w : Width} {f : State → Flow} {s : State} (h : ∀ t, f s ≠ .cont t) : MirrorsAt w f s :=
  fun _ t₀ ht => absurd ht (h t₀)

theorem flush_mirrors (pol : Policy) (s : State) : MirrorsAt pol.width (flush pol) s := by
  by_cases hrc : 0 < s.enc.rc
  · rcases hp : s.enc.pending with _ | ⟨a, _ | ⟨b, q⟩⟩
    · exact mirrors_of_not_cont fun t => by simp [flush, hrc, hp]
    · cases hf : fmtRun pol s.enc.rc with
      | none => exact mirrors_of_not_cont fun t => by simp [flush, hrc, hp, hf]
      | some c =>
        refine MirrorsAt.congr (((putAll_mirrors pol.width [c, a] s).emission pol).andThen fun t _ =>
          mirrors_update pol.width State.clearEnc t rfl rfl fun _ _ _ => rfl) ?_ ?_
        · simp [flush, hrc, hp, hf]
        · intro k kept later
          have h1 : (s.refusing k kept later).enc = s.enc := rfl
          simp only [flush, h1, hrc, hp, hf, if_pos]
    · exact mirrors_of_not_cont fun t => by simp [flush, hrc, hp]
  · by_cases hl : 0 < s.enc.pending.length
    · cases hf : fmtLit pol s.enc.pending.length with
      | none => exact mirrors_of_not_cont fun t => by simp [flush, hrc, hl, hf]
      | some c =>
        refine MirrorsAt.congr (((putAll_mirrors pol.width (c :: s.enc.pending) s).emission pol).andThen fun t _ =>
          mirrors_update pol.width (fun t => t.setPending []) t rfl rfl fun _ _ _ => rfl) ?_ ?_
        · simp [flush, hrc, hl, hf]
        · intro k kept later
          have h1 : (s.refusing k kept later).enc = s.enc := rfl
          simp only [flush, h1, if_neg hrc, if_pos hl, hf]
    · refine MirrorsAt.congr (mirrors_update pol.width id s rfl rfl fun _ _ _ => rfl) ?_ ?_
      · simp [flush, hrc, hl]
      · intro k kept later
        have h1 : (s.refusing k kept later).enc = s.enc := rfl
        simp only [flush, h1, if_neg hrc, if_neg hl, id]

theorem MirrorsAt.ite {w : Width} {c : State → Prop} [DecidablePred c] {f g : State → Flow} {s : State}
    (hc : ∀ k kept later, c (s.refusing k kept later) ↔ c s) (hf : c s → MirrorsAt w f s) (hg : ¬c s → MirrorsAt w g s) :
    MirrorsAt w (fun s => if c s then f s else g s) s := by
  by_cases h : c s
  · exact (hf h).congr (if_pos h) fun k kept later => if_pos ((hc k kept later).mpr h)
  · exact (hg h).congr (if_neg h) fun k kept later => if_neg fun h' => h ((hc k kept later).mp h')

theorem addElement_mirrors (pol : Policy) (v : Nat) (s : State) : MirrorsAt pol.width (addElement pol v) s := by
  have henc : ∀ k kept later, (s.refusing k kept later).enc = s.enc := fun _ _ _ => rfl
  have hupd : ∀ (h : State → State) (t : State), (h t).env.writes = t.env.writes → (h t).sink = t.sink →
      (∀ k kept later, h (t.refusing k kept later) = (h t).refusing k kept later) →
      MirrorsAt pol.width (fun t => flush pol (h t)) t := by
    intro h t h1 h2 h3
    exact (mirrors_update pol.width h t h1 h2 h3).andThen fun u _ => flush_mirrors pol u
  cases hl : s.enc.pending.getLast? with
  | none =>
    refine MirrorsAt.congr (mirrors_update pol.width (fun t => t.setPending [v]) s rfl rfl fun _ _ _ => rfl) ?_ ?_
    · simp [addElement, hl]
    · intro k kept later
      simp only [addElement, henc, hl]
  | some a =>
    have hbody : MirrorsAt pol.width (fun s =>
        if v = a then
          (if s.enc.rc = 0 ∧ 2 ≤ s.enc.pending.length then
              (flush pol (s.setPending s.enc.pending.dropLast)).andThen fun s => .cont (s.setPending [a])
            else .cont s).andThen fun s =>
            if s.enc.rc + 1 = pol.maxRun - 1 then flush pol (s.setRc (s.enc.rc + 1))
            else .cont (s.setRc (s.enc.rc + 1))
        else if 0 < s.enc.rc then
          (flush pol s).andThen fun s => .cont (s.setPending [v])
        else if s.enc.pending.length + 1 = pol.maxLit then flush pol (s.setPending (s.enc.pending ++ [v]))
        else .cont (s.setPending (s.enc.pending ++ [v]))) s := by
      refine MirrorsAt.ite (fun _ _ _ => Iff.rfl) (fun _ => ?_) fun _ => ?_
      · refine MirrorsAt.andThen (MirrorsAt.ite (fun _ _ _ => Iff.rfl) (fun _ => ?_) fun _ => ?_) fun t _ => ?_
        · exact (hupd (fun t => t.setPending t.enc.pending.dropLast) s rfl rfl fun _ _ _ => rfl).andThen fun t _ =>
            mirrors_update pol.width (fun t => t.setPending [a]) t rfl rfl fun _ _ _ => rfl
        · exact mirrors_update pol.width id s rfl rfl fun _ _ _ => rfl
        · exact MirrorsAt.ite (fun _ _ _ => Iff.rfl)
            (fun _ => hupd (fun t => t.setRc (t.enc.rc + 1)) t rfl rfl fun _ _ _ => rfl)
            fun _ => mirrors_update pol.width (fun t => t.setRc (t.enc.rc + 1)) t rfl rfl fun _ _ _ => rfl
      · refine MirrorsAt.ite (fun _ _ _ => Iff.rfl) (fun _ => ?_) fun _ => ?_
        · exact (flush_mirrors pol s).andThen fun t _ =>
            mirrors_update pol.width (fun t => t.setPending [v]) t rfl rfl fun _ _ _ => rfl
        · exact MirrorsAt.ite (fun _ _ _ => Iff.rfl)
            (fun _ => hupd (fun t => t.setPending (t.enc.pending ++ [v])) s rfl rfl fun _ _ _ => rfl)
            fun _ => mirrors_update pol.width (fun t => t.setPending (t.enc.pending ++ [v])) s rfl rfl fun _ _ _ => rfl
    refine hbody.congr ?_ ?_
    · simp [addElement, hl]
    · intro k kept later
      simp only [addElement, henc, hl]

theorem planeLoop_mirrors (pol : Policy) (n fuel : Nat) (s : State) : MirrorsAt pol.width (planeLoop pol n fuel) s := by
  induction fuel generalizing s with
  | zero => exact mirrors_update pol.width id s rfl rfl fun _ _ _ => rfl
  | succ fuel ih =>
    have hbody : MirrorsAt pol.width (fun s =>
        if s.ps.i < s.inb.elems then
          withInput pol.width s.ps.i s fun v =>
            (addElement pol v s).andThen fun s => planeLoop pol n fuel (s.setI (s.ps.i + n))
        else .cont s) s := by
      refine MirrorsAt.ite (fun _ _ _ => Iff.rfl) (fun hlt => ?_)
        fun _ => mirrors_update pol.width id s rfl rfl fun _ _ _ => rfl
      cases hr : memRead s.inb (s.ps.i * widthBytes pol.width) (widthBytes pol.width) with
      | error f => exact mirrors_of_not_cont fun t => by simp [withInput, hlt, hr]
      | ok bs =>
        refine MirrorsAt.congr ((addElement_mirrors pol (assemble (effectiveOrder s) bs) s).andThen fun t _ =>
          (mirrors_update pol.width (fun t => t.setI (t.ps.i + n)) t rfl rfl fun _ _ _ => rfl).andThen fun u _ => ih u)
          ?_ ?_
        · simp [withInput, hlt, hr]
        · intro k kept later
          have h1 : (s.refusing k kept later).inb = s.inb := rfl
          have h2 : (s.refusing k kept later).ps = s.ps := rfl
          have h3 : effectiveOrder (s.refusing k kept later) = effectiveOrder s := rfl
          simp only [withInput, h1, h2, h3, hr, if_pos hlt, andThen_cont]
    exact hbody

theorem planeBody_mirrors (w : Width) (n p : Nat) (s : State) (hw : widthOf? s.cfg.width = some w) :
    MirrorsAt w (planeBody n p) s := by
  refine MirrorsAt.congr (f := fun s =>
    (((Flow.cont (s.clearEnc.setI p)).andThen (planeLoop (hardwarePolicy w) n s.inb.elems)).andThen
      (flush (hardwarePolicy w))).andThen (terminate w)) ?_ ?_ ?_
  · refine MirrorsAt.andThen (MirrorsAt.andThen ?_ fun t _ => flush_mirrors (hardwarePolicy w) t) fun t _ =>
      put_mirrors w (fmtTerm w) t
    exact ((mirrors_update w (fun t => t.clearEnc.setI p) s rfl rfl fun _ _ _ => rfl).andThen fun t _ =>
      planeLoop_mirrors (hardwarePolicy w) n s.inb.elems t).congr rfl fun _ _ _ => rfl
  · simp [planeBody, withPolicy, withWidth, hw, hardwarePolicy]
  · intro k kept later
    have h1 : (s.refusing k kept later).cfg = s.cfg := rfl
    simp [planeBody, withPolicy, withWidth, h1, hw, hardwarePolicy]

theorem encodeLoop_mirrors (w : Width) (n fuel : Nat) (s : State) (hw : widthOf? s.cfg.width = some w) :
    MirrorsAt w (encodeLoop n fuel) s := by
  induction fuel generalizing s with
  | zero => exact mirrors_update w id s rfl rfl fun _ _ _ => rfl
  | succ fuel ih =>
    have hbody : MirrorsAt w (fun s =>
        if s.ps.p < n then
          (planeBody n s.ps.p s).andThen fun s => encodeLoop n fuel (s.setP (s.ps.p + 1))
        else .cont s) s := by
      refine MirrorsAt.ite (fun _ _ _ => Iff.rfl) (fun hlt => ?_)
        fun _ => mirrors_update w id s rfl rfl fun _ _ _ => rfl
      refine MirrorsAt.congr ((planeBody_mirrors w n s.ps.p s hw).andThen fun t ht =>
        (mirrors_update w (fun t => t.setP (t.ps.p + 1)) t rfl rfl fun _ _ _ => rfl).andThen fun u hu => ih u ?_)
        rfl fun _ _ _ => rfl
      cases hu
      have := planeBody_spec n s.ps.p s
      rw [ht] at this
      exact (congrArg (fun c => widthOf? c.width) this.1.cfg).trans hw
    exact hbody

/-- `PS.ENCODE` when the environment refuses an append (R49, R102, R139). -/
theorem encodePlanes_mirrors (w : Width) (s : State) (hw : widthOf? s.cfg.width = some w) :
    MirrorsAt w encodePlanes s :=
  ((mirrors_update w (fun t => t.setP 0) s rfl rfl fun _ _ _ => rfl).andThen fun t ht => by
    cases ht
    exact encodeLoop_mirrors w s.cfg.nplanes.toNat s.cfg.nplanes.toNat (s.setP 0) hw).congr rfl fun _ _ _ => rfl

/-- An invocation whose load and open succeed, and of whose writes the environment accepts `k` and refuses the next: the
sink holds the first `k` words of the stream `t₀` has, where none is refused, and what is kept of the next (R122, R142). -/
theorem runInvocation_refused (w : Width) (k kept : Nat) (later : List WriteAnswer) (s t₀ : State)
    (h : ReadyToRun w s) (hwr : s.env.writes = List.replicate k .accepted ++ .refused kept :: later)
    (h0 : exec .blkStart { s with env := { s.env with writes := [] } } = .next t₀)
    (hk : k * widthBytes w < t₀.res.encodedBytes) :
    ∃ t, runInvocation s = .raised t ∧ WriteFailed t
      ∧ t.sink.out = t₀.sink.out.take (t₀.sink.out0len + k * widthBytes w + min kept (widthBytes w)) := by
  have hs : s = State.refusing { s with env := { s.env with writes := [] } } k kept later := by
    show s = { s with env := { s.env with writes := _ } }
    rw [← hwr]
  generalize hzero : ({ s with env := { s.env with writes := [] } } : State) = s₀ at *
  have hready : ReadyToRun w s₀ := by
    obtain ⟨a, b, c, d, e, f⟩ := h
    rw [nextLoad_fst] at e
    rw [nextOpen_fst] at f
    rw [← hzero]
    exact ⟨a, b, c, d, (nextLoad_fst _).trans e, (nextOpen_fst _).trans f⟩
  have hwr0 : (s₀.prepared w).env.writes = [] := by
    show s₀.env.writes = []
    rw [← hzero]
  have hcont := encodePlanes_accepted w (s₀.prepared w) hready.2.1 hready.2.2.1 (padCount_spec w s₀.cfg.len).2.2.symm
    (fun a ha => by rw [hwr0] at ha; simp at ha)
  generalize planesWords (hardwarePolicy w) (bufferPlane w (effectiveOrder (s₀.prepared w)) (s₀.prepared w).inb
    (s₀.prepared w).cfg.nplanes.toNat) (s₀.prepared w).cfg.nplanes.toNat 0 = ws at hcont
  generalize hu : (s₀.prepared w).planed w ws _ _ = u at hcont
  obtain ⟨_, hmark, _, hmir⟩ := encodePlanes_mirrors w (s₀.prepared w) hready.2.1 hwr0 u hcont
  have ht₀ : u.endRun = t₀ := by
    simp only [exec, execBlkStart, if_neg hready.1, runInvocation_ready w s₀ hready, hcont, andThen_cont, outcome_cont,
      Host.Outcome.next.injEq] at h0
    exact h0
  subst ht₀
  have hlen : u.sink.out.length = (s₀.prepared w).sink.out.length + u.res.encodedBytes := by
    rw [← hu]
    simp [State.planed, State.emitted, State.prepared, resReset, serialiseAll_length]
  have hopen : (s₀.prepared w).sink.out0len = (s₀.prepared w).sink.out.length := rfl
  have hk' : k * widthBytes w < u.res.encodedBytes := hk
  have hprep : (s₀.refusing k kept later).prepared w = (s₀.prepared w).refusing k kept later := rfl
  rw [runInvocation_ready w s h, hs, hprep]
  rcases hmir k kept later with ⟨m, hm, hm', hc⟩ | ⟨t, hc, hw, hout, _⟩
  · have := Nat.mul_le_mul_right (widthBytes w) hm
    omega
  · refine ⟨t, by rw [hc]; rfl, hw, ?_⟩
    rw [hout]
    show _ = u.sink.out.take (u.sink.out0len + _ + _)
    rw [hmark, hopen]
end Sys2Proof.Machine
end

