-- ==== Sys2Proof/Tests/Slice0.lean ====
section
/-! SUPPORT. Tests: ill-formed terms refused, words written from the spec decoded, vectors of 95_test_vectors, and for
every statement with hypotheses a state and operands that meet them. Expected values are the spec's. -/

namespace Sys2Proof.Tests

open Sys2Proof Sys2Proof.Machine

/-! ### Helpers -/

/-- The next state, if there is one. -/
def tNext (x : Host.Outcome State Fault Refusal) : Option State :=
  match x with
  | .next s => some s
  | .fault _ => none
  | .refused _ => none

/-- The refusal, if it is one. -/
def tRefusal (x : Host.Outcome State Fault Refusal) : Option Refusal :=
  match x with
  | .next _ => none
  | .fault _ => none
  | .refused r => some r

/-- The fault, if it is one. -/
def tFault (x : Host.Outcome State Fault Refusal) : Option Fault :=
  match x with
  | .next _ => none
  | .fault f => some f
  | .refused _ => none

/-- The sink's bytes after. -/
def tSink (x : Host.Outcome State Fault Refusal) : Option (List Byte) :=
  (tNext x).map fun s => s.sink.out

/-- The encoder registers after. -/
def tEnc (x : Host.Outcome State Fault Refusal) : Option (List Nat × Nat) :=
  (tNext x).map fun s => (s.enc.pending, s.enc.rc)

/-- The returned result after. -/
def tRet (x : Host.Outcome State Fault Refusal) : Option HostResult :=
  (tNext x).bind fun s => s.ret

/-- The report registers after. -/
def tReport (x : Host.Outcome State Fault Refusal) : Option (Nat × Nat × Bool × Nat) :=
  (tNext x).map fun s => (s.res.origSize, s.res.paddedSize, s.res.padOccurred, s.res.encodedBytes)

/-- Status, error kind and cause after. -/
def tStatus (x : Host.Outcome State Fault Refusal) : Option (Status × ErrKind × Option Cause) :=
  (tNext x).map fun s => (s.res.st, s.res.err, s.res.cause)

/-- A configured block with its input there and bytes in the sink. -/
def tBlock (w : Nat) (big : Bool) (n : Int) (append : Bool) (input out : List Byte) : State :=
  { State.reset with
    cfg := { width := w, bigend := big, nplanes := n, append := append, len := input.length }
    env := { State.reset.env with input := input }
    sink := { out := out, out0len := 0 } }

/-- The same block where the native order is `o`. -/
def tNative (o : ByteOrder) (s : State) : State :=
  { s with env := { s.env with nativeOrder := o } }

/-- A block whose encoder holds something. -/
def tHeld (w : Nat) (pending : List Nat) (rc : Nat) : State :=
  { tBlock w true 1 false [] [] with enc := { pending := pending, rc := rc } }

/-- A block with a filled input buffer. -/
def tBuffer (w : Width) (n : Int) (bs : List Byte) : State :=
  (tBlock (widthBytes w) true n false [] []).setInput bs (bs.length / widthBytes w)

/-- The reader at work on bytes, big-endian. -/
def tReader (w : Width) (n : Nat) (bs : List Byte) : State :=
  { State.reset with rd := Reader.begin bs n w .big }

/-! ### WellFormed: an ill-formed term for each check -/

theorem test_ill_run_reserved :
    (Instr.runW1 1 9).wellFormed = false ∧ (Instr.runW2 0 9).wellFormed = false ∧ (Instr.runW4 1 9).wellFormed = false := by
  decide

theorem test_ill_lit_empty :
    (Instr.litW1 []).wellFormed = false ∧ (Instr.litW2 []).wellFormed = false ∧ (Instr.litW4 []).wellFormed = false := by
  decide

theorem test_ill_lit_long : (Instr.litW1 (List.replicate 128 0)).wellFormed = false := by
  simp [Instr.wellFormed, countLimit]

theorem test_ill_pol_width :
    (Instr.polKind 3).wellFormed = false ∧ (Instr.polBits 0).wellFormed = false ∧ (Instr.polCap 8).wellFormed = false
      ∧ (Instr.polMaxrun 3).wellFormed = false ∧ (Instr.polMaxlit 3).wellFormed = false
      ∧ (Instr.polRunflag 3).wellFormed = false ∧ (Instr.polFmtRun 3 1).wellFormed = false
      ∧ (Instr.polFmtLit 3 1).wellFormed = false ∧ (Instr.polFmtTerm 3).wellFormed = false := by
  decide

theorem test_ill_fmt_run_range :
    (Instr.polFmtRun 1 0).wellFormed = false ∧ (Instr.polFmtRun 1 127).wellFormed = false
      ∧ (Instr.polFmtRun 1 126).wellFormed = true := by
  decide

theorem test_ill_fmt_lit_range :
    (Instr.polFmtLit 1 0).wellFormed = false ∧ (Instr.polFmtLit 1 128).wellFormed = false
      ∧ (Instr.polFmtLit 1 127).wellFormed = true := by
  decide

theorem test_ill_element :
    (Instr.encAdd (2 ^ 32)).wellFormed = false ∧ (Instr.ser (2 ^ 32)).wellFormed = false
      ∧ (Instr.sinkPut (2 ^ 32)).wellFormed = false ∧ (Instr.sinkPut (2 ^ 32 - 1)).wellFormed = true := by
  decide

/-! ### Decoding: words written from R55, R56, R57 and the vectors -/

/-- V20: `FF 07`, control bits 1 1111111. -/
theorem test_decode_run_w1 : decode .w1 .little [0xFF, 0x07] = .ok (.runW1 127 7, []) := by decide

/-- V2 after a run: `01 09`. -/
theorem test_decode_lit_w1 : decode .w1 .big [0x01, 0x09, 0x00] = .ok (.litW1 [9], [0x00]) := by decide

/-- V1: `00`. -/
theorem test_decode_term_w1 : decode .w1 .little [0x00, 0x82] = .ok (.termW1, [0x82]) := by decide

/-- V40: `03 80 34 12`. -/
theorem test_decode_run_w2 : decode .w2 .little [0x03, 0x80, 0x34, 0x12] = .ok (.runW2 3 0x1234, []) := by decide

/-- PRG3: `00 01 7F 00`. -/
theorem test_decode_lit_w2 : decode .w2 .big [0x00, 0x01, 0x7F, 0x00] = .ok (.litW2 [0x7F00], []) := by decide

/-- The terminator of 16 bits (R57). -/
theorem test_decode_term_w2 : decode .w2 .big [0x00, 0x00] = .ok (.termW2, []) := by decide

/-- V42: `80 00 00 02 DE AD BE EF`. -/
theorem test_decode_run_w4 :
    decode .w4 .big [0x80, 0x00, 0x00, 0x02, 0xDE, 0xAD, 0xBE, 0xEF] = .ok (.runW4 2 0xDEADBEEF, []) := by
  decide

/-- V53: `02 00 00 00`, then two elements. -/
theorem test_decode_lit_w4 :
    decode .w4 .little [0x02, 0x00, 0x00, 0x00, 0x01, 0x02, 0x03, 0x04, 0x05, 0x06, 0x00, 0x00]
      = .ok (.litW4 [0x04030201, 0x00000605], []) := by
  decide

/-- S7: a terminator of 32 bits. -/
theorem test_decode_term_w4 : decode .w4 .little [0x00, 0x00, 0x00, 0x00] = .ok (.termW4, []) := by decide

/-- R70: a read past the end. -/
theorem test_decode_truncated :
    decode .w1 .big [] = .error .truncatedControl ∧ decode .w1 .big [0x82] = .error .truncatedPayload
      ∧ decode .w1 .big [0x02, 0x01] = .error .truncatedPayload := by
  decide

/-- V39's first token, written. -/
theorem test_encode_run_w2 : encode .big (.runW2 3 0x1234) = [0x80, 0x03, 0x12, 0x34] := by decide

/-- Table words: `0x82`, `0x01`, `0x8003`, `0x80000002` with a payload of zeros. -/
theorem test_table_words :
    decodeTableWord 8 0x82 = some (.runW1 2 0) ∧ decodeTableWord 8 0x01 = some (.litW1 [0])
      ∧ decodeTableWord 8 0x00 = some .termW1 ∧ decodeTableWord 16 0x8003 = some (.runW2 3 0)
      ∧ decodeTableWord 32 0x80000002 = some (.runW4 2 0) ∧ decodeTableWord 24 0 = none := by
  decide

/-- The first step after reset with a table word placed reads exactly it. -/
theorem test_step_table_words :
    (tNext (step (State.reset.withFetchWord 8 0x82))).map (fun s => s.rd.cur) = some [0, 0]
      ∧ (tNext (step (State.reset.withFetchWord 16 0x0001))).map (fun s => s.rd.cur) = some [0]
      ∧ tRet (step (State.reset.withFetchWord 32 0)) = some (.elements []) := by
  decide

/-! ### Tokens as the reader takes them -/

theorem test_read_run_w1 :
    (tNext (exec (.runW1 3 7) (tReader .w1 1 [0x83, 0x07, 0x00]))).map (fun s => (s.rd.cur, s.rd.pos)) = some ([7, 7, 7], 2) := by
  decide

theorem test_read_run_reserved :
    tRefusal (exec (.runW1 1 7) (tReader .w1 1 [0x81, 0x07, 0x00])) = some .reservedRunCount := by
  decide

theorem test_read_lit_w1 :
    (tNext (exec (.litW1 [4, 6]) (tReader .w1 1 [0x02, 0x04, 0x06, 0x00]))).map (fun s => (s.rd.cur, s.rd.pos))
      = some ([4, 6], 3) := by
  decide

/-- S7: an empty plane reads as no element. -/
theorem test_read_term_w1 : tRet (exec .termW1 (tReader .w1 1 [0x00])) = some (.elements []) := by decide

theorem test_read_run_w2 :
    (tNext (exec (.runW2 3 0x1234) (tReader .w2 1 [0x80, 0x03, 0x12, 0x34]))).map (fun s => (s.rd.cur, s.rd.pos))
      = some ([0x1234, 0x1234, 0x1234], 4) := by
  decide

theorem test_read_lit_w2 :
    (tNext (exec (.litW2 [0x7F00]) (tReader .w2 1 [0x00, 0x01, 0x7F, 0x00]))).map (fun s => (s.rd.cur, s.rd.pos))
      = some ([0x7F00], 4) := by
  decide

/-- A token of another width than the stream's. -/
theorem test_read_term_w2 : tRefusal (exec .termW2 (tReader .w1 1 [0x00, 0x00])) = some .tokenWidth := by decide

theorem test_read_run_w4 :
    (tNext (exec (.runW4 2 0xDEADBEEF) (tReader .w4 1 []))).map (fun s => (s.rd.cur, s.rd.pos))
      = some ([0xDEADBEEF, 0xDEADBEEF], 8) := by
  decide

theorem test_read_lit_w4 :
    (tNext (exec (.litW4 [1]) (tReader .w4 1 []))).map (fun s => (s.rd.cur, s.rd.pos)) = some ([1], 8) := by
  decide

/-- No plane is being read after reset. -/
theorem test_read_term_w4 : tRefusal (exec .termW4 State.reset) = some .noPlaneOpen := by decide

/-- PRG2's planes `[1 1 1]` and `[9 9 8]` interleave to `[1 9 1 9 1 8]`. -/
theorem test_read_last_term :
    tRet (exec .termW1
      { State.reset with
        rd := { Reader.begin (List.replicate 8 0) 2 .w1 .big with done := [[1, 1, 1]], cur := [9, 9, 8], pos := 7 } })
      = some (.elements [1, 9, 1, 9, 1, 8]) := by
  decide

/-! ### ControlWordPolicy: T1 to T14 -/

theorem test_pol_kind :
    tRet (exec (.polKind 1) State.reset) = some (.kind .byte) ∧ tRet (exec (.polKind 4) State.reset) = some (.kind .full) := by
  decide

theorem test_pol_bits : tRet (exec (.polBits 4) State.reset) = some (.number 32) := by decide

theorem test_pol_cap :
    tRet (exec (.polCap 1) State.reset) = some (.number 127) ∧ tRet (exec (.polCap 4) State.reset) = some (.number 2147483647) := by
  decide

theorem test_pol_maxrun : tRet (exec (.polMaxrun 2) State.reset) = some (.number 32767) := by decide

theorem test_pol_maxlit : tRet (exec (.polMaxlit 2) State.reset) = some (.number 32767) := by decide

theorem test_pol_runflag :
    tRet (exec (.polRunflag 1) State.reset) = some (.number 0x80)
      ∧ tRet (exec (.polRunflag 4) State.reset) = some (.number 0x80000000) := by
  decide

theorem test_pol_fmt_run :
    tRet (exec (.polFmtRun 1 1) State.reset) = some (.number 0x82)
      ∧ tRet (exec (.polFmtRun 1 126) State.reset) = some (.number 0xFF)
      ∧ tRet (exec (.polFmtRun 2 127) State.reset) = some (.number 0x8080)
      ∧ tRet (exec (.polFmtRun 4 2147483646) State.reset) = some (.number 0xFFFFFFFF) := by
  decide

theorem test_pol_fmt_run_range :
    tRefusal (exec (.polFmtRun 1 0) State.reset) = some .fmtRunRange
      ∧ tRefusal (exec (.polFmtRun 1 127) State.reset) = some .fmtRunRange := by
  decide

theorem test_pol_fmt_lit :
    tRet (exec (.polFmtLit 1 127) State.reset) = some (.number 0x7F)
      ∧ tRet (exec (.polFmtLit 4 2147483647) State.reset) = some (.number 0x7FFFFFFF) := by
  decide

theorem test_pol_fmt_lit_range :
    tRefusal (exec (.polFmtLit 1 0) State.reset) = some .fmtLitRange
      ∧ tRefusal (exec (.polFmtLit 1 128) State.reset) = some .fmtLitRange := by
  decide

theorem test_pol_fmt_term : tRet (exec (.polFmtTerm 2) State.reset) = some (.number 0) := by decide

/-! ### RunLengthEncoder: S5, V18, V19, PRG5 -/

/-- PRG5 step 7: the pending run is dropped, not emitted. -/
theorem test_enc_reset :
    tEnc (exec .encReset (tHeld 1 [4] 1)) = some ([], 0) ∧ tSink (exec .encReset (tHeld 1 [4] 1)) = some [] := by
  decide

/-- S5: `ADD 2` on `([1,2], 0)` emits `01 01` and leaves `([2], 1)`. -/
theorem test_enc_add_fold :
    tSink (exec (.encAdd 2) (tHeld 1 [1, 2] 0)) = some [0x01, 0x01]
      ∧ tEnc (exec (.encAdd 2) (tHeld 1 [1, 2] 0)) = some ([2], 1) := by
  decide

/-- PRG4 step 128: the 127th 7 emits `FF 07` and leaves the encoder EMPTY. -/
theorem test_enc_add_forced :
    tSink (exec (.encAdd 7) (tHeld 1 [7] 125)) = some [0xFF, 0x07]
      ∧ tEnc (exec (.encAdd 7) (tHeld 1 [7] 125)) = some ([], 0) := by
  decide

/-- V19: `FLUSH` of 126 sevens emits `FE 07`. -/
theorem test_enc_flush_run : tSink (exec .encFlush (tHeld 1 [7] 125)) = some [0xFE, 0x07] := by decide

/-- PRG5 step 3: `02 03 04`. -/
theorem test_enc_flush_literal :
    tSink (exec .encFlush (tHeld 1 [3, 4] 0)) = some [0x02, 0x03, 0x04]
      ∧ tEnc (exec .encFlush (tHeld 1 [3, 4] 0)) = some ([], 0) := by
  decide

/-! ### PlaneSplitter: V33, V36 -/

/-- V36, plane 1 of `[5 5 5]` with two planes: `01 05 00`; `i` ends at 3. -/
theorem test_ps_plane :
    tSink (exec (.psPlane 1) (tBuffer .w1 2 [5, 5, 5])) = some [0x01, 0x05, 0x00]
      ∧ (tNext (exec (.psPlane 1) (tBuffer .w1 2 [5, 5, 5]))).map (fun s => s.ps) = some { p := 0, i := 3 } := by
  decide

/-- V33 (PRG2): two planes of `[1 9 1 9 1 8]`, ending at `p = 2`, `i = 7`. -/
theorem test_ps_encode :
    tSink (exec .psEncode (tBuffer .w1 2 [1, 9, 1, 9, 1, 8])) = some [0x83, 0x01, 0x00, 0x82, 0x09, 0x01, 0x08, 0x00]
      ∧ (tNext (exec .psEncode (tBuffer .w1 2 [1, 9, 1, 9, 1, 8]))).map (fun s => s.ps) = some { p := 2, i := 7 } := by
  decide

/-! ### Output sink: T15 to T20, V58, V59, V70 -/

/-- V58: the sink keeps `AA BB` and `OUT0LEN = 2`. -/
theorem test_sink_open_append :
    (tNext (exec .sinkOpen (tBlock 1 false 1 true [] [0xAA, 0xBB]))).map (fun s => s.sink)
      = some { out := [0xAA, 0xBB], out0len := 2 } := by
  decide

/-- V59: the sink is truncated. -/
theorem test_sink_open_truncate :
    (tNext (exec .sinkOpen (tBlock 1 false 1 false [] [0xAA, 0xBB]))).map (fun s => s.sink)
      = some { out := [], out0len := 0 } := by
  decide

/-- T18 in both orders. -/
theorem test_ser :
    tRet (exec (.ser 0xDEADBEEF) (tBlock 4 true 1 false [] [])) = some (.bytes [0xDE, 0xAD, 0xBE, 0xEF])
      ∧ tRet (exec (.ser 0xDEADBEEF) (tBlock 4 false 1 false [] [])) = some (.bytes [0xEF, 0xBE, 0xAD, 0xDE])
      ∧ tRet (exec (.ser 0xDEADBEEF) (tNative .big (tBlock 4 false 1 false [] []))) = some (.bytes [0xDE, 0xAD, 0xBE, 0xEF]) := by
  decide

/-- T16: `80 03`. -/
theorem test_sink_put :
    tSink (exec (.sinkPut 0x8003) (tBlock 2 true 1 false [] [0xAA])) = some [0xAA, 0x80, 0x03]
      ∧ (tNext (exec (.sinkPut 0x8003) (tBlock 2 true 1 false [] [0xAA]))).map (fun s => s.res.encodedBytes) = some 2 := by
  decide

/-- V70: a refused write of `80 03` that leaves one byte; it is not counted. -/
theorem test_sink_put_refused :
    tSink (exec (.sinkPut 0x8003)
        { tBlock 2 true 1 false [] [0xAA] with env := { State.reset.env with writes := [.refused 1] } })
      = some [0xAA, 0x80]
      ∧ tStatus (exec (.sinkPut 0x8003)
        { tBlock 2 true 1 false [] [0xAA] with env := { State.reset.env with writes := [.refused 1] } })
      = some (.error, .ioFailure, some .write) := by
  decide

/-- T20: four zero bytes. -/
theorem test_sink_term : tSink (exec .sinkTerm (tBlock 4 false 1 false [] [])) = some [0, 0, 0, 0] := by decide

/-! ### Block control: PRG3, PRG6, V52, V62 to V69 -/

/-- V64: any value is stored. -/
theorem test_blk_config :
    (tNext (exec (.blkConfig (.width 8)) State.reset)).map (fun s => s.cfg.width) = some 8
      ∧ (tNext (exec (.blkConfig (.nplanes (-1))) State.reset)).map (fun s => s.cfg.nplanes) = some (-1) := by
  decide

/-- V62, V63, V64: cause `width`, cause `planes`, width first. -/
theorem test_blk_check :
    tStatus (exec .blkCheck (tBlock 3 false 1 false [] [])) = some (.error, .configurationError, some .width)
      ∧ tStatus (exec .blkCheck (tBlock 1 false 0 false [] [])) = some (.error, .configurationError, some .planes)
      ∧ tStatus (exec .blkCheck (tBlock 8 false (-1) false [] [])) = some (.error, .configurationError, some .width) := by
  decide

/-- V52: six bytes, width 4: padded with two zero bytes to two elements. -/
theorem test_blk_pad :
    (tNext (exec .blkPad
      { tBlock 4 true 1 false [1, 2, 3, 4, 5, 6] [] with
        env := { State.reset.env with loaded := some [1, 2, 3, 4, 5, 6] } })).map (fun s => (inputBytes s.inb, s.inb.elems))
      = some ([1, 2, 3, 4, 5, 6, 0, 0], 2) := by
  decide

/-- V66, V67. -/
theorem test_blk_load :
    tStatus (exec .blkLoad
        { tBlock 1 false 1 false [5] [] with env := { State.reset.env with loads := [.attempt false true] } })
      = some (.error, .resourceExhaustion, none)
      ∧ tStatus (exec .blkLoad
        { tBlock 1 false 1 false [5] [] with env := { State.reset.env with loads := [.attempt true false] } })
      = some (.error, .ioFailure, some .input) := by
  decide

/-- PRG3: width 2, big-endian, padding, two planes. -/
theorem test_blk_start :
    tSink (exec .blkStart (tBlock 2 true 2 false [0x00, 0x01, 0x01, 0x00, 0x00, 0x01, 0x01, 0x00, 0x7F] []))
      = some [0x80, 0x02, 0x00, 0x01, 0x00, 0x01, 0x7F, 0x00, 0x00, 0x00, 0x80, 0x02, 0x01, 0x00, 0x00, 0x00]
      ∧ tReport (exec .blkStart (tBlock 2 true 2 false [0x00, 0x01, 0x01, 0x00, 0x00, 0x01, 0x01, 0x00, 0x7F] []))
      = some (9, 10, true, 16) := by
  decide

/-- V69: the third write refused: `AA BB 01 01`, two bytes counted, `p = 0`, `i = 4`, IOFailure(write). -/
theorem test_blk_start_write_refused :
    (tNext (exec .blkStart
      { tBlock 1 false 1 true [1, 2, 2, 2] [0xAA, 0xBB] with
        env := { State.reset.env with input := [1, 2, 2, 2], writes := [.accepted, .accepted, .refused 0] } })).map
        (fun s => (s.sink.out, s.res.encodedBytes, s.ps, s.res.st, s.res.cause))
      = some ([0xAA, 0xBB, 0x01, 0x01], 2, { p := 0, i := 4 }, .error, some .write) := by
  decide

/-- V54: (7, 8, 1, 10); without padding no padded size. -/
theorem test_blk_report :
    tRet (exec .blkReport
        { State.reset with
          res := { resReset with st := .done, origSize := 7, paddedSize := 8, padOccurred := true, encodedBytes := 10 } })
      = some (.report 7 (some 8) 10)
      ∧ tRet (exec .blkReport
        { State.reset with
          res := { resReset with st := .done, origSize := 8, paddedSize := 8, padOccurred := false, encodedBytes := 10 } })
      = some (.report 8 none 10) := by
  decide

/-- V62: code 1, cause `width`; after reset: IDLE, code 0. -/
theorem test_blk_status :
    tRet (exec .blkStatus
        { State.reset with res := { resReset with st := .error, err := .configurationError, cause := some .width } })
      = some (.status .error .configurationError 1 (some .width))
      ∧ tRet (exec .blkStatus State.reset) = some (.status .idle .none 0 none) := by
  decide

/-- R153: a block reset leaves the sink's content. -/
theorem test_step_block_reset :
    (tNext (step { tBlock 2 true 3 true [] [0xAA] with hostq := [.blockReset] })).map (fun s => (s.cfg, s.sink.out))
      = some (State.reset.cfg, [0xAA]) := by
  decide

/-! ### Witnesses: for each statement with hypotheses, a state and operands that meet them, clause by clause -/

theorem test_meets_TokenDecodesAsEncoded :
    (tokenWidth? (.runW1 127 7) = some .w1 ∧ (Instr.runW1 127 7).wellFormed = true)
      ∧ (tokenWidth? (.litW2 [1, 2]) = some .w2 ∧ (Instr.litW2 [1, 2]).wellFormed = true)
      ∧ (tokenWidth? .termW4 = some .w4 ∧ Instr.termW4.wellFormed = true) := by
  decide

theorem test_meets_DecodedTokenReencodes : decode .w1 .big [0x82, 0x09, 0x00] = .ok (.runW1 2 9, [0x00]) := by decide

theorem test_meets_SerGivesBytesInOrder :
    widthOf? (tBlock 2 true 1 false [] []).cfg.width = some .w2 ∧ 0x8003 < 2 ^ (8 * widthBytes .w2)
      ∧ 1 < widthBytes .w2 ∧ 2 ^ (8 * widthBytes .w2 - 1) ≤ 0x8003 ∧ ([0x80, 0x03] : List Byte).length = widthBytes .w2
      ∧ assemble .big [0x80, 0x03] = 0x8003 ∧ assemble .little [0x03, 0x80] = 0x8003
      ∧ .big = (if (tBlock 2 true 1 false [] []).cfg.bigend = true then .big else (tBlock 2 true 1 false [] []).env.nativeOrder)
      ∧ .little = (if (tBlock 2 false 1 false [] []).cfg.bigend = true then .big else (tBlock 2 false 1 false [] []).env.nativeOrder)
      ∧ (tNative .big (tBlock 2 false 1 false [] [])).cfg.bigend = false
      ∧ .big = (if (tNative .big (tBlock 2 false 1 false [] [])).cfg.bigend = true then .big
          else (tNative .big (tBlock 2 false 1 false [] [])).env.nativeOrder)
      ∧ widthOf? (tBlock 1 false 1 false [] []).cfg.width = some .w1 := by
  decide

theorem test_meets_PolicyFormatsRun :
    (1 ≤ 126 ∧ 126 ≤ 2 ^ (8 * widthBytes .w1 - 1) - 2) ∧ (1 ≤ 1 ∧ 1 ≤ 2 ^ (8 * widthBytes .w1 - 1) - 2)
      ∧ ¬(1 ≤ 127 ∧ 127 ≤ 2 ^ (8 * widthBytes .w1 - 1) - 2) ∧ ¬(1 ≤ 0 ∧ 0 ≤ 2 ^ (8 * widthBytes .w1 - 1) - 2) := by
  decide

theorem test_meets_PolicyFormatsLiteral :
    (1 ≤ 127 ∧ 127 ≤ 2 ^ (8 * widthBytes .w1 - 1) - 1) ∧ (1 ≤ 1 ∧ 1 ≤ 2 ^ (8 * widthBytes .w1 - 1) - 1)
      ∧ ¬(1 ≤ 128 ∧ 128 ≤ 2 ^ (8 * widthBytes .w1 - 1) - 1) ∧ ¬(1 ≤ 0 ∧ 0 ≤ 2 ^ (8 * widthBytes .w1 - 1) - 1) := by
  decide

theorem test_meets_PolicyRefusesOtherWidths :
    (3 ≠ 1 ∧ 3 ≠ 2 ∧ 3 ≠ 4) ∧ (0 ≠ 1 ∧ 0 ≠ 2 ∧ 0 ≠ 4) ∧ (5 ≠ 1 ∧ 5 ≠ 2 ∧ 5 ≠ 4) := by
  decide

theorem test_meets_AddTakesFirstElement :
    widthOf? (tHeld 1 [] 0).cfg.width = some .w1 ∧ 255 < 2 ^ (8 * widthBytes .w1)
      ∧ (tHeld 1 [] 0).enc = { pending := [], rc := 0 } := by
  decide

theorem test_meets_AddFoldsAndCountsRepeat_fold :
    widthOf? (tHeld 1 [1, 2] 0).cfg.width = some .w1 ∧ EncInv (hardwarePolicy .w1) (tHeld 1 [1, 2] 0).enc
      ∧ ElementsFit .w1 (tHeld 1 [1, 2] 0).enc.pending ∧ (tHeld 1 [1, 2] 0).enc.pending.getLast? = some 2
      ∧ (tHeld 1 [1, 2] 0).enc.rc + 1 < 2 ^ (8 * widthBytes .w1 - 1) - 2
      ∧ AcceptsWrites (tHeld 1 [1, 2] 0).enc.pending.length (tHeld 1 [1, 2] 0)
      ∧ 2 ≤ (tHeld 1 [1, 2] 0).enc.pending.length := by
  decide

theorem test_meets_AddFoldsAndCountsRepeat_count :
    widthOf? (tHeld 1 [7] 124).cfg.width = some .w1 ∧ EncInv (hardwarePolicy .w1) (tHeld 1 [7] 124).enc
      ∧ ElementsFit .w1 (tHeld 1 [7] 124).enc.pending ∧ (tHeld 1 [7] 124).enc.pending.getLast? = some 7
      ∧ (tHeld 1 [7] 124).enc.rc + 1 < 2 ^ (8 * widthBytes .w1 - 1) - 2
      ∧ AcceptsWrites (tHeld 1 [7] 124).enc.pending.length (tHeld 1 [7] 124)
      ∧ (tHeld 1 [7] 124).enc.pending.length = 1 := by
  decide

theorem test_meets_AddForcesFlushAtCapacity_run :
    widthOf? (tHeld 1 [7] 125).cfg.width = some .w1 ∧ 7 < 2 ^ (8 * widthBytes .w1)
      ∧ (tHeld 1 [7] 125).enc = { pending := [7], rc := 2 ^ (8 * widthBytes .w1 - 1) - 3 }
      ∧ AcceptsWrites 2 (tHeld 1 [7] 125) := by
  decide

set_option maxRecDepth 8000 in
theorem test_meets_AddForcesFlushAtCapacity_literal :
    widthOf? (tHeld 1 (List.range 126) 0).cfg.width = some .w1 ∧ 126 < 2 ^ (8 * widthBytes .w1)
      ∧ (tHeld 1 (List.range 126) 0).enc = { pending := List.range 125 ++ [125], rc := 0 } ∧ 126 ≠ 125
      ∧ ElementsFit .w1 (List.range 125 ++ [125]) ∧ AdjacentDistinct (List.range 125 ++ [125])
      ∧ (List.range 125).length + 2 = 2 ^ (8 * widthBytes .w1 - 1) - 1
      ∧ AcceptsWrites ((List.range 125).length + 3) (tHeld 1 (List.range 126) 0) := by
  decide

theorem test_meets_AddBreaksRun :
    widthOf? (tHeld 1 [7] 126).cfg.width = some .w1 ∧ 8 < 2 ^ (8 * widthBytes .w1) ∧ 7 < 2 ^ (8 * widthBytes .w1)
      ∧ (tHeld 1 [7] 126).enc = { pending := [7], rc := 125 + 1 } ∧ 125 + 2 ≤ 2 ^ (8 * widthBytes .w1 - 1) - 1
      ∧ 8 ≠ 7 ∧ AcceptsWrites 2 (tHeld 1 [7] 126) := by
  decide

theorem test_meets_AddExtendsLiteral :
    widthOf? (tHeld 1 [3] 0).cfg.width = some .w1 ∧ 4 < 2 ^ (8 * widthBytes .w1)
      ∧ (tHeld 1 [3] 0).enc = { pending := [] ++ [3], rc := 0 } ∧ 4 ≠ 3
      ∧ ([] : List Nat).length + 2 ≠ 2 ^ (8 * widthBytes .w1 - 1) - 1 := by
  decide

theorem test_meets_AddRefusesNonElement :
    (widthOf? (tHeld 1 [] 0).cfg.width = some .w1 ∧ 2 ^ (8 * widthBytes .w1) ≤ 256)
      ∧ widthOf? (tHeld 3 [] 0).cfg.width = none := by
  decide

theorem test_meets_FlushEmitsHeldElements_run :
    widthOf? (tHeld 1 [7] 126).cfg.width = some .w1 ∧ (tHeld 1 [7] 126).enc = { pending := [7], rc := 125 + 1 }
      ∧ 125 + 2 ≤ 2 ^ (8 * widthBytes .w1 - 1) - 1 ∧ 7 < 2 ^ (8 * widthBytes .w1)
      ∧ AcceptsWrites 2 (tHeld 1 [7] 126) := by
  decide

set_option maxRecDepth 8000 in
theorem test_meets_FlushEmitsHeldElements_literal :
    widthOf? (tHeld 1 (List.replicate 127 0) 0).cfg.width = some .w1
      ∧ (tHeld 1 (List.replicate 127 0) 0).enc = { pending := List.replicate 127 0, rc := 0 }
      ∧ 1 ≤ (List.replicate 127 0).length ∧ (List.replicate 127 0).length ≤ 2 ^ (8 * widthBytes .w1 - 1) - 1
      ∧ ElementsFit .w1 (List.replicate 127 0)
      ∧ AcceptsWrites ((List.replicate 127 0).length + 1) (tHeld 1 (List.replicate 127 0) 0) := by
  decide

theorem test_meets_FlushEmitsHeldElements_empty : (tHeld 3 [] 0).enc = { pending := [], rc := 0 } := by decide

theorem test_meets_FlushFaultsWhereUnreachable :
    (widthOf? (tHeld 1 [] 1).cfg.width = some .w1 ∧ 1 ≤ (tHeld 1 [] 1).enc.rc ∧ (tHeld 1 [] 1).enc.pending.length ≠ 1)
      ∧ (widthOf? (tHeld 1 [1, 2] 1).cfg.width = some .w1 ∧ 1 ≤ (tHeld 1 [1, 2] 1).enc.rc
        ∧ (tHeld 1 [1, 2] 1).enc.pending.length ≠ 1) := by
  decide

theorem test_meets_EncoderInvariantsKept :
    widthOf? (tHeld 1 [4] 1).cfg.width = some .w1 ∧ EncInv (hardwarePolicy .w1) (tHeld 1 [4] 1).enc
      ∧ ElementsFit .w1 (tHeld 1 [4] 1).enc.pending ∧ unitOf (.encAdd 4) = .enc
      ∧ ∃ t, exec (.encAdd 4) (tHeld 1 [4] 1) = .next t ∧ t.freeCount = (tHeld 1 [4] 1).freeCount :=
  ⟨by decide, by decide, by decide, by decide, _, rfl, rfl⟩

theorem test_meets_EncoderNeverStops :
    widthOf? (tHeld 1 [7] 125).cfg.width = some .w1 ∧ EncInv (hardwarePolicy .w1) (tHeld 1 [7] 125).enc
      ∧ ElementsFit .w1 (tHeld 1 [7] 125).enc.pending ∧ 7 < 2 ^ (8 * widthBytes .w1) := by
  decide

theorem test_meets_AddAccountsForElements :
    widthOf? (tHeld 1 [1, 2] 0).cfg.width = some .w1 ∧ EncInv (hardwarePolicy .w1) (tHeld 1 [1, 2] 0).enc
      ∧ ElementsFit .w1 (tHeld 1 [1, 2] 0).enc.pending ∧ 2 < 2 ^ (8 * widthBytes .w1)
      ∧ AcceptsWrites ((tHeld 1 [1, 2] 0).enc.pending.length + 2) (tHeld 1 [1, 2] 0) := by
  decide

theorem test_meets_EveryPolicyKeepsInvariants :
    PolicyOk { width := .w1, maxRun := 2, maxLit := 2 }
      ∧ EncInv { width := .w1, maxRun := 2, maxLit := 2 } (tHeld 1 [1] 0).enc
      ∧ ∃ t, addElement { width := .w1, maxRun := 2, maxLit := 2 } 1 (tHeld 1 [1] 0) = .cont t :=
  ⟨by decide, by decide, _, rfl⟩

theorem test_meets_SmallestPolicyEmitsTwoTokens :
    PolicyOk { width := .w1, maxRun := 2, maxLit := 4 } ∧ ([1] : List Nat) ≠ []
      ∧ (tHeld 1 [1, 2] 0).enc = { pending := [1] ++ [2], rc := 0 }
      ∧ EncInv { width := .w1, maxRun := 2, maxLit := 4 } (tHeld 1 [1, 2] 0).enc ∧ ElementsFit .w1 ([1] ++ [2])
      ∧ AcceptsWrites (([1] : List Nat).length + 3) (tHeld 1 [1, 2] 0) := by
  decide

theorem test_meets_PlaneEncodesItsElements :
    widthOf? (tBuffer .w1 2 [5, 5, 5]).cfg.width = some .w1 ∧ (tBuffer .w1 2 [5, 5, 5]).cfg.nplanes = ((2 : Nat) : Int)
      ∧ 1 < 2 ∧ InputWhole .w1 (tBuffer .w1 2 [5, 5, 5]).inb
      ∧ AcceptsWrites (2 * planeLength 2 (tBuffer .w1 2 [5, 5, 5]).inb.elems 1 + 1) (tBuffer .w1 2 [5, 5, 5]) := by
  decide

theorem test_meets_EqualElementsAreFullRuns :
    widthOf? (tBuffer .w1 1 [5, 5]).cfg.width = some .w1 ∧ (tBuffer .w1 1 [5, 5]).cfg.nplanes = ((1 : Nat) : Int) ∧ 0 < 1
      ∧ InputWhole .w1 (tBuffer .w1 1 [5, 5]).inb
      ∧ AcceptsWrites (2 * planeLength 1 (tBuffer .w1 1 [5, 5]).inb.elems 0 + 1) (tBuffer .w1 1 [5, 5])
      ∧ planeElements 1 0 (elementsOf .w1 (effectiveOrder (tBuffer .w1 1 [5, 5])) (inputBytes (tBuffer .w1 1 [5, 5]).inb))
        = List.replicate 2 5 := by
  decide

theorem test_meets_DistinctElementsAreFullLiterals :
    widthOf? (tBuffer .w1 1 [1, 2]).cfg.width = some .w1 ∧ (tBuffer .w1 1 [1, 2]).cfg.nplanes = ((1 : Nat) : Int) ∧ 0 < 1
      ∧ InputWhole .w1 (tBuffer .w1 1 [1, 2]).inb
      ∧ AcceptsWrites (2 * planeLength 1 (tBuffer .w1 1 [1, 2]).inb.elems 0 + 1) (tBuffer .w1 1 [1, 2])
      ∧ planeElements 1 0 (elementsOf .w1 (effectiveOrder (tBuffer .w1 1 [1, 2])) (inputBytes (tBuffer .w1 1 [1, 2]).inb))
        = [1, 2]
      ∧ AdjacentDistinct [1, 2] := by
  decide

theorem test_meets_EmptyPlaneIsOneTerminator :
    widthOf? (tBuffer .w1 5 [1, 2]).cfg.width = some .w1 ∧ ((2 : Nat) : Int) < (tBuffer .w1 5 [1, 2]).cfg.nplanes
      ∧ (tBuffer .w1 5 [1, 2]).inb.elems ≤ 2 ∧ AcceptsWrites 1 (tBuffer .w1 5 [1, 2]) := by
  decide

theorem test_meets_EncodeWritesStream :
    widthOf? (tBuffer .w2 2 [1, 0, 2, 0]).cfg.width = some .w2
      ∧ (tBuffer .w2 2 [1, 0, 2, 0]).cfg.nplanes = ((2 : Nat) : Int) ∧ 1 ≤ 2 ∧ InputWhole .w2 (tBuffer .w2 2 [1, 0, 2, 0]).inb
      ∧ AcceptsWrites (2 * (tBuffer .w2 2 [1, 0, 2, 0]).inb.elems + 2) (tBuffer .w2 2 [1, 0, 2, 0]) := by
  decide

theorem test_meets_NoPlaneToEncode :
    (tBuffer .w1 0 [1]).cfg.nplanes < 1 ∧ (tBuffer .w1 2 [1]).cfg.nplanes ≤ ((2 : Nat) : Int) := by
  decide

theorem test_meets_OpenPositionsSink :
    (nextOpen (tBlock 1 false 1 false [] [1])).1 = .opened
      ∧ (nextOpen { State.reset with env := { State.reset.env with opens := [.refused true] } }).1 = .refused true := by
  decide

theorem test_meets_PutAppendsElement :
    widthOf? (tBlock 2 true 1 false [] []).cfg.width = some .w2 ∧ 0xFFFF < 2 ^ (8 * widthBytes .w2)
      ∧ (nextWrite (tBlock 2 true 1 false [] [])).1 = .accepted
      ∧ (nextWrite { tBlock 2 true 1 false [] [] with env := { State.reset.env with writes := [.refused 1] } }).1
        = .refused 1 := by
  decide

theorem test_meets_TermPutsZeroElement :
    widthOf? (tBlock 4 true 1 false [] []).cfg.width = some .w4 ∧ AcceptsWrites 1 (tBlock 4 true 1 false [] []) := by
  decide

theorem test_meets_SinkBytesNeverChange :
    (∃ t, exec .sinkOpen (tBlock 1 false 1 true [] [1]) = .next t ∧ (tBlock 1 false 1 true [] [1]).cfg.append = true)
      ∧ ∃ t, exec (.sinkPut 7) (tBlock 1 false 1 false [] [1]) = .next t ∧ Instr.sinkPut 7 ≠ .sinkOpen
        ∧ Instr.sinkPut 7 ≠ .blkStart :=
  ⟨⟨_, rfl, rfl⟩, _, rfl, by decide, by decide⟩

theorem test_meets_ResetDuringWriteAbandons :
    widthOf? (tBlock 2 true 1 false [] []).cfg.width = some .w2 ∧ 0x8003 < 2 ^ (8 * widthBytes .w2)
      ∧ (nextWrite { tBlock 2 true 1 false [] [] with env := { State.reset.env with writes := [.reset 1] } }).1
        = .reset 1 := by
  decide

theorem test_meets_ConfigStoresAnyValue :
    State.reset.res.st ≠ .busy ∧ State.reset.beginRun.res.st = .busy := by
  decide

theorem test_meets_CheckRejectsIllegalConfig :
    ((tBlock 3 false 1 false [] []).cfg.width ≠ 1 ∧ (tBlock 3 false 1 false [] []).cfg.width ≠ 2
        ∧ (tBlock 3 false 1 false [] []).cfg.width ≠ 4)
      ∧ ((tBlock 1 false 0 false [] []).cfg.width = 1 ∧ (tBlock 1 false 0 false [] []).cfg.nplanes < 1)
      ∧ ((tBlock 4 false 1 false [] []).cfg.width = 4 ∧ 1 ≤ (tBlock 4 false 1 false [] []).cfg.nplanes) := by
  decide

theorem test_meets_IllegalConfigTouchesNothing :
    ((tBlock 3 false 0 false [] []).res.st ≠ .busy ∧ widthOf? (tBlock 3 false 0 false [] []).cfg.width = none)
      ∧ ((tBlock 1 false 0 false [] []).res.st ≠ .busy ∧ (widthOf? (tBlock 1 false 0 false [] []).cfg.width).isSome = true
        ∧ (tBlock 1 false 0 false [] []).cfg.nplanes < 1) := by
  decide

theorem test_meets_LoadAllocatesThenReads :
    (nextLoad { tBlock 1 false 1 false [5] [] with env := { State.reset.env with loads := [.attempt false true] } }).1
        = .attempt false true
      ∧ (nextLoad { tBlock 1 false 1 false [5] [] with env := { State.reset.env with loads := [.attempt true false] } }).1
        = .attempt true false
      ∧ ((nextLoad { tBlock 1 false 1 false [5] [] with env := State.reset.env }).1 = .attempt true true
        ∧ ([] : List Byte).length < (tBlock 1 false 1 false [5] []).cfg.len)
      ∧ ((nextLoad (tBlock 1 false 1 false [5] [])).1 = .attempt true true
        ∧ (tBlock 1 false 1 false [5] []).cfg.len ≤ (tBlock 1 false 1 false [5] []).env.input.length) := by
  decide

theorem test_meets_FailedLoadLeavesSink :
    (tBlock 1 false 1 false [5] [1]).res.st ≠ .busy ∧ widthOf? (tBlock 1 false 1 false [5] [1]).cfg.width = some .w1
      ∧ 1 ≤ (tBlock 1 false 1 false [5] [1]).cfg.nplanes
      ∧ (nextLoad { tBlock 1 false 1 false [5] [1] with env := { State.reset.env with loads := [.attempt true false] } }).1
        = .attempt true false
      ∧ (true && false) = false := by
  decide

theorem test_meets_PadCompletesLastElement :
    (widthOf? (tBlock 4 true 1 false [1, 2, 3, 4, 5, 6] []).cfg.width = some .w4
      ∧ ({ tBlock 4 true 1 false [1, 2, 3, 4, 5, 6] [] with
          env := { State.reset.env with loaded := some [1, 2, 3, 4, 5, 6] } } : State).env.loaded
        = some [1, 2, 3, 4, 5, 6]
      ∧ ([1, 2, 3, 4, 5, 6] : List Byte).length = (tBlock 4 true 1 false [1, 2, 3, 4, 5, 6] []).cfg.len)
      ∧ widthOf? State.reset.cfg.width = some .w1 ∧ State.reset.env.loaded = none := by
  decide

theorem test_meets_StartCompletes :
    ReadyToRun .w2 (tBlock 2 true 2 false [0, 1, 1] [9]) ∧ (tBlock 2 true 2 false [0, 1, 1] [9]).cfg.nplanes = ((2 : Nat) : Int)
      ∧ AcceptsWrites (2 * logicalLength .w2 (tBlock 2 true 2 false [0, 1, 1] [9]) + 2) (tBlock 2 true 2 false [0, 1, 1] [9]) := by
  decide

/-- The block of `tBlock 1 false 2 true [3] [9]`, its writes answered by `ws`, its open by `os`. -/
def tRefusing (os : List OpenAnswer) (ws : List WriteAnswer) : State :=
  { tBlock 1 false 2 true [3] [9] with
    env := { (tBlock 1 false 2 true [3] [9]).env with opens := os, writes := ws } }

/-- For each clause: not busy; an open refused; of the stream `01 03 00 00` two writes accepted and the third refused. -/
theorem test_meets_StartAlwaysEnds :
    (tBlock 2 true 2 false [0, 1, 1] [9]).res.st ≠ .busy
      ∧ ((tRefusing [.refused true] []).res.st ≠ .busy ∧ widthOf? (tRefusing [.refused true] []).cfg.width = some .w1
        ∧ 1 ≤ (tRefusing [.refused true] []).cfg.nplanes
        ∧ (tRefusing [.refused true] []).cfg.len ≤ (tRefusing [.refused true] []).env.input.length
        ∧ (nextLoad (tRefusing [.refused true] [])).1 = .attempt true true
        ∧ (nextOpen (tRefusing [.refused true] [])).1 = .refused true)
      ∧ ReadyToRun .w1 (tRefusing [] [.accepted, .accepted, .refused 0])
      ∧ (tRefusing [] [.accepted, .accepted, .refused 0]).env.writes
        = List.replicate 2 .accepted ++ .refused 0 :: []
      ∧ (tNext (exec .blkStart (tRefusing [] []))).map (fun t => (t.res.encodedBytes, t.sink.out))
        = some (4, [9, 1, 3, 0, 0])
      ∧ 2 * widthBytes .w1 < 4 := by
  decide

theorem test_meets_ReaderInvertsEncoder :
    ReadyToRun .w1 (tBlock 1 false 3 true [1, 2, 3, 4] [9]) ∧ (tBlock 1 false 3 true [1, 2, 3, 4] [9]).cfg.nplanes = ((3 : Nat) : Int)
      ∧ AcceptsWrites (2 * logicalLength .w1 (tBlock 1 false 3 true [1, 2, 3, 4] [9]) + 3)
        (tBlock 1 false 3 true [1, 2, 3, 4] [9]) := by
  decide

theorem test_meets_StreamDependsOnInputAlone :
    ReadyToRun .w1 (tBlock 1 false 1 true [1, 2] [9]) ∧ ReadyToRun .w1 (tBlock 1 false 1 false [1, 2] [])
      ∧ (tBlock 1 false 1 true [1, 2] [9]).cfg.nplanes = ((1 : Nat) : Int)
      ∧ (tBlock 1 false 1 false [1, 2] []).cfg.nplanes = ((1 : Nat) : Int)
      ∧ (tBlock 1 false 1 true [1, 2] [9]).cfg.len = (tBlock 1 false 1 false [1, 2] []).cfg.len
      ∧ effectiveOrder (tBlock 1 false 1 true [1, 2] [9]) = effectiveOrder (tBlock 1 false 1 false [1, 2] [])
      ∧ (tBlock 1 false 1 true [1, 2] [9]).env.input.take 2 = (tBlock 1 false 1 false [1, 2] []).env.input.take 2
      ∧ AcceptsWrites (2 * logicalLength .w1 (tBlock 1 false 1 true [1, 2] [9]) + 1) (tBlock 1 false 1 true [1, 2] [9])
      ∧ AcceptsWrites (2 * logicalLength .w1 (tBlock 1 false 1 false [1, 2] []) + 1) (tBlock 1 false 1 false [1, 2] [])
      ∧ (tNext (exec .blkStart (tBlock 1 false 1 true [1, 2] [9]))).isSome = true
      ∧ (tNext (exec .blkStart (tBlock 1 false 1 false [1, 2] []))).isSome = true := by
  decide

/-- P6: plane 1 of two planes of `7 5 8 5` and plane 0 of one plane of `5 5` have the elements `5 5`. -/
theorem test_meets_StreamDependsOnInputAlone_planes :
    widthOf? (tBuffer .w1 2 [7, 5, 8, 5]).cfg.width = some .w1 ∧ widthOf? (tBuffer .w1 1 [5, 5]).cfg.width = some .w1
      ∧ (tBuffer .w1 2 [7, 5, 8, 5]).cfg.nplanes = ((2 : Nat) : Int) ∧ (tBuffer .w1 1 [5, 5]).cfg.nplanes = ((1 : Nat) : Int)
      ∧ InputWhole .w1 (tBuffer .w1 2 [7, 5, 8, 5]).inb ∧ InputWhole .w1 (tBuffer .w1 1 [5, 5]).inb
      ∧ effectiveOrder (tBuffer .w1 2 [7, 5, 8, 5]) = effectiveOrder (tBuffer .w1 1 [5, 5])
      ∧ planeElements 2 1 (elementsOf .w1 (effectiveOrder (tBuffer .w1 2 [7, 5, 8, 5])) (inputBytes (tBuffer .w1 2 [7, 5, 8, 5]).inb))
        = planeElements 1 0 (elementsOf .w1 (effectiveOrder (tBuffer .w1 1 [5, 5])) (inputBytes (tBuffer .w1 1 [5, 5]).inb))
      ∧ AcceptsWrites (2 * planeLength 2 (tBuffer .w1 2 [7, 5, 8, 5]).inb.elems 1 + 1) (tBuffer .w1 2 [7, 5, 8, 5])
      ∧ AcceptsWrites (2 * planeLength 1 (tBuffer .w1 1 [5, 5]).inb.elems 0 + 1) (tBuffer .w1 1 [5, 5]) := by
  decide

theorem test_meets_ReportGivesByteCounts : State.reset.endRun.res.st = .done := by decide

theorem test_meets_StatusGivesResult :
    State.reset.res.st ≠ .done ∧ (raiseError .ioFailure (some .write) State.reset).res.st = .error := by
  decide

theorem test_meets_ReaderTakesToken :
    (tReader .w1 1 [0xFF, 0x07, 0x00]).rd.running = true ∧ (tReader .w1 1 [0xFF, 0x07, 0x00]).rd.width = .w1
      ∧ tokenWidth? (.runW1 127 7) = some .w1 ∧ (Instr.runW1 127 7).wellFormed = true
      ∧ (isRunToken (.runW1 127 7) || isLiteralToken (.runW1 127 7)) = true := by
  decide

theorem test_meets_ReaderEndsPlaneAtTerminator_more :
    (tReader .w1 2 [0x00, 0x00]).rd.running = true ∧ (tReader .w1 2 [0x00, 0x00]).rd.width = .w1
      ∧ Instr.termW1 = termToken .w1 ∧ (tReader .w1 2 [0x00, 0x00]).rd.done.length + 1 < (tReader .w1 2 [0x00, 0x00]).rd.nplanes := by
  decide

theorem test_meets_ReaderEndsPlaneAtTerminator_last :
    (tReader .w2 1 [0x00, 0x00]).rd.running = true ∧ (tReader .w2 1 [0x00, 0x00]).rd.width = .w2
      ∧ Instr.termW2 = termToken .w2 ∧ (tReader .w2 1 [0x00, 0x00]).rd.done.length + 1 = (tReader .w2 1 [0x00, 0x00]).rd.nplanes
      ∧ (tReader .w2 1 [0x00, 0x00]).rd.pos + widthBytes .w2 = (tReader .w2 1 [0x00, 0x00]).rd.bytes.length
      ∧ (tReader .w2 1 [0x00, 0x00]).rd.done ++ [(tReader .w2 1 [0x00, 0x00]).rd.cur]
        = (List.range (tReader .w2 1 [0x00, 0x00]).rd.nplanes).map
            (fun p => planeElements (tReader .w2 1 [0x00, 0x00]).rd.nplanes p []) := by
  decide

/-- One witness for each clause: bytes cut in a control word, in a run (`82`), in a literal (`02 01`), bytes left over
after the last terminator, planes of 0 and 1 elements (which no interleaving has). -/
theorem test_meets_ReaderRefusesBadStreams :
    ((tReader .w2 1 [0x00]).rd.running = true ∧ (tReader .w2 1 [0x00]).rd.width = .w2 ∧ 1 < 2
        ∧ (tReader .w2 1 [0x00]).rd.bytes.length < (tReader .w2 1 [0x00]).rd.pos + widthBytes .w2)
      ∧ ((tReader .w1 1 [0x82]).rd.running = true ∧ assemble (tReader .w1 1 [0x82]).rd.order [0x82] = 0x82
        ∧ runFlagSet .w1 0x82 = true ∧ (tReader .w1 1 [0x82]).rd.bytes.length < 0 + 2 * widthBytes .w1)
      ∧ ((tReader .w1 1 [2, 1]).rd.running = true ∧ assemble (tReader .w1 1 [2, 1]).rd.order [2] = 2
        ∧ runFlagSet .w1 2 = false ∧ (tReader .w1 1 [2, 1]).rd.bytes.length < 0 + (1 + 2) * widthBytes .w1)
      ∧ ((tReader .w1 1 [0, 7]).rd.running = true
        ∧ (tReader .w1 1 [0, 7]).rd.done.length + 1 = (tReader .w1 1 [0, 7]).rd.nplanes
        ∧ (tReader .w1 1 [0, 7]).rd.pos + widthBytes .w1 < (tReader .w1 1 [0, 7]).rd.bytes.length)
      ∧ (∃ s : State, s.rd = { (tReader .w1 2 [0, 1, 5, 0]).rd with pos := 3, done := [[]], cur := [5] }
        ∧ s.rd.running = true ∧ s.rd.done.length + 1 = s.rd.nplanes ∧ s.rd.pos + widthBytes .w1 = s.rd.bytes.length
        ∧ ((s.rd.done ++ [s.rd.cur]).getD 0 []).length
          ≠ planeLength s.rd.nplanes (totalLength (s.rd.done ++ [s.rd.cur])) 0) := by
  refine ⟨by decide, by decide, by decide, by decide,
    { tReader .w1 2 [0, 1, 5, 0] with
      rd := { (tReader .w1 2 [0, 1, 5, 0]).rd with pos := 3, done := [[]], cur := [5] } }, rfl, by decide⟩

theorem test_meets_StepRunsDecodedToken :
    (tReader .w1 1 [0x82, 0x09, 0x00]).rd.running = true
      ∧ decode (tReader .w1 1 [0x82, 0x09, 0x00]).rd.width (tReader .w1 1 [0x82, 0x09, 0x00]).rd.order
          ((tReader .w1 1 [0x82, 0x09, 0x00]).rd.bytes.drop (tReader .w1 1 [0x82, 0x09, 0x00]).rd.pos)
        = .ok (.runW1 2 9, [0x00]) := by
  decide

theorem test_meets_StepServesHost :
    State.reset.rd.running = false ∧ ({ State.reset with hostq := [.invoke .blkStart] } : State).hostq = .invoke .blkStart :: []
      ∧ ({ State.reset with hostq := [.supplyInput [1]] } : State).hostq = .supplyInput [1] :: []
      ∧ ({ State.reset with hostq := [.supplySink [1]] } : State).hostq = .supplySink [1] :: []
      ∧ ({ State.reset with hostq := [.blockReset] } : State).hostq = .blockReset :: []
      ∧ ({ State.reset with hostq := [.read [0] 1 .w1 .big] } : State).hostq = .read [0] 1 .w1 .big :: []
      ∧ ({ State.reset with hostq := [.read [0] 0 .w1 .big] } : State).hostq = .read [0] 0 .w1 .big :: []
      ∧ ({ State.reset with hostq := [.read [] 0 .w1 .big] } : State).hostq = .read [] 0 .w1 .big :: []
      ∧ State.reset.hostq = [] := by
  decide

theorem test_meets_StepKeepsMachineInvariant : MachineInv State.reset ∧ step State.reset = .next State.reset := by
  refine ⟨⟨by decide, by decide, ⟨by decide, by decide, rfl⟩, by decide⟩, rfl⟩

theorem test_meets_Frames :
    NoResetListed State.reset ∧ (∀ c, Instr.encReset ≠ .blkConfig c) ∧ unitOf (.ser 1) ≠ .enc ∧ unitOf (.ser 1) ≠ .ps
      ∧ writesSink (.ser 1) = false ∧ Instr.encReset ≠ .blkStart ∧ Instr.encReset ≠ .sinkOpen ∧ Instr.encReset ≠ .blkPad
      ∧ unitOf .encReset ≠ .token ∧ (∃ t, exec (.ser 1) State.reset = .next t) ∧ ∃ t, exec .encReset State.reset = .next t :=
  ⟨⟨List.not_mem_nil, fun _ => List.not_mem_nil, fun _ => List.not_mem_nil⟩, by simp, by decide, by decide, by decide, by decide, by decide, by decide, by decide, ⟨_, rfl⟩,
    _, rfl⟩

end Sys2Proof.Tests
end

