-- ==== Sys2Proof/Proofs/ControlWordPolicy.lean ====
section
/-! PROOFS. ControlWordPolicy (40_control_word_policy): the layout of the control word and the two formatting functions,
each with its operand range. -/

namespace Sys2Proof.Machine

/-- The run flag as the statements spell it (R77). -/
theorem two_pow_eq_runFlagOf (w : Width) : 2 ^ (8 * widthBytes w - 1) = runFlagOf w := rfl

/-- The statements' bound `2^(8W−1) − 2` is `MAXRUN − 1`; its truncated subtraction loses nothing, as `CAP > 2`. -/
theorem runRange_iff (w : Width) (rc : Nat) : 1 ≤ rc ∧ rc ≤ runFlagOf w - 2 ↔ 1 ≤ rc ∧ rc + 1 ≤ capOf w := by
  have hcap := capOf_succ w
  have hpos := two_lt_capOf w
  omega

/-- At a legal operand width no `POL` function is refused for its width (R71). -/
@[simp] theorem withOperandWidth_widthBytes (w : Width) (k : Width → Flow) :
    withOperandWidth (widthBytes w) k = k w := by
  rw [withOperandWidth, widthOf?_widthBytes]

/-- `POL.FMT_RUN` inside its operand range (R78, with `MAXRUN = CAP` of R75). -/
theorem exec_polFmtRun_of_range (w : Width) (rc : Nat) (s : State) (h : 1 ≤ rc ∧ rc + 1 ≤ capOf w) :
    exec (.polFmtRun (widthBytes w) rc) s = .next (s.answer (.number (runFlagOf w ||| (rc + 1)))) := by
  have hword : fmtRun (hardwarePolicy w) rc = some (runFlagOf w ||| (rc + 1)) := if_pos h
  simp [exec, execPolFmtRun, hword]

theorem exec_polFmtRun_out_of_range (w : Width) (rc : Nat) (s : State) (h : ¬(1 ≤ rc ∧ rc + 1 ≤ capOf w)) :
    exec (.polFmtRun (widthBytes w) rc) s = .refused .fmtRunRange := by
  have hword : fmtRun (hardwarePolicy w) rc = none := if_neg h
  simp [exec, execPolFmtRun, hword]

/-- `POL.FMT_LIT` inside its operand range (R79, with `MAXLIT = CAP` of R76). -/
theorem exec_polFmtLit_of_range (w : Width) (n : Nat) (s : State) (h : 1 ≤ n ∧ n ≤ capOf w) :
    exec (.polFmtLit (widthBytes w) n) s = .next (s.answer (.number n)) := by
  have hword : fmtLit (hardwarePolicy w) n = some n := if_pos h
  simp [exec, execPolFmtLit, hword]

theorem exec_polFmtLit_out_of_range (w : Width) (n : Nat) (s : State) (h : ¬(1 ≤ n ∧ n ≤ capOf w)) :
    exec (.polFmtLit (widthBytes w) n) s = .refused .fmtLitRange := by
  have hword : fmtLit (hardwarePolicy w) n = none := if_neg h
  simp [exec, execPolFmtLit, hword]

theorem bytesLE_zero (n : Nat) : bytesLE n 0 = List.replicate n 0 := by
  induction n with
  | zero => rfl
  | succ n ih => simp [bytesLE, ih, List.replicate_succ]

/-- In either byte order the element 0 is `W` zero bytes (R80 on the wire). -/
theorem serialise_zero (w : Width) (o : ByteOrder) : serialise w o 0 = List.replicate (widthBytes w) 0 := by
  cases o <;> simp [serialise, bytesLE_zero]

/-- Settles O9: inside the range `rc + 1` is below the run flag, so the bitwise or is the sum. -/
theorem policyFormatsRun : Obligations.PolicyFormatsRun := by
  intro s w rc
  rw [two_pow_eq_runFlagOf, runRange_iff]
  constructor
  · intro hrange
    have hbelow : rc + 1 < runFlagOf w := by
      have hcap := capOf_succ w
      omega
    have hor : runFlagOf w ||| (rc + 1) = runFlagOf w + rc + 1 := runFlag_or w (rc + 1) hbelow
    exact ⟨hor ▸ exec_polFmtRun_of_range w rc s hrange, hor⟩
  · exact exec_polFmtRun_out_of_range w rc s

/-- Settles O10: `MAXLIT` is `CAP`, one below the run flag, so a literal's word has its top bit clear. -/
theorem policyFormatsLiteral : Obligations.PolicyFormatsLiteral := by
  intro s w n
  constructor
  · intro hrange
    have hbelow : n < runFlagOf w := by
      have hcap := capOf_succ w
      have hle : n ≤ capOf w := hrange.2
      omega
    exact ⟨exec_polFmtLit_of_range w n s hrange, runFlagSet_small w n hbelow⟩
  · exact exec_polFmtLit_out_of_range w n s

/-- Settles O6: each function is answered at the legal width it names (R71) with the value of its definition. -/
theorem policyWordLayout : Obligations.PolicyWordLayout := by
  intro s w
  refine ⟨?bits, ?cap, ?runflag, ?pred, ?term, serialise_zero w⟩
  case bits => simp [exec, execPolBits, bitsOf]
  case cap => simp [exec, execPolCap, capOf, bitsOf]
  case runflag => simp [exec, execPolRunflag, runFlagOf, bitsOf]
  case pred =>
    have hcap := capOf_succ w
    omega
  case term => simp [exec, execPolFmtTerm, fmtTerm]

end Sys2Proof.Machine
end

