-- ==== Sys2Proof/Proofs/RleEncoder.lean ====
section
/-! PROOFS. RunLengthEncoder (41_rle_encoder): `ENC.ADD` case by case as in the table R96, and the arms of `ENC.FLUSH`. -/

namespace Sys2Proof.Machine

@[simp] theorem hardwarePolicy_width (w : Width) : (hardwarePolicy w).width = w := rfl
@[simp] theorem hardwarePolicy_maxRun (w : Width) : (hardwarePolicy w).maxRun = capOf w := rfl
@[simp] theorem hardwarePolicy_maxLit (w : Width) : (hardwarePolicy w).maxLit = capOf w := rfl

theorem elementsFit_singleton {w : Width} {e : Nat} (h : e < elemLimit w) : ElementsFit w [e] := by
  simpa [ElementsFit] using h

/-! ### The instructions at a legal width -/

/-- `ENC.ADD(v)` of an element of the configured width (R83) is `addElement` with the hardware's policy (R12). -/
theorem exec_encAdd {s : State} {w : Width} {v : Nat} (hw : widthOf? s.cfg.width = some w) (hv : v < elemLimit w) :
    exec (.encAdd v) s = (addElement (hardwarePolicy w) v s).outcome := by
  simp [exec, execEncAdd, withPolicy, withWidth, withElement, hw, hv]

theorem exec_encAdd_accepted {s : State} {w : Width} {v : Nat} {ws : List Nat} {e : Enc}
    (hw : widthOf? s.cfg.width = some w) (hi : EncInv (hardwarePolicy w) s.enc) (hfit : ElementsFit w s.enc.pending)
    (hv : v < elemLimit w) (hwords : addWords (hardwarePolicy w) v s.enc = (ws, e)) (ha : AcceptsWrites ws.length s) :
    exec (.encAdd v) s = .next { s.emitted w ws with enc := e } := by
  have hadd := addElement_accepted (hardwarePolicy w) v s (hardwarePolicy_ok w) hi hfit hv (by rwa [hwords])
  rw [exec_encAdd hw hv, hadd, hwords]
  rfl

theorem exec_encFlush_of_empty {s : State} (h : s.enc.isEmpty = true) : exec .encFlush s = .next s := by
  simp [exec, execEncFlush, h]

theorem exec_encFlush_of_held {s : State} {w : Width} (hw : widthOf? s.cfg.width = some w)
    (h : s.enc.isEmpty = false) : exec .encFlush s = (flush (hardwarePolicy w) s).outcome := by
  simp [exec, execEncFlush, withPolicy, withWidth, hw, h]

/-! ### The words a flush puts -/

theorem flushWords_run (pol : Policy) (a n : Nat) :
    flushWords pol { pending := [a], rc := n + 1 } = [runFlagOf pol.width ||| (n + 2), a] := by
  simp [flushWords]

theorem flushWords_literal (pol : Policy) {q : List Nat} (h : 1 ≤ q.length) :
    flushWords pol { pending := q, rc := 0 } = q.length :: q := by
  simp only [flushWords, Nat.lt_irrefl, if_false]
  exact if_pos h

/-- The control word of a run that fits the count field is the sum of flag and count (R78). -/
theorem runWord_eq_add {w : Width} {k : Nat} (h : k ≤ capOf w) : runFlagOf w ||| k = runFlagOf w + k :=
  runFlag_or w k (by have := capOf_succ w; omega)

/-- The control word of a run of `MAXRUN` elements has all bits set (R87). -/
theorem fullRunWord (w : Width) : runFlagOf w ||| capOf w = elemLimit w - 1 := by
  have hcap := capOf_succ w
  have hlimit := elemLimit_eq_runFlag w
  have hword := runWord_eq_add (Nat.le_refl (capOf w))
  omega

/-- The run arm (R92). The count may stand at `MAXRUN − 1`, one beyond the invariants of R97. -/
theorem flush_run_accepted {s : State} {w : Width} {a n : Nat} (henc : s.enc = { pending := [a], rc := n + 1 })
    (hn : n + 2 ≤ capOf w) (hfit : a < elemLimit w) (ha : AcceptsWrites 2 s) :
    flush (hardwarePolicy w) s = .cont { s.emitted w [runFlagOf w + (n + 2), a] with enc := encEmpty } := by
  have hwords : flushWords (hardwarePolicy w) s.enc = [runFlagOf w + (n + 2), a] := by
    rw [henc, flushWords_run, hardwarePolicy_width, runWord_eq_add hn]
  have hf : FlushOk (hardwarePolicy w) s.enc := by
    have hcap := two_lt_capOf w
    rw [henc]
    exact ⟨Or.inr rfl, by simp; omega, hn⟩
  have hfits : ElementsFit w s.enc.pending := henc ▸ elementsFit_singleton hfit
  have hflush := flush_accepted (hardwarePolicy w) s (hardwarePolicy_ok w) hf hfits (by rwa [hwords])
  rwa [hwords] at hflush

/-- The literal arm (R93). The span may hold `MAXLIT` elements, one beyond the invariants of R97. -/
theorem flush_literal_accepted {s : State} {w : Width} {q : List Nat} (henc : s.enc = { pending := q, rc := 0 })
    (hpos : 1 ≤ q.length) (hlen : q.length ≤ capOf w) (hfit : ElementsFit w q) (ha : AcceptsWrites (q.length + 1) s) :
    flush (hardwarePolicy w) s = .cont { s.emitted w (q.length :: q) with enc := encEmpty } := by
  have hwords : flushWords (hardwarePolicy w) s.enc = q.length :: q := by
    rw [henc, flushWords_literal _ hpos]
  have hf : FlushOk (hardwarePolicy w) s.enc := by
    have hcap := two_lt_capOf w
    rw [henc]
    exact ⟨Or.inl rfl, hlen, by simp; omega⟩
  have hflush := flush_accepted (hardwarePolicy w) s (hardwarePolicy_ok w) hf (by rwa [henc]) (by rwa [hwords])
  rwa [hwords] at hflush

/-! ### The cases of `ENC.ADD` -/

/-- Case A1 below the threshold of A3 (R85): the span before the repeated element becomes one literal token. -/
theorem addWords_fold {pol : Policy} {v : Nat} {e : Enc} (hlast : e.pending.getLast? = some v) (hrc : e.rc = 0)
    (hlen : 2 ≤ e.pending.length) (hthr : 1 ≠ pol.maxRun - 1) :
    addWords pol v e = ((e.pending.length - 1) :: e.pending.dropLast, { pending := [v], rc := 1 }) := by
  have hspan : 1 ≤ e.pending.dropLast.length := by
    rw [List.length_dropLast]
    omega
  simp [addWords, hlast, hrc, hlen, hthr, flushWords_literal pol hspan]

/-- Case A2 below the threshold of A3 (R86): the repeat is counted. -/
theorem addWords_repeat {pol : Policy} {v n : Nat} (hthr : n + 1 ≠ pol.maxRun - 1) :
    addWords pol v { pending := [v], rc := n } = ([], { pending := [v], rc := n + 1 }) := by
  simp [addWords, hthr]

/-- Case A3 (R87). -/
theorem addWords_full_run {pol : Policy} {v n : Nat} (hthr : n + 1 = pol.maxRun - 1) :
    addWords pol v { pending := [v], rc := n } = ([runFlagOf pol.width ||| (n + 2), v], encEmpty) := by
  simp [addWords, ← hthr, flushWords_run]

/-- Case A6 (R90). -/
theorem addWords_full_literal {pol : Policy} {v a : Nat} {q : List Nat} (hva : v ≠ a)
    (hlen : q.length + 2 = pol.maxLit) :
    addWords pol v { pending := q ++ [a], rc := 0 } = ((q.length + 2) :: (q ++ [a, v]), encEmpty) := by
  simp [addWords, hva, ← hlen, flushWords_literal]

/-- Case A4 (R88), for any count and any policy. -/
theorem addElement_break_run (pol : Policy) {s : State} {v a n : Nat} (henc : s.enc = { pending := [a], rc := n + 1 })
    (hva : v ≠ a) : addElement pol v s = (flush pol s).andThen fun t => .cont (t.setPending [v]) := by
  simp [addElement, henc, hva]

/-- Case A5 (R89): it depends on the length after the append alone, not on the invariants. -/
theorem addElement_extend_literal {pol : Policy} {s : State} {v a : Nat} {q : List Nat}
    (henc : s.enc = { pending := q ++ [a], rc := 0 }) (hva : v ≠ a) (hlen : q.length + 2 ≠ pol.maxLit) :
    addElement pol v s = .cont (s.setPending (q ++ [a, v])) := by
  simp [addElement, henc, hva, hlen]

/-! ### The statements -/

/-- Settles O12: `ENC.RESET` clears the two registers and does nothing more. -/
theorem encResetEmpties : Obligations.EncResetEmpties := by
  intro s
  rfl

/-- Settles O13: with nothing pending there is no last element to compare with (case A0). -/
theorem addTakesFirstElement : Obligations.AddTakesFirstElement := by
  intro s w v hw hv henc
  rw [exec_encAdd hw hv]
  simp [addElement, henc, State.setPending]

/-- Settles O14: below the threshold only the fold of a literal span puts words. -/
theorem addFoldsAndCountsRepeat : Obligations.AddFoldsAndCountsRepeat := by
  intro s w v hw hi hfit hlast hbelow ha
  have hv : v < elemLimit w := hfit v (List.mem_of_getLast? hlast)
  have hthr : s.enc.rc + 1 < capOf w - 1 := hbelow
  constructor
  · intro hlen
    obtain ⟨⟨hzeroOrOne, -⟩, -, -⟩ := id hi
    have hrc : s.enc.rc = 0 := hzeroOrOne.resolve_right (by omega)
    have hwords := addWords_fold (pol := hardwarePolicy w) hlast hrc hlen (by simp; omega)
    refine exec_encAdd_accepted hw hi hfit hv hwords (ha.mono ?_)
    simp only [List.length_cons, List.length_dropLast]
    omega
  · intro hlen
    obtain ⟨a, hpending⟩ := List.length_eq_one_iff.mp hlen
    obtain rfl : a = v := by simpa [hpending] using hlast
    have henc : s.enc = { pending := [a], rc := s.enc.rc } := by rw [← hpending]
    have hwords := addWords_repeat (pol := hardwarePolicy w) (v := a) (n := s.enc.rc)
      (by simp; omega)
    rw [← henc] at hwords
    rw [exec_encAdd_accepted hw hi hfit hv hwords (ha.mono (Nat.zero_le _)), emitted_nil]

/-- Settles O15: `rc = MAXRUN − 2` and `|pending| = MAXLIT − 1` are the largest values the invariants allow, and the
addition that would pass them flushes. -/
theorem addForcesFlushAtCapacity : Obligations.AddForcesFlushAtCapacity := by
  intro s w v hw hv
  have hcap := two_lt_capOf w
  constructor
  · intro henc ha
    replace henc : s.enc = { pending := [v], rc := capOf w - 2 } := henc
    have hi : EncInv (hardwarePolicy w) s.enc := by
      rw [henc]
      refine ⟨⟨Or.inr rfl, List.isChain_singleton v⟩, ?_, ?_⟩ <;> simp <;> omega
    have hwords : addWords (hardwarePolicy w) v s.enc = ([elemLimit w - 1, v], encEmpty) := by
      have hcount : capOf w - 2 + 2 = capOf w := by omega
      rw [henc, addWords_full_run (by simp; omega), hcount, hardwarePolicy_width, fullRunWord]
    exact exec_encAdd_accepted hw hi (henc ▸ elementsFit_singleton hv) hv hwords ha
  · intro q a henc hva hfit hdistinct hlen ha
    replace hlen : q.length + 2 = capOf w := hlen
    have hi : EncInv (hardwarePolicy w) s.enc := by
      rw [henc]
      refine ⟨⟨Or.inl rfl, hdistinct⟩, ?_, ?_⟩ <;> simp <;> omega
    have hwords := addWords_full_literal (pol := hardwarePolicy w) hva hlen
    rw [← henc] at hwords
    exact exec_encAdd_accepted hw hi (by rwa [henc]) hv hwords (by simpa using ha)

/-- Settles O16: the count may stand at `MAXRUN − 1`, outside the invariants, so the case goes by what a flush of a run
needs and not by them. -/
theorem addBreaksRun : Obligations.AddBreaksRun := by
  intro s w v a n hw hv hafit henc hn hva ha
  have hflush := flush_run_accepted henc hn hafit ha
  rw [exec_encAdd hw hv, addElement_break_run _ henc hva, hflush]
  rfl

/-- Settles O17: nothing is put, so neither the environment nor the invariants matter. -/
theorem addExtendsLiteral : Obligations.AddExtendsLiteral := by
  intro s w v a q hw hv henc hva hlen
  have hadd := addElement_extend_literal (pol := hardwarePolicy w) henc hva hlen
  rw [exec_encAdd hw hv, hadd]
  simp [State.setPending, henc]

/-- Settles O19: one token per arm of the flush. -/
theorem flushEmitsHeldElements : Obligations.FlushEmitsHeldElements := by
  intro s w
  refine ⟨?run, ?literal, ?empty⟩
  case run =>
    intro a n hw henc hn hafit ha
    rw [exec_encFlush_of_held hw (by simp [henc, Enc.isEmpty]), flush_run_accepted henc hn hafit ha]
    rfl
  case literal =>
    intro q hw henc hpos hlen hfit ha
    have hq : q ≠ [] := List.ne_nil_of_length_pos hpos
    rw [exec_encFlush_of_held hw (by simp [henc, Enc.isEmpty, hq]), flush_literal_accepted henc hpos hlen hfit ha]
    rfl
  case empty =>
    intro henc
    exact exec_encFlush_of_empty (by simp [henc, Enc.isEmpty])

end Sys2Proof.Machine
end

