-- ==== Sys2Proof/Proofs/OutputSink.lean ====
section
/-! PROOFS. The output sink writer (43_output_sink): the bytes `SER` answers, and the terminator as a put of 0. -/

namespace Sys2Proof.Machine

/-! ### The bytes of one element -/

/-- Least significant byte first (R112, `EORD = LITTLE`). -/
theorem serialise_little_getD {w : Width} {j : Nat} (e : Nat) (hj : j < widthBytes w) :
    (serialise w .little e).getD j 0 = BitVec.ofNat 8 (e / 256 ^ j) :=
  bytesLE_getD (widthBytes w) e j hj

/-- Most significant byte first (R112, `EORD = BIG`). -/
theorem serialise_big_getD {w : Width} {j : Nat} (e : Nat) (hj : j < widthBytes w) :
    (serialise w .big e).getD j 0 = BitVec.ofNat 8 (e / 256 ^ (widthBytes w - 1 - j)) := by
  have hmirror := List.getElem?_reverse (l := bytesLE (widthBytes w) e) (i := j) (by simpa using hj)
  rw [serialise, List.getD_eq_getElem?_getD, hmirror, bytesLE_length, ← List.getD_eq_getElem?_getD,
    bytesLE_getD _ _ _ (by omega)]

/-- The run flag of a control word is bit 7 of its most significant byte (R112, corner cases). -/
theorem topByte_getLsbD_seven {w : Width} {e : Nat} (hflag : 2 ^ (8 * widthBytes w - 1) ≤ e)
    (he : e < 2 ^ (8 * widthBytes w)) : (BitVec.ofNat 8 (e / 256 ^ (widthBytes w - 1))).getLsbD 7 = true := by
  have hpos := widthBytes_pos w
  have hbit : e.testBit (8 * widthBytes w - 1) = true :=
    Nat.testBit_of_two_pow_le_and_two_pow_add_one_gt hflag (by rwa [Nat.sub_add_cancel (by omega)])
  have hplace : 8 * (widthBytes w - 1) + 7 = 8 * widthBytes w - 1 := by omega
  rw [BitVec.getLsbD_ofNat, show (256 : Nat) = 2 ^ 8 from rfl, ← Nat.pow_mul, Nat.testBit_div_two_pow, Nat.add_comm,
    hplace, hbit]
  rfl

/-- At one byte the order has no effect (R112). -/
theorem serialise_w1 (o : ByteOrder) (e : Nat) : serialise .w1 o e = [BitVec.ofNat 8 e] := by
  cases o <;> rfl

/-! ### The instructions at a legal width -/

theorem exec_ser {s : State} {w : Width} {e : Nat} (hw : widthOf? s.cfg.width = some w) (he : e < elemLimit w) :
    exec (.ser e) s = .next (s.answer (.bytes (serialise w (effectiveOrder s) e))) := by
  simp [exec, execSer, withWidth, withElement, hw, he]

theorem exec_sinkPut {s : State} {w : Width} (hw : widthOf? s.cfg.width = some w) (e : Nat) :
    exec (.sinkPut e) s = (put w e s).outcome := by
  simp [exec, execSinkPut, withWidth, hw]

theorem exec_sinkPut_accepted {s : State} {w : Width} {e : Nat} (hw : widthOf? s.cfg.width = some w)
    (he : e < elemLimit w) (ha : AcceptsWrites 1 s) : exec (.sinkPut e) s = .next (s.emitted w [e]) := by
  rw [exec_sinkPut hw, put_accepted w e s he ha]
  rfl

/-- `POL.FMT_TERM` is 0 at every width, and at an illegal one both are refused (R80, R114). -/
theorem exec_sinkTerm (s : State) : exec .sinkTerm s = exec (.sinkPut 0) s := rfl

/-! ### One answer used up -/

theorem nextWrite_state (s : State) :
    (nextWrite s).2 = { s with env := { s.env with writes := s.env.writes.drop 1 } } := by
  unfold nextWrite
  cases hw : s.env.writes with
  | nil =>
    have henv : { s.env with writes := [] } = s.env := by rw [← hw]
    rw [List.drop_nil, henv]
  | cons a as => rfl

theorem emitted_singleton (s : State) (w : Width) (e : Nat) :
    s.emitted w [e]
      = { (nextWrite s).2 with
          sink := { s.sink with out := s.sink.out ++ serialise w (effectiveOrder s) e }
          res := { s.res with encodedBytes := s.res.encodedBytes + widthBytes w } } := by
  simp [State.emitted, nextWrite_state]

/-! ### The obligations -/

/-- Settles O5: the answer is the serialisation in the effective order, which undoes the assembly. -/
theorem serGivesBytesInOrder : Obligations.SerGivesBytesInOrder := by
  intro s w e o hw he ho
  have horder : effectiveOrder s = o := ho.symm
  refine ⟨horder, serialise w o e, horder ▸ exec_ser hw he, serialise_length w o e, ?bytes, ?flag, ?inverse, ?oneByte⟩
  case bytes =>
    intro j hj
    cases o with
    | little => exact serialise_little_getD e hj
    | big => exact serialise_big_getD e hj
  case flag =>
    intro hflag
    have hpos := widthBytes_pos w
    have htop := topByte_getLsbD_seven hflag he
    cases o with
    | little =>
      have hlast := serialise_little_getD e (Nat.sub_lt hpos Nat.one_pos)
      rwa [← hlast] at htop
    | big => rwa [serialise_big_getD e hpos]
  case inverse =>
    rintro x hx rfl
    exact serialise_of_assemble w o x hx
  case oneByte =>
    rintro rfl
    exact serialise_w1 o e

/-- Settles O34: 0 is an element at every width, and its bytes are zeros. -/
theorem termPutsZeroElement : Obligations.TermPutsZeroElement := by
  intro s
  refine ⟨exec_sinkTerm s, ?_⟩
  intro w hw ha
  have hzero : 0 < elemLimit w := Nat.two_pow_pos _
  rw [exec_sinkTerm, exec_sinkPut_accepted hw hzero ha, emitted_singleton, serialise_zero]

end Sys2Proof.Machine
end

