-- ==== Sys2Proof/Proofs/BlockControl.lean ====
section
/-! PROOFS. Block control (44_block_control): the report of a completed invocation. -/

namespace Sys2Proof.Machine

/-- In the status DONE the report is the triple of `reportOf`, and no free value is drawn (R127). -/
theorem exec_blkReport_of_done {s : State} (hdone : s.res.st = .done) :
    exec .blkReport s = .next (s.answer (reportOf s.res)) := by
  simp [exec, execBlkReport, hdone]

/-- Settles O47: the triple is `reportOf` by definition, and the answer is the only change. -/
theorem reportGivesByteCounts : Obligations.ReportGivesByteCounts := by
  intro s hdone
  rw [exec_blkReport_of_done hdone, reportOf]

end Sys2Proof.Machine
end

