-- ==== Sys2Proof/Proofs/Exceptions.lean ====
section
/-! PROOFS. Exceptions (60_exceptions): an illegal configuration, found by `BLK.CHECK` alone or at the head of
`BLK.START`. -/

namespace Sys2Proof.Machine

/-- The width is judged first, whatever the number of planes (R123). -/
theorem checkConfig_illegal_width {s : State} (hw : widthOf? s.cfg.width = none) :
    checkConfig s = .raised (raiseError .configurationError (some .width) s) := by
  simp [checkConfig, hw]

theorem checkConfig_no_planes {s : State} (hw : (widthOf? s.cfg.width).isSome = true) (hn : s.cfg.nplanes < 1) :
    checkConfig s = .raised (raiseError .configurationError (some .planes) s) := by
  obtain ⟨w, hw⟩ := Option.isSome_iff_exists.mp hw
  simp [checkConfig, hw, hn]

theorem exec_blkCheck (s : State) : exec .blkCheck s = (checkConfig s).outcome := rfl

theorem exec_blkStart_of_not_busy {s : State} (hs : s.res.st ≠ .busy) :
    exec .blkStart s = (runInvocation s).outcome := by
  simp [exec, execBlkStart, hs]

/-- An error of the check ends the invocation: load, padding, open and planes are not reached (R122, R141). -/
theorem runInvocation_of_check_raised {s t : State} (hcheck : checkConfig s.beginRun = .raised t) :
    runInvocation s = .raised t := by
  simp [runInvocation, hcheck]

/-- R137 for either cause: what the check alone records, a start records on cleared report registers. The check is asked
of every state with the configuration, as a start runs it after its first lines. -/
theorem exec_of_illegal_config {s : State} {c : Cause} (hs : s.res.st ≠ .busy)
    (hcheck : ∀ t : State, t.cfg = s.cfg → checkConfig t = .raised (raiseError .configurationError (some c) t)) :
    exec .blkStart s
        = .next { s with res := { resReset with st := .error, err := .configurationError, cause := some c } }
      ∧ exec .blkCheck s
        = .next { s with res := { s.res with st := .error, err := .configurationError, cause := some c } } := by
  constructor
  · have hrun := runInvocation_of_check_raised (hcheck s.beginRun (beginRun_cfg s))
    rw [exec_blkStart_of_not_busy hs, hrun]
    rfl
  · rw [exec_blkCheck, hcheck s rfl]
    rfl

/-- Settles O39: the check depends on the configuration alone, and its error is all that is recorded. -/
theorem illegalConfigTouchesNothing : Obligations.IllegalConfigTouchesNothing := by
  intro s hs
  constructor
  · intro hw
    exact exec_of_illegal_config hs fun t ht => checkConfig_illegal_width (by rwa [ht])
  · intro hw hn
    exact exec_of_illegal_config hs fun t ht => checkConfig_no_planes (by rwa [ht]) (by rwa [ht])

end Sys2Proof.Machine
end

