-- ==== Sys2Proof/Proofs/WireFormat.lean ====
section
/-! PROOFS. The wire format (30_encoding): decoder and encoder undo each other, and the element a group of bytes
stands for (20_memory R38). -/

namespace Sys2Proof.Machine

/-! ### The words of a token -/

theorem encodeWords_runToken {w : Width} {k v : Nat} (hk : k < runFlagOf w) (hv : v < elemLimit w) :
    encodeWords (runToken w k v) = [runFlagOf w ||| k, v] := by
  rw [encodeWords, tokenView_runToken w k v hk hv]

theorem encodeWords_litToken {w : Width} {vs : List Nat} (hv : ElementsFit w vs) :
    encodeWords (litToken w vs) = vs.length :: vs := by
  rw [encodeWords, tokenView_litToken w vs hv]

theorem encodeWords_termToken (w : Width) : encodeWords (termToken w) = [0] := by
  cases w <;> rfl

theorem tokenWidth?_runToken (w : Width) (k v : Nat) : tokenWidth? (runToken w k v) = some w := by
  cases w <;> rfl

theorem tokenWidth?_litToken (w : Width) (vs : List Nat) : tokenWidth? (litToken w vs) = some w := by
  cases w <;> rfl

theorem tokenWidth?_termToken (w : Width) : tokenWidth? (termToken w) = some w := by
  cases w <;> rfl

theorem encode_runToken {w : Width} {k v : Nat} (o : ByteOrder) (hk : k < runFlagOf w) (hv : v < elemLimit w) :
    encode o (runToken w k v) = serialiseAll w o [runFlagOf w ||| k, v] := by
  rw [encode_of_width w o _ (tokenWidth?_runToken w k v), encodeWords_runToken hk hv]

theorem encode_litToken {w : Width} {vs : List Nat} (o : ByteOrder) (hv : ElementsFit w vs) :
    encode o (litToken w vs) = serialiseAll w o (vs.length :: vs) := by
  rw [encode_of_width w o _ (tokenWidth?_litToken w vs), encodeWords_litToken hv]

theorem encode_termToken (w : Width) (o : ByteOrder) : encode o (termToken w) = serialiseAll w o [0] := by
  rw [encode_of_width w o _ (tokenWidth?_termToken w), encodeWords_termToken]

/-! ### Control words -/

/-- A control word whose run flag is set is that flag and a count below it (R54). -/
theorem controlWord_of_runFlagSet {w : Width} {c : Nat} (hc : c < elemLimit w) (hf : runFlagSet w c = true) :
    countField w c < runFlagOf w ∧ runFlagOf w ||| countField w c = c := by
  have hge : runFlagOf w ≤ c := by
    by_contra hlt
    rw [runFlagSet_small w c (by omega)] at hf
    cases hf
  have hlimit := elemLimit_eq_runFlag w
  have hk : c - runFlagOf w < runFlagOf w := by omega
  have hword : runFlagOf w ||| (c - runFlagOf w) = c := by
    rw [runFlag_or w _ hk]
    omega
  have hcount : countField w c = c - runFlagOf w := by
    conv_lhs => rw [← hword]
    exact countField_run w _ hk
  rw [hcount]
  exact ⟨hk, hword⟩

/-- What a decoded token says about the bytes it was read from: one line for each of the three layouts (R55 to R57). -/
theorem decode_cases {w : Width} {o : ByteOrder} {bs rest : List Byte} {i : Instr}
    (h : decode w o bs = .ok (i, rest)) :
    (i = termToken w ∧ bs = serialiseAll w o [0] ++ rest)
      ∨ (∃ k v, k < runFlagOf w ∧ v < elemLimit w ∧ i = runToken w k v
          ∧ bs = serialiseAll w o [runFlagOf w ||| k, v] ++ rest)
      ∨ (∃ vs, ElementsFit w vs ∧ i = litToken w vs ∧ bs = serialiseAll w o (vs.length :: vs) ++ rest) := by
  unfold decode at h
  split at h
  · cases h
  · rename_i c r hword
    obtain ⟨hc, rfl⟩ := takeWord_eq_some w o bs r c hword
    split at h
    · rename_i hzero
      cases h
      exact .inl ⟨rfl, by simp [hzero]⟩
    · split at h
      · rename_i hflag
        split at h
        · cases h
        · rename_i v r' hpayload
          obtain ⟨hv, rfl⟩ := takeWord_eq_some w o r r' v hpayload
          obtain ⟨hk, hor⟩ := controlWord_of_runFlagSet hc hflag
          cases h
          exact .inr (.inl ⟨_, v, hk, hv, rfl, by simp [hor]⟩)
      · split at h
        · cases h
        · rename_i vs r' hpayload
          obtain ⟨hlen, hfit, rfl⟩ := takeWords_eq_some w o c r r' vs hpayload
          cases h
          exact .inr (.inr ⟨vs, hfit, rfl, by simp [hlen]⟩)

/-! ### The statements -/

/-- Settles O1: each of the three layouts is written and read word by word. -/
theorem tokenDecodesAsEncoded : Obligations.TokenDecodesAsEncoded := by
  intro i w o rest hw hwf
  rcases token_cases i w hw with ⟨k, v, hk, hv, rfl, -⟩ | ⟨vs, hv, rfl, -⟩ | rfl
  · rw [encode_runToken o hk hv, decode_run_words w o k v rest hk hv]
  · obtain ⟨hpos, hcap⟩ := (wellFormed_litToken_iff w vs).mp hwf
    rw [encode_litToken o hv, decode_literal_words w o vs rest hpos hcap hv]
  · rw [encode_termToken, decode_terminator_word]

/-- Settles O2: what was taken off the bytes, word by word, is what the encoder writes. -/
theorem decodedTokenReencodes : Obligations.DecodedTokenReencodes := by
  intro w o bs rest i h
  rcases decode_cases h with ⟨rfl, rfl⟩ | ⟨k, v, hk, hv, rfl, rfl⟩ | ⟨vs, hv, rfl, rfl⟩
  · exact ⟨tokenWidth?_termToken w, by rw [encode_termToken]⟩
  · exact ⟨tokenWidth?_runToken w k v, by rw [encode_runToken o hk hv]⟩
  · exact ⟨tokenWidth?_litToken w vs, by rw [encode_litToken o hv]⟩

/-- Settles O3: the decoder evaluated on each of the nine words. -/
theorem writtenWordsDecode : Obligations.WrittenWordsDecode :=
  ⟨rfl, rfl, rfl, rfl, rfl, rfl, rfl, rfl, rfl⟩

/-! ### Bytes of an element -/

theorem assembleLE_append (xs ys : List Byte) :
    assembleLE (xs ++ ys) = assembleLE xs + 256 ^ xs.length * assembleLE ys := by
  induction xs with
  | nil => simp [assembleLE]
  | cons x xs ih =>
    simp only [List.cons_append, assembleLE, ih, List.length_cons]
    ring

/-- The sum of R38 for the order BIG: the first byte is the most significant. -/
theorem assembleBE_sum (bs : List Byte) :
    assembleLE bs.reverse
      = ((List.range bs.length).map fun j => (bs.getD j 0).toNat * 256 ^ (bs.length - 1 - j)).sum := by
  induction bs with
  | nil => rfl
  | cons b bs ih =>
    rw [List.reverse_cons, assembleLE_append, ih, List.length_cons, List.range_succ_eq_map]
    simp [assembleLE, Function.comp_def, Nat.sub_sub, Nat.add_comm, Nat.mul_comm]

/-- Settles O4: in either order by induction over the bytes. -/
theorem elementAssembledFromBytes : Obligations.ElementAssembledFromBytes :=
  fun bs => ⟨assembleBE_sum bs, assembleLE_sum bs⟩

end Sys2Proof.Machine
end

