-- ==== Sys2Proof/Proofs/EncoderInvariants.lean ====
section
/-! PROOFS. RunLengthEncoder (41_rle_encoder §5, §6): the invariants, the accounting of held elements, and the stops. -/

namespace Sys2Proof.Machine

/-! ### How an operation made of sink writes can end -/

/-- A block reset among the answers to come is one that is listed. -/
theorem not_noResetListed_of_load {s : State} (h : LoadAnswer.reset ∈ s.env.loads) : ¬NoResetListed s :=
  fun ⟨hloads, _, _⟩ => hloads h

theorem not_noResetListed_of_open {s : State} {b : Bool} (h : OpenAnswer.reset b ∈ s.env.opens) : ¬NoResetListed s :=
  fun ⟨_, hopens, _⟩ => hopens b h

theorem not_noResetListed_of_write {s : State} (h : ∃ k, WriteAnswer.reset k ∈ s.env.writes) : ¬NoResetListed s :=
  fun ⟨_, _, hwrites⟩ => h.elim hwrites

/-- An operation made of sink writes that nothing stops answers a next state: its status as before, a refused append
recorded, or, one being listed, a block reset (R95, R139, R153). -/
theorem Flow.SinkSpec.outcome {x : Flow} {s : State} {P Q R : State → Prop} (hs : x.SinkSpec s R P) (hr : x.Runs Q) :
    ∃ t, x.outcome = .next t ∧ (SameStatus s t ∨ WriteFailed t ∨ ¬NoResetListed s ∧ t.res = resReset) := by
  cases x with
  | cont t =>
    obtain ⟨-, hsame, -⟩ := hs
    exact ⟨t, rfl, .inl hsame⟩
  | raised t =>
    obtain ⟨-, hfailed, -⟩ := hs
    exact ⟨t, rfl, .inr (.inl hfailed)⟩
  | abandoned t =>
    obtain ⟨hlisted, u, -, -, rfl⟩ := hs
    exact ⟨_, rfl, .inr (.inr ⟨not_noResetListed_of_write hlisted, rfl⟩)⟩
  | faulted f => exact hr.elim
  | stuck r => exact hr.elim

/-- An operation of ENC of which no append is refused ends as it should or in a block reset: a refused one draws free
values (R95, log 7). -/
theorem Flow.SinkSpec.unscrambled {x : Flow} {s t : State} {P R : State → Prop} (hs : x.SinkSpec s R P)
    (hraised : ∀ u, x = .raised u → u.freeCount = s.freeCount + 1) (hx : x.outcome = .next t)
    (hfree : t.freeCount = s.freeCount) : P t ∨ t.enc = encEmpty := by
  cases x with
  | cont u =>
    cases hx
    obtain ⟨-, -, hP⟩ := hs
    exact .inl hP
  | raised u =>
    cases hx
    have := hraised t rfl
    omega
  | abandoned u =>
    cases hx
    obtain ⟨-, u, -, -, rfl⟩ := hs
    exact .inr rfl
  | faulted f => cases hx
  | stuck r => cases hx

/-! ### The words of `ENC.ADD` -/

theorem flushWords_length_le (pol : Policy) (e : Enc) : (flushWords pol e).length ≤ max 2 (e.pending.length + 1) := by
  unfold flushWords
  split
  · simp
  · split <;> simp

/-- `ENC.ADD` puts at most two words more than there are elements pending (the table R96). -/
theorem addWords_length_le (pol : Policy) (v : Nat) (e : Enc) :
    (addWords pol v e).1.length ≤ e.pending.length + 2 := by
  have hspan := flushWords_length_le pol { pending := e.pending.dropLast, rc := 0 }
  have hrun := flushWords_length_le pol { pending := [v], rc := e.rc + 1 }
  have hheld := flushWords_length_le pol e
  have hlit := flushWords_length_le pol { pending := e.pending ++ [v], rc := 0 }
  simp only [List.length_dropLast, List.length_singleton, List.length_append] at hspan hrun hlit
  unfold addWords
  split
  · simp
  · split
    · rename_i hvt
      subst hvt
      dsimp only
      split <;> split <;> simp only [List.length_append, List.length_nil] <;> omega
    · split
      · dsimp only
        omega
      · split
        · dsimp only
          omega
        · simp

/-- The registers as they stand, with no token emitted for what they hold (R98). -/
theorem emitting_held (w : Width) (e : Enc) : Emitting w [] e (held e) where
  data := by simp
  chain := by simp
  elems := by simp
  link := by simp

theorem encShape_of_encEmpty {e : Enc} (h : e = encEmpty) : EncShape e := by
  subst h
  exact ⟨.inl rfl, List.isChain_nil⟩

theorem encInv_of_encEmpty {w : Width} {e : Enc} (h : e = encEmpty) :
    EncInv (hardwarePolicy w) e ∧ ElementsFit w e.pending := by
  subst h
  exact ⟨encInv_empty _ (hardwarePolicy_ok w), List.forall_mem_nil _⟩

/-! ### The instructions whatever their operand and width -/

theorem exec_encAdd_nonElement {s : State} {w : Width} {v : Nat} (hw : widthOf? s.cfg.width = some w)
    (hv : elemLimit w ≤ v) : exec (.encAdd v) s = .refused .elementOutOfRange := by
  simp [exec, execEncAdd, withPolicy, withWidth, withElement, hw, Nat.not_lt.mpr hv]

theorem exec_encAdd_illegalWidth {s : State} {v : Nat} (hw : widthOf? s.cfg.width = none) :
    exec (.encAdd v) s = .refused .illegalWidth := by
  simp [exec, execEncAdd, withPolicy, withWidth, hw]

/-- `ENC.FLUSH` at a legal width is `flush`, on an EMPTY encoder too (R94). -/
theorem exec_encFlush {s : State} {w : Width} (hw : widthOf? s.cfg.width = some w) :
    exec .encFlush s = (flush (hardwarePolicy w) s).outcome := by
  cases he : s.enc.isEmpty with
  | false => exact exec_encFlush_of_held hw he
  | true =>
    rw [exec_encFlush_of_empty he]
    simp only [Enc.isEmpty, Bool.and_eq_true, List.isEmpty_iff, beq_iff_eq] at he
    simp [flush, he.1, he.2]

/-- In the unreachable combination of R97 a flush faults (D16). -/
theorem flush_unreachable (pol : Policy) {s : State} (hrc : 0 < s.enc.rc) (hlen : s.enc.pending.length ≠ 1) :
    flush pol s = .faulted .flushUnreachable := by
  unfold flush
  rw [if_pos hrc]
  split
  · rename_i a hone
    rw [hone] at hlen
    exact absurd rfl hlen
  · rfl

/-! ### The statements -/

/-- Settles O23: from the registers as they stand, the token that `ENC.ADD` emits accounts for what leaves them. -/
theorem addAccountsForElements : Obligations.AddAccountsForElements := by
  intro s w v hw hi hfit hv ha
  obtain ⟨toks, hone, hwords, hemit⟩ := (emitting_held w s.enc).add v hi hfit hv
  have hexec := exec_encAdd_accepted hw hi hfit hv Prod.mk.eta.symm
    (ha.mono (addWords_length_le (hardwarePolicy w) v s.enc))
  refine ⟨_, toks, hexec, hemit.data, hone, ?_, hemit.elems⟩
  have hbytes := serialiseAll_tokens w (effectiveOrder s) toks fun i hi => (hemit.data i hi).1
  rw [emitted_sink, hwords, hbytes]

/-- Settles O24: an addition that ends leaves the registers of the table R96, whatever the capacities. -/
theorem everyPolicyKeepsInvariants : Obligations.EveryPolicyKeepsInvariants := by
  intro pol v s t hp hi hadd
  have hspec := addElement_spec pol v s
  rw [hadd] at hspec
  obtain ⟨-, -, -, -, henc⟩ := hspec
  rw [henc hi.1]
  exact addWords_inv pol v s.enc hp hi

/-- Settles O25: with `MAXRUN = 2` the fold reaches the threshold of R87 at once. -/
theorem smallestPolicyEmitsTwoTokens : Obligations.SmallestPolicyEmitsTwoTokens := by
  intro pol s q a hp hmax hq henc hi hfit ha
  have hpos : 1 ≤ q.length := List.length_pos_iff.mpr hq
  have htwo : runFlagOf pol.width ||| 2 = runFlagOf pol.width + 2 :=
    runWord_eq_add (two_lt_capOf pol.width).le
  have hwords : addWords pol a s.enc = (q.length :: q ++ [runFlagOf pol.width + 2, a], encEmpty) := by
    simp [henc, addWords, hmax, hpos, flushWords_run, flushWords_literal, htwo]
  have hav : a < elemLimit pol.width := hfit a (by simp)
  rw [addElement_accepted pol a s hp hi (by rwa [henc]) hav (by rw [hwords]; simpa using ha), hwords]
  rfl

/-- Settles O21: each operation leaves the registers of its rule, and a block reset leaves EMPTY ones. -/
theorem encoderInvariantsKept : Obligations.EncoderInvariantsKept := by
  intro s t w i hw hi hfit hu hx hfree
  cases i <;> simp only [unitOf, reduceCtorEq] at hu
  case encReset =>
    cases hx
    exact encInv_of_encEmpty rfl
  case encAdd v =>
    by_cases hv : v < elemLimit w
    · rw [exec_encAdd hw hv] at hx
      rcases (addElement_spec _ v s).unscrambled (addElement_raised _ v s) hx hfree with ⟨-, -, henc⟩ | hempty
      · rw [henc hi.1]
        exact ⟨addWords_inv _ v _ (hardwarePolicy_ok w) hi, addWords_fit (hardwarePolicy w) v _ hv hfit⟩
      · exact encInv_of_encEmpty hempty
    · rw [exec_encAdd_nonElement hw (Nat.not_lt.mp hv)] at hx
      cases hx
  case encFlush =>
    rw [exec_encFlush hw] at hx
    rcases (flush_spec _ s).unscrambled (flush_raised _ s) hx hfree with ⟨hempty, -⟩ | hempty
    all_goals exact encInv_of_encEmpty hempty

/-- Settles O22: where the invariants hold, a flush never meets the combination that faults nor a count out of range. -/
theorem encoderNeverStops : Obligations.EncoderNeverStops := by
  intro s w v hw hi hfit hv i hcase
  have hp := hardwarePolicy_ok w
  obtain ⟨t, hx, hend⟩ :
      ∃ t, exec i s = .next t ∧ (SameStatus s t ∨ WriteFailed t ∨ ¬NoResetListed s ∧ t.res = resReset) := by
    rcases hcase with rfl | rfl | rfl
    · exact ⟨s.clearEnc, rfl, .inl ⟨rfl, rfl, rfl⟩⟩
    · rw [exec_encAdd hw hv]
      exact (addElement_spec _ v s).outcome (addElement_runs _ v s hp hi hfit hv)
    · rw [exec_encFlush hw]
      exact (flush_spec _ s).outcome (flush_runs _ s hp hi.flushOk hfit)
  refine ⟨t, hx, ?_⟩
  rcases hend with hsame | hfailed | hreset
  · exact .inl ⟨hsame.st, hsame.err⟩
  · exact .inr (.inl ⟨hfailed.st, hfailed.err, hfailed.cause⟩)
  · exact .inr (.inr hreset)

/-- Settles O18: the width is looked at first, then the operand. -/
theorem addRefusesNonElement : Obligations.AddRefusesNonElement :=
  fun _ _ => ⟨fun _ hw hv => exec_encAdd_nonElement hw hv, exec_encAdd_illegalWidth⟩

/-- Settles O20: the count asks for the run arm, which has one element to repeat or none. -/
theorem flushFaultsWhereUnreachable : Obligations.FlushFaultsWhereUnreachable := by
  intro s w hw hrc hlen
  rw [exec_encFlush hw, flush_unreachable _ hrc hlen]
  rfl

end Sys2Proof.Machine
end

