-- ==== Sys2Proof/Proofs/PlaneSplitter.lean ====
section
/-! PROOFS. PlaneSplitter (42_plane_splitter): one plane, the planes of equal and of distinct elements (95_test_vectors
P2, P3), and the whole stream. -/

namespace Sys2Proof.Machine

theorem capOf_lt_runFlagOf (w : Width) : capOf w < runFlagOf w := by
  have := capOf_succ w
  omega

/-! ### Planes put together from pieces that leave the encoder EMPTY -/

theorem addAllWords_append (pol : Policy) (xs ys : List Nat) (e : Enc) :
    addAllWords pol (xs ++ ys) e
      = ((addAllWords pol xs e).1 ++ (addAllWords pol ys (addAllWords pol xs e).2).1,
          (addAllWords pol ys (addAllWords pol xs e).2).2) := by
  induction xs generalizing e with
  | nil => rfl
  | cons x xs ih => simp [addAllWords, ih]

theorem addAllWords_singleton (pol : Policy) (v : Nat) (e : Enc) : addAllWords pol [v] e = addWords pol v e := by
  simp [addAllWords]

theorem planeWords_nil (pol : Policy) : planeWords pol [] = [0] := rfl

/-- Elements that bring an EMPTY encoder back to EMPTY stand in a plane's words for themselves. -/
theorem planeWords_append {pol : Policy} {xs ws : List Nat} (h : addAllWords pol xs encEmpty = (ws, encEmpty))
    (ys : List Nat) : planeWords pol (xs ++ ys) = ws ++ planeWords pol ys := by
  simp [planeWords, addAllWords_append, h]

/-- Elements that are all held at the end are put by the flush. -/
theorem planeWords_held {pol : Policy} {xs : List Nat} {e : Enc} (h : addAllWords pol xs encEmpty = ([], e)) :
    planeWords pol xs = flushWords pol e ++ [0] := by
  simp [planeWords, h]

/-! ### Equal elements (P2) -/

theorem addWords_first (pol : Policy) (v : Nat) : addWords pol v encEmpty = ([], { pending := [v], rc := 0 }) := rfl

/-- Repeats are counted as long as the count stays below the threshold of R87. -/
theorem addAllWords_repeats {pol : Policy} {v n r : Nat} (h : r + n < pol.maxRun - 1) :
    addAllWords pol (List.replicate n v) { pending := [v], rc := r } = ([], { pending := [v], rc := r + n }) := by
  induction n generalizing r with
  | zero => rfl
  | succ n ih =>
    rw [List.replicate_succ, addAllWords, addWords_repeat (by omega), ih (by omega), Nat.add_right_comm, Nat.add_assoc]
    rfl

theorem addAllWords_equal {pol : Policy} {v n : Nat} (h : n < pol.maxRun - 1) :
    addAllWords pol (List.replicate (n + 1) v) encEmpty = ([], { pending := [v], rc := n }) := by
  rw [List.replicate_succ, addAllWords, addWords_first, addAllWords_repeats (by omega), Nat.zero_add]
  rfl

/-- `MAXRUN` equal elements are one full run token. -/
theorem addAllWords_full_run (w : Width) {v : Nat} (hv : v < elemLimit w) :
    addAllWords (hardwarePolicy w) (List.replicate (capOf w) v) encEmpty
      = (encodeWords (runToken w (capOf w) v), encEmpty) := by
  have hcap := two_lt_capOf w
  obtain ⟨n, hn⟩ : ∃ n, capOf w = n + 2 := ⟨capOf w - 2, by omega⟩
  have hheld := addAllWords_equal (pol := hardwarePolicy w) (v := v) (n := n) (by simp; omega)
  have hlast := addWords_full_run (pol := hardwarePolicy w) (v := v) (n := n) (by simp; omega)
  rw [encodeWords_runToken (capOf_lt_runFlagOf w) hv, hn, List.replicate_succ', addAllWords_append, hheld,
    addAllWords_singleton, hlast]
  rfl

/-- Fewer than `MAXRUN` equal elements, at least two, are one run token. -/
theorem planeWords_short_run {w : Width} {v r : Nat} (hr : 2 ≤ r) (hcap : r < capOf w) (hv : v < elemLimit w) :
    planeWords (hardwarePolicy w) (List.replicate r v) = encodeWords (runToken w r v) ++ [0] := by
  obtain ⟨n, rfl⟩ : ∃ n, r = n + 2 := ⟨r - 2, by omega⟩
  have hbelow : n + 2 < runFlagOf w := hcap.trans (capOf_lt_runFlagOf w)
  rw [planeWords_held (addAllWords_equal (pol := hardwarePolicy w) (by simp; omega)), flushWords_run,
    encodeWords_runToken hbelow hv, hardwarePolicy_width]

/-! ### Distinct elements (P3) -/

/-- Case A0 or A5 (R84, R89): an element other than the last one pending joins the literal span. -/
theorem addWords_extend {pol : Policy} {v : Nat} {ys : List Nat} (hlast : v ∉ ys.getLast?)
    (hlen : ys.length + 1 ≠ pol.maxLit) :
    addWords pol v { pending := ys, rc := 0 } = ([], { pending := ys ++ [v], rc := 0 }) := by
  cases hl : ys.getLast? with
  | none =>
    obtain rfl := List.getLast?_eq_none_iff.mp hl
    rfl
  | some a =>
    have hva : v ≠ a := by
      rintro rfl
      exact hlast hl
    simp [addWords, hl, hva, hlen]

theorem addAllWords_distinct {pol : Policy} {xs ys : List Nat} (hd : AdjacentDistinct (ys ++ xs))
    (hlen : ys.length + xs.length < pol.maxLit) :
    addAllWords pol xs { pending := ys, rc := 0 } = ([], { pending := ys ++ xs, rc := 0 }) := by
  induction xs generalizing ys with
  | nil => simp [addAllWords]
  | cons x xs ih =>
    obtain ⟨-, -, hmeet⟩ := List.isChain_append.mp hd
    have hlast : x ∉ ys.getLast? := fun hx => hmeet x hx x (by simp) rfl
    rw [List.length_cons] at hlen
    have hnext := ih (ys := ys ++ [x]) (by simpa using hd) (by simp; omega)
    rw [addAllWords, addWords_extend hlast (by omega), hnext]
    simp

/-- Distinct neighbours are all held as long as they do not reach the threshold of R90. -/
theorem addAllWords_span {pol : Policy} {xs : List Nat} (hd : AdjacentDistinct xs) (hlen : xs.length < pol.maxLit) :
    addAllWords pol xs encEmpty = ([], { pending := xs, rc := 0 }) :=
  addAllWords_distinct (ys := []) hd (by simpa using hlen)

theorem exists_eq_append_pair {xs : List Nat} (h : 2 ≤ xs.length) : ∃ q a v, xs = q ++ [a] ++ [v] := by
  rcases List.eq_nil_or_concat' xs with rfl | ⟨ys, v, rfl⟩
  · simp at h
  · rcases List.eq_nil_or_concat' ys with rfl | ⟨q, a, rfl⟩
    · simp at h
    · exact ⟨q, a, v, rfl⟩

/-- `MAXLIT` elements, neighbours distinct, are one full literal token. -/
theorem addAllWords_full_literal {w : Width} {xs : List Nat} (hd : AdjacentDistinct xs) (hlen : xs.length = capOf w)
    (hfit : ElementsFit w xs) :
    addAllWords (hardwarePolicy w) xs encEmpty = (encodeWords (litToken w xs), encEmpty) := by
  have hcap := two_lt_capOf w
  obtain ⟨q, a, v, rfl⟩ := exists_eq_append_pair (xs := xs) (by omega)
  obtain ⟨hspan, -, hmeet⟩ := List.isChain_append.mp hd
  have hva : v ≠ a := (hmeet a (by simp) v (by simp)).symm
  have hlen' : q.length + 2 = capOf w := by simpa using hlen
  have hheld := addAllWords_span (pol := hardwarePolicy w) hspan (by simp; omega)
  have hlast := addWords_full_literal (pol := hardwarePolicy w) hva hlen'
  rw [encodeWords_litToken hfit, addAllWords_append, hheld, addAllWords_singleton, hlast]
  simp

/-- Fewer than `MAXLIT` elements, neighbours distinct, are one literal token. -/
theorem planeWords_short_literal {w : Width} {xs : List Nat} (hd : AdjacentDistinct xs) (hpos : 1 ≤ xs.length)
    (hcap : xs.length < capOf w) (hfit : ElementsFit w xs) :
    planeWords (hardwarePolicy w) xs = encodeWords (litToken w xs) ++ [0] := by
  rw [planeWords_held (addAllWords_span (pol := hardwarePolicy w) hd hcap), flushWords_literal _ hpos,
    encodeWords_litToken hfit]

/-! ### The tokens of such a plane -/

/-- The tokens of a plane of `k` equal elements (P2). -/
def equalTokens (w : Width) (k v : Nat) : List Instr :=
  List.replicate (k / capOf w) (runToken w (capOf w) v)
    ++ (if k % capOf w = 0 then [] else if k % capOf w = 1 then [litToken w [v]] else [runToken w (k % capOf w) v])
    ++ [termToken w]

/-- The tokens of a plane of distinct neighbours (P3). -/
def distinctTokens (w : Width) (es : List Nat) : List Instr :=
  (List.range (es.length / capOf w)).map (fun j => litToken w ((es.drop (j * capOf w)).take (capOf w)))
    ++ (if es.length % capOf w = 0 then [] else [litToken w (es.drop (es.length / capOf w * capOf w))])
    ++ [termToken w]

theorem planeWords_full_runs {w : Width} {v : Nat} (hv : v < elemLimit w) (q r : Nat) :
    planeWords (hardwarePolicy w) (List.replicate (capOf w * q + r) v)
      = (List.replicate q (runToken w (capOf w) v)).flatMap encodeWords
        ++ planeWords (hardwarePolicy w) (List.replicate r v) := by
  induction q with
  | zero => simp
  | succ q ih =>
    rw [Nat.mul_succ, Nat.add_comm (capOf w * q), Nat.add_assoc, List.replicate_add,
      planeWords_append (addAllWords_full_run w hv), ih, List.replicate_succ, List.flatMap_cons, List.append_assoc]

theorem planeWords_equal {w : Width} {k v : Nat} (hfit : ElementsFit w (List.replicate k v)) :
    planeWords (hardwarePolicy w) (List.replicate k v) = (equalTokens w k v).flatMap encodeWords := by
  cases k with
  | zero => simp [equalTokens, planeWords_nil, encodeWords_termToken]
  | succ k =>
    have hv : v < elemLimit w := hfit v (by simp)
    have hcap := two_lt_capOf w
    have hr : (k + 1) % capOf w < capOf w := Nat.mod_lt _ (by omega)
    have hsplit := planeWords_full_runs hv ((k + 1) / capOf w) ((k + 1) % capOf w)
    rw [Nat.div_add_mod] at hsplit
    rw [hsplit, equalTokens, List.flatMap_append, List.flatMap_append, List.flatMap_singleton, encodeWords_termToken,
      List.append_assoc]
    congr 1
    split
    · rename_i hzero
      simp [hzero, planeWords_nil]
    · split
      · rename_i hone
        rw [hone, List.replicate_one, List.flatMap_singleton]
        exact planeWords_short_literal (List.isChain_singleton v) (by simp) (by simp; omega) (elementsFit_singleton hv)
      · rw [List.flatMap_singleton]
        exact planeWords_short_run (by omega) hr hv

theorem planeWords_full_literals {w : Width} (q : Nat) {es : List Nat} (hlen : q * capOf w ≤ es.length)
    (hd : AdjacentDistinct es) (hfit : ElementsFit w es) :
    planeWords (hardwarePolicy w) es
      = ((List.range q).map fun j => litToken w ((es.drop (j * capOf w)).take (capOf w))).flatMap encodeWords
        ++ planeWords (hardwarePolicy w) (es.drop (q * capOf w)) := by
  induction q generalizing es with
  | zero => simp
  | succ q ih =>
    rw [Nat.succ_mul] at hlen
    have hfirst := addAllWords_full_literal (w := w) (List.IsChain.take hd (capOf w))
      (List.length_take_of_le (by omega)) fun x hx => hfit x (List.mem_of_mem_take hx)
    have hrest := ih (es := es.drop (capOf w)) (by rw [List.length_drop]; omega) (List.IsChain.drop hd (capOf w))
      fun x hx => hfit x (List.mem_of_mem_drop hx)
    conv_lhs => rw [← List.take_append_drop (capOf w) es]
    rw [planeWords_append hfirst, hrest, List.range_succ_eq_map]
    simp [List.drop_drop, Function.comp_def, Nat.succ_mul, Nat.add_comm, List.flatMap_map]

theorem planeWords_distinct {w : Width} {es : List Nat} (hd : AdjacentDistinct es) (hfit : ElementsFit w es) :
    planeWords (hardwarePolicy w) es = (distinctTokens w es).flatMap encodeWords := by
  have hcap := two_lt_capOf w
  have hr : es.length % capOf w < capOf w := Nat.mod_lt _ (by omega)
  have hdm := Nat.div_add_mod' es.length (capOf w)
  have hrest : (es.drop (es.length / capOf w * capOf w)).length = es.length % capOf w := by
    rw [List.length_drop]
    omega
  rw [planeWords_full_literals (es.length / capOf w) (by omega) hd hfit, distinctTokens, List.flatMap_append,
    List.flatMap_append, List.flatMap_singleton, encodeWords_termToken, List.append_assoc]
  congr 1
  split
  · rename_i hzero
    rw [List.eq_nil_of_length_eq_zero (hrest.trans hzero), planeWords_nil]
    rfl
  · rw [List.flatMap_singleton]
    exact planeWords_short_literal (List.IsChain.drop hd _) (by omega) (by omega)
      fun x hx => hfit x (List.mem_of_mem_drop hx)

theorem equalTokens_width (w : Width) (k v : Nat) : ∀ i ∈ equalTokens w k v, tokenWidth? i = some w := by
  intro i hi
  simp only [equalTokens, List.mem_append, List.mem_replicate, List.mem_singleton] at hi
  rcases hi with (⟨-, rfl⟩ | hi) | rfl
  · exact tokenWidth?_runToken w _ _
  · split at hi
    · cases hi
    · split at hi <;> obtain rfl := List.mem_singleton.mp hi
      · exact tokenWidth?_litToken w _
      · exact tokenWidth?_runToken w _ _
  · exact tokenWidth?_termToken w

theorem distinctTokens_width (w : Width) (es : List Nat) : ∀ i ∈ distinctTokens w es, tokenWidth? i = some w := by
  intro i hi
  simp only [distinctTokens, List.mem_append, List.mem_map, List.mem_singleton] at hi
  rcases hi with (⟨j, -, rfl⟩ | hi) | rfl
  · exact tokenWidth?_litToken w _
  · split at hi
    · cases hi
    · obtain rfl := List.mem_singleton.mp hi
      exact tokenWidth?_litToken w _
  · exact tokenWidth?_termToken w

/-! ### The instructions -/

theorem planeElements_length (n p : Nat) (es : List Nat) :
    (planeElements n p es).length = planeLength n es.length p := by
  simp [planeElements]

theorem bufferPlane_length {w : Width} (o : ByteOrder) {b : InBuf} (n p : Nat) (hb : InputWhole w b) :
    (bufferPlane w o b n p).length = planeLength n b.elems p := by
  rw [bufferPlane, planeElements_length, elementsOf_inputBytes w o b hb, List.length_map, List.length_range]

theorem bufferPlane_fit (w : Width) (o : ByteOrder) (b : InBuf) (n p : Nat) : ElementsFit w (bufferPlane w o b n p) :=
  planeElements_fit w n p _ (elementsOf_fit w o _)

/-- `PS.PLANE(p)` of a plane is its body (R101). -/
theorem exec_psPlane {s : State} {p n : Nat} (hn : s.cfg.nplanes = (n : Int)) (hp : p < n) :
    exec (.psPlane p) s = (planeBody n p s).outcome := by
  simp [exec, execPsPlane, hn, hp]

/-- `PS.PLANE(p)` when its writes are accepted: the words of its elements, and the iterator past its end (R101). -/
theorem exec_psPlane_accepted {s : State} {w : Width} {p n : Nat} (hw : widthOf? s.cfg.width = some w)
    (hn : s.cfg.nplanes = (n : Int)) (hp : p < n) (hb : InputWhole w s.inb)
    (ha : AcceptsWrites (2 * planeLength n s.inb.elems p + 1) s) :
    exec (.psPlane p) s
      = .next (s.looped w (planeWords (hardwarePolicy w) (bufferPlane w (effectiveOrder s) s.inb n p)) encEmpty
          (p + planeLength n s.inb.elems p * n)) := by
  have hlen := planeWords_length_le w _ (bufferPlane_fit w (effectiveOrder s) s.inb n p)
  rw [bufferPlane_length _ n p hb] at hlen
  rw [exec_psPlane hn hp, planeBody_accepted w n p s hw (by omega) hb (ha.mono hlen)]
  rfl

theorem looped_sink (s : State) (w : Width) (ws : List Nat) (e : Enc) (i : Nat) :
    (s.looped w ws e i).sink = { s.sink with out := s.sink.out ++ serialiseAll w (effectiveOrder s) ws } := rfl

theorem planeLoop_ended (pol : Policy) (n fuel : Nat) {s : State} (h : s.inb.elems ≤ s.ps.i) :
    planeLoop pol n fuel s = .cont s := by
  cases fuel with
  | zero => rfl
  | succ fuel => rw [planeLoop, if_neg (Nat.not_lt.mpr h)]

theorem flush_empty (pol : Policy) {s : State} (h : s.enc = encEmpty) : flush pol s = .cont s := by
  simp [flush, h, encEmpty]

/-- `PS.PLANE(p)` of a plane with no element: nothing is read, so the buffer need not be whole (R104). -/
theorem planeBody_no_element {s : State} {w : Width} (n : Nat) {p : Nat} (hw : widthOf? s.cfg.width = some w)
    (h : s.inb.elems ≤ p) : planeBody n p s = put w 0 (s.clearEnc.setI p) := by
  rw [planeBody, withPolicy, withWidth, hw]
  dsimp only
  rw [planeLoop_ended _ n _ (show (s.clearEnc.setI p).inb.elems ≤ (s.clearEnc.setI p).ps.i from h), andThen_cont,
    flush_empty _ rfl, andThen_cont]
  rfl

theorem planesWords_bufferPlane_length_le {w : Width} (o : ByteOrder) {b : InBuf} {n : Nat} (hn : 1 ≤ n)
    (hb : InputWhole w b) :
    (planesWords (hardwarePolicy w) (bufferPlane w o b n) n 0).length ≤ 2 * b.elems + n := by
  have h := planesWords_length_le w n _ hn (elementsOf_fit w o (inputBytes b))
  rw [elementsOf_inputBytes w o b hb, List.length_map, List.length_range, ← elementsOf_inputBytes w o b hb] at h
  exact h

/-- `PS.ENCODE` when its writes are accepted, the plane count written as a natural (R102). -/
theorem encodePlanes_planed {s : State} {w : Width} {n : Nat} (hw : widthOf? s.cfg.width = some w)
    (hn : s.cfg.nplanes = (n : Int)) (hpos : 1 ≤ n) (hb : InputWhole w s.inb)
    (ha : AcceptsWrites (2 * s.inb.elems + n) s) :
    encodePlanes s
      = .cont (s.planed w (planesWords (hardwarePolicy w) (bufferPlane w (effectiveOrder s) s.inb n) n 0) n
          (planeEnd n s.inb.elems (n - 1))) := by
  have hnat : s.cfg.nplanes.toNat = n := by omega
  have h := encodePlanes_accepted w s hw (by omega) hb
  rw [hnat] at h
  exact h (ha.mono (planesWords_bufferPlane_length_le _ hpos hb))

/-! ### The statements -/

/-- Settles O26: the loop adds the plane's elements, and their words are those of tokens that stand for them. -/
theorem planeEncodesItsElements : Obligations.PlaneEncodesItsElements := by
  intro s w p n hw hn hp hb ha
  have hbytes := planeWords_encodes w (effectiveOrder s) _ (bufferPlane_fit w (effectiveOrder s) s.inb n p)
  refine ⟨_, _, exec_psPlane_accepted hw hn hp hb ha, hbytes, rfl, rfl, rfl, ?_, rfl, rfl⟩
  simp [State.looped, serialiseAll_length]

/-- The bytes of `PS.PLANE(p)` are those of the tokens whose words its elements put. -/
theorem exec_psPlane_tokens {s : State} {w : Width} {p n : Nat} {toks : List Instr}
    (hw : widthOf? s.cfg.width = some w) (hn : s.cfg.nplanes = (n : Int)) (hp : p < n) (hb : InputWhole w s.inb)
    (ha : AcceptsWrites (2 * planeLength n s.inb.elems p + 1) s)
    (hwords : planeWords (hardwarePolicy w) (bufferPlane w (effectiveOrder s) s.inb n p) = toks.flatMap encodeWords)
    (hwidth : ∀ i ∈ toks, tokenWidth? i = some w) :
    ∃ t, exec (.psPlane p) s = .next t ∧ t.sink.out = s.sink.out ++ toks.flatMap (encode (effectiveOrder s)) := by
  refine ⟨_, exec_psPlane_accepted hw hn hp hb ha, ?_⟩
  rw [looped_sink, hwords, serialiseAll_tokens w _ toks hwidth]

/-- Settles O27: every `MAXRUN` equal elements leave the encoder EMPTY, and what remains is held until the flush. -/
theorem equalElementsAreFullRuns : Obligations.EqualElementsAreFullRuns := by
  intro s w p n v k hw hn hp hb ha hes
  have hfit := bufferPlane_fit w (effectiveOrder s) s.inb n p
  rw [bufferPlane, hes] at hfit
  refine exec_psPlane_tokens (toks := equalTokens w k v) hw hn hp hb ha ?_ (equalTokens_width w k v)
  rw [bufferPlane, hes, planeWords_equal hfit]

/-- Settles O28: every `MAXLIT` distinct neighbours leave the encoder EMPTY, and the rest is held until the flush. -/
theorem distinctElementsAreFullLiterals : Obligations.DistinctElementsAreFullLiterals := by
  intro s w p n es hw hn hp hb ha hes hd
  have hfit := bufferPlane_fit w (effectiveOrder s) s.inb n p
  rw [bufferPlane, hes] at hfit
  refine exec_psPlane_tokens (toks := distinctTokens w es) hw hn hp hb ha ?_ (distinctTokens_width w es)
  rw [bufferPlane, hes, planeWords_distinct hd hfit]

/-- Settles O30: the planes are encoded in order, each as in O26. -/
theorem encodeWritesStream : Obligations.EncodeWritesStream := by
  intro s w n hw hn hpos hb ha
  have hstream := planesWords_encodes w (effectiveOrder s) n _ (elementsOf_fit w (effectiveOrder s) (inputBytes s.inb))
  have hexec := congrArg Flow.outcome (encodePlanes_planed hw hn hpos hb ha)
  refine ⟨_, _, hexec, hstream, rfl, rfl, rfl, ?_, rfl, rfl⟩
  rw [serialiseAll_length]
  rfl

/-- Settles O29: the loop ends at once and there is nothing to flush. -/
theorem emptyPlaneIsOneTerminator : Obligations.EmptyPlaneIsOneTerminator := by
  intro s w p hw hp hL ha
  have hn : s.cfg.nplanes = (s.cfg.nplanes.toNat : Int) := by omega
  have hzero : 0 < elemLimit w := Nat.two_pow_pos _
  rw [exec_psPlane hn (by omega), planeBody_no_element _ hw hL, put_accepted w 0 (s.clearEnc.setI p) hzero ha]
  rfl

/-- Settles O31: the loop over no planes ends at once; an index that is no plane is refused. -/
theorem noPlaneToEncode : Obligations.NoPlaneToEncode := by
  intro s p
  constructor
  · intro hn
    have hnat : s.cfg.nplanes.toNat = 0 := by omega
    simp [exec, execPsEncode, encodePlanes, hnat, encodeLoop]
  · intro hp
    simp [exec, execPsPlane, Int.not_lt.mpr hp]

end Sys2Proof.Machine
end

