-- ==== Sys2Proof/Proofs/Operations.lean ====
section
/-! PROOFS. The operations invoked on their own (40_control_word_policy, 43_output_sink, 44_block_control): `POL`
functions, one open, one put, and the parts of block control. -/

namespace Sys2Proof.Machine

/-! ### ControlWordPolicy -/

theorem widthOf?_eq_none {n : Nat} (h1 : n ≠ 1) (h2 : n ≠ 2) (h4 : n ≠ 4) : widthOf? n = none := by
  unfold widthOf?
  split <;> trivial

/-- No `POL` function is evaluated at an operand width that is not legal (R71). -/
theorem withOperandWidth_illegal {n : Nat} (h : widthOf? n = none) (k : Width → Flow) :
    (withOperandWidth n k).outcome = .refused .illegalWidth := by
  rw [withOperandWidth, h]
  rfl

/-- Settles O11: each function looks at its width first. -/
theorem policyRefusesOtherWidths : Obligations.PolicyRefusesOtherWidths := by
  intro s w x h1 h2 h4
  have h := widthOf?_eq_none h1 h2 h4
  refine ⟨?_, ?_, ?_, ?_, ?_, ?_, ?_, ?_, ?_⟩ <;> exact withOperandWidth_illegal h _

/-- Settles O7: both capacities of the hardware's policy record are `CAP`. -/
theorem policyCapacities : Obligations.PolicyCapacities := by
  intro s w
  constructor
  · simp [exec, execPolMaxrun, capOf, bitsOf]
  · simp [exec, execPolMaxlit, capOf, bitsOf]

/-- Settles O8: `POL.KIND` at each of the three widths. -/
theorem policyKindByWidth : Obligations.PolicyKindByWidth :=
  fun _ => ⟨rfl, rfl, rfl⟩

/-! ### The sink -/

/-- An open that succeeds (R111). -/
theorem openSink_opened {s : State} (h : (nextOpen s).1 = .opened) :
    openSink s = .cont ((nextOpen s).2.truncateForOpen.markOpen.setEncoded 0) := by
  have hx : nextOpen s = (.opened, (nextOpen s).2) := Prod.ext h rfl
  rw [openSink, hx]

/-- An open that is refused (R139, log 6). -/
theorem openSink_refused {s : State} {b : Bool} (h : (nextOpen s).1 = .refused b) :
    openSink s
      = .raised (raiseError .ioFailure (some .openSink)
          { (nextOpen s).2 with
            sink := { s.sink with out := if b && !s.cfg.append then [] else s.sink.out } }) := by
  have hx : nextOpen s = (.refused b, _) := Prod.ext h (nextOpen_eq s)
  rw [openSink, hx]
  cases b <;> cases hap : s.cfg.append <;> simp [State.truncateForOpen, hap]

/-- An append that is refused: its first bytes stay, and nothing is counted (R49, R139). -/
theorem sinkAppend_refused {s : State} {n : Nat} (bs : List Byte) (h : (nextWrite s).1 = .refused n) :
    sinkAppend bs s
      = .raised (raiseError .ioFailure (some .write)
          { (nextWrite s).2 with sink := { s.sink with out := s.sink.out ++ bs.take n } }) := by
  have hx : nextWrite s = (.refused n, _) := Prod.ext h (nextWrite_state s)
  rw [sinkAppend, hx]
  rfl

/-- An append during which a block reset arrives (R153, log 17). -/
theorem sinkAppend_reset {s : State} {n : Nat} (bs : List Byte) (h : (nextWrite s).1 = .reset n) :
    sinkAppend bs s
      = .abandoned (blockReset
          { (nextWrite s).2 with sink := { s.sink with out := s.sink.out ++ bs.take n } }) := by
  have hx : nextWrite s = (.reset n, _) := Prod.ext h (nextWrite_state s)
  rw [sinkAppend, hx]
  rfl

theorem acceptsWrites_one_of_nextWrite {s : State} (h : (nextWrite s).1 = .accepted) : AcceptsWrites 1 s := by
  intro a ha
  cases hw : s.env.writes with
  | nil => simp [hw] at ha
  | cons b bs =>
    rw [nextWrite, hw] at h
    rw [hw] at ha
    exact (List.mem_singleton.mp ha).trans h

theorem put_element {w : Width} {e : Nat} (s : State) (he : e < elemLimit w) :
    put w e s = sinkAppend (serialise w (effectiveOrder s) e) s := by
  rw [put, withElement, if_pos he]

/-- Settles O32: in each case by the answer to the open. -/
theorem openPositionsSink : Obligations.OpenPositionsSink := by
  intro s
  constructor
  · intro h
    rw [exec, execSinkOpen, openSink_opened h, nextOpen_eq]
    cases hap : s.cfg.append <;> simp [State.truncateForOpen, State.markOpen, State.setEncoded, hap]
  · intro b h
    rw [exec, execSinkOpen, openSink_refused h, nextOpen_eq]
    rfl

/-- Settles O33: in each case by the answer to the append. -/
theorem putAppendsElement : Obligations.PutAppendsElement := by
  intro s w e hw he
  constructor
  · intro h
    exact exec_sinkPut_accepted hw he (acceptsWrites_one_of_nextWrite h)
  · intro n h
    rw [exec_sinkPut hw, put_element s he, sinkAppend_refused _ h, nextWrite_state]
    rfl

/-- Settles O36: the block reset follows the bytes kept of the append. -/
theorem resetDuringWriteAbandons : Obligations.ResetDuringWriteAbandons := by
  intro s w e n hw he h
  have hput := exec_sinkPut hw e
  rw [put_element s he, sinkAppend_reset _ h] at hput
  exact ⟨_, hput, rfl, rfl, rfl, rfl, rfl⟩

/-! ### Configuration and check -/

/-- Settles O37: a register is written unless BUSY, and BUSY is asked first. -/
theorem configStoresAnyValue : Obligations.ConfigStoresAnyValue := by
  intro s
  constructor
  · intro h
    simp [exec, execBlkConfig, h, writeCfg]
  · intro h
    simp [exec, execBlkConfig, execBlkStart, h]

/-- A legal configuration passes the check (R123). -/
theorem checkConfig_legal {s : State} {w : Width} (hw : widthOf? s.cfg.width = some w) (hn : 1 ≤ s.cfg.nplanes) :
    checkConfig s = .cont s := by
  simp [checkConfig, hw, Int.not_lt.mpr hn]

/-- How the check ends (R123): it passes, or it finds one of the two causes of R137. -/
theorem checkConfig_cases (s : State) :
    (∃ w, widthOf? s.cfg.width = some w ∧ 1 ≤ s.cfg.nplanes ∧ checkConfig s = .cont s)
      ∨ ∃ c, (c = .width ∨ c = .planes)
        ∧ checkConfig s = .raised (raiseError .configurationError (some c) s) := by
  cases hw : widthOf? s.cfg.width with
  | none => exact .inr ⟨_, .inl rfl, checkConfig_illegal_width hw⟩
  | some w =>
    by_cases hn : s.cfg.nplanes < 1
    · exact .inr ⟨_, .inr rfl, checkConfig_no_planes (by simp [hw]) hn⟩
    · exact .inl ⟨w, rfl, Int.not_lt.mp hn, checkConfig_legal hw (Int.not_lt.mp hn)⟩

theorem widthOf?_isSome {n : Nat} (h : n = 1 ∨ n = 2 ∨ n = 4) : (widthOf? n).isSome = true := by
  rcases h with rfl | rfl | rfl <;> rfl

/-- Settles O38: the three outcomes of the check. -/
theorem checkRejectsIllegalConfig : Obligations.CheckRejectsIllegalConfig := by
  intro s
  refine ⟨?width, ?planes, ?legal⟩
  case width =>
    rintro ⟨h1, h2, h4⟩
    rw [exec_blkCheck, checkConfig_illegal_width (widthOf?_eq_none h1 h2 h4)]
    rfl
  case planes =>
    intro hw hn
    rw [exec_blkCheck, checkConfig_no_planes (widthOf?_isSome hw) hn]
    rfl
  case legal =>
    intro hw hn
    obtain ⟨w, hw⟩ := Option.isSome_iff_exists.mp (widthOf?_isSome hw)
    rw [exec_blkCheck, checkConfig_legal hw hn]
    rfl

/-! ### Load -/

theorem loadInput_attempt {s : State} {alloc read : Bool} (h : (nextLoad s).1 = .attempt alloc read) :
    loadInput s
      = if alloc = false then .raised (raiseError .resourceExhaustion none ((nextLoad s).2.setLoaded none))
        else if read = false ∨ s.env.input.length < s.cfg.len then
          .raised (raiseError .ioFailure (some .input) ((nextLoad s).2.setLoaded none))
        else .cont ((nextLoad s).2.setLoaded (some (s.env.input.take s.cfg.len))) := by
  have hx : nextLoad s = (.attempt alloc read, _) := Prod.ext h (nextLoad_eq s)
  rw [loadInput, hx]

/-- Settles O40: the buffer is asked for first, then the input. -/
theorem loadAllocatesThenReads : Obligations.LoadAllocatesThenReads := by
  intro s alloc read h
  have hload : exec .blkLoad s = (loadInput s).outcome := rfl
  rw [hload, loadInput_attempt h]
  refine ⟨?_, ?_, ?_⟩
  · rintro rfl
    rfl
  · rintro rfl hfail
    rw [if_neg (by simp), if_pos hfail]
    rfl
  · rintro rfl rfl hlen
    rw [if_neg (by simp), if_neg (by simp [hlen])]
    rfl

/-- An accepted invocation with a legal configuration goes on to its load (R122). -/
theorem runInvocation_legal {s : State} {w : Width} (hw : widthOf? s.cfg.width = some w) (hn : 1 ≤ s.cfg.nplanes) :
    runInvocation s
      = (((loadInput s.beginRun).andThen padInput).andThen openSink).andThen
          fun s => (encodePlanes s).andThen fun s => .cont s.endRun := by
  rw [runInvocation, checkConfig_legal (s := s.beginRun) hw hn]
  rfl

/-- Settles O41: what the load raises ends the invocation. -/
theorem failedLoadLeavesSink : Obligations.FailedLoadLeavesSink := by
  intro s w alloc read hs hw hn hl hfail
  have hl' : (nextLoad s.beginRun).1 = .attempt alloc read := by
    rw [nextLoad_fst] at hl ⊢
    exact hl
  rw [exec_blkStart_of_not_busy hs, runInvocation_legal hw hn, loadInput_attempt hl', nextLoad_eq]
  cases alloc with
  | false => exact ⟨_, rfl, rfl, rfl, rfl, rfl, rfl⟩
  | true =>
    obtain rfl : read = false := by simpa using hfail
    exact ⟨_, rfl, rfl, rfl, rfl, rfl, rfl⟩

/-! ### Padding -/

/-- What `BLK.PAD` makes of `LEN` bytes is a whole buffer of them and the padding (R124). -/
theorem paddedBuffer_spec (w : Width) (bs : List Byte) :
    padCount w bs.length < widthBytes w
      ∧ inputBytes (paddedBuffer w bs) = bs ++ List.replicate (padCount w bs.length) 0
      ∧ (paddedBuffer w bs).size = bs.length + padCount w bs.length
      ∧ (paddedBuffer w bs).size = (paddedBuffer w bs).elems * widthBytes w
      ∧ (paddedBuffer w bs).elems = (bs.length + widthBytes w - 1) / widthBytes w
      ∧ Memory.wf (paddedBuffer w bs).cells = true := by
  obtain ⟨hpad, helems, -⟩ := padCount_spec w bs.length
  obtain ⟨hwf, -⟩ := paddedBuffer_wf w bs
  exact ⟨hpad, paddedBuffer_bytes w bs, rfl, paddedBuffer_whole w bs, helems, hwf⟩

/-- Settles O42: on the loaded bytes if there are `LEN` of them, else on free ones. -/
theorem padCompletesLastElement : Obligations.PadCompletesLastElement := by
  intro s w hw
  have hpad : exec .blkPad s = (padInput s).outcome := rfl
  by_cases hloaded : ∃ bs, s.env.loaded = some bs ∧ bs.length = s.cfg.len
  · obtain ⟨bs, hl, hlen⟩ := hloaded
    refine ⟨bs, s.freeCount, paddedBuffer w bs, padCount w bs.length, hlen, .inl ⟨hl, rfl⟩, ?_, ?_⟩
    · rw [hpad, padInput_loaded w s bs hw hl hlen, hlen]
      rfl
    · rw [← hlen]
      exact paddedBuffer_spec w bs
  · have hfree : ∀ bs, s.env.loaded = some bs → bs.length ≠ s.cfg.len := fun bs hl hlen => hloaded ⟨bs, hl, hlen⟩
    have hlen : (freeInputBytes s).length = s.cfg.len := by simp [freeInputBytes]
    refine ⟨freeInputBytes s, s.freeCount + 1, paddedBuffer w (freeInputBytes s), padCount w s.cfg.len, hlen,
      .inr ⟨hfree, rfl⟩, ?_, ?_⟩
    · rw [hpad, padInput_free w s hw hfree]
      rfl
    · rw [← hlen]
      exact paddedBuffer_spec w _

/-! ### Status -/

/-- Settles O48: the code separates the four error kinds. -/
theorem statusGivesResult : Obligations.StatusGivesResult := by
  intro s
  constructor
  · refine ⟨errCode s.res.err, rfl, ?_⟩
    cases s.res.err <;> simp [errCode]
  · intro hdone
    exact ⟨_, _, _, by rw [exec, execBlkReport, if_neg hdone]; rfl⟩

end Sys2Proof.Machine
end

