-- ==== Sys2Proof/Proofs/Invocation.lean ====
section
/-! PROOFS. `BLK.START` (44_block_control R122): the completed invocation and what its stream depends on (R133, R134),
and how every invocation ends. -/

namespace Sys2Proof.Machine

/-! ### The completed invocation -/

/-- The words of the stream of an invocation with `n` planes: those of the planes of the padded input (R53, R122). -/
def streamWords (w : Width) (n : Nat) (s : State) : List Nat :=
  planesWords (hardwarePolicy w)
    (fun p => planeElements n p (elementsOf w (effectiveOrder s) (paddedInput w s))) n 0

/-- The state a completed invocation leaves (R122, R129). -/
def State.completed (s : State) (w : Width) (n : Nat) : State :=
  ((s.prepared w).planed w (streamWords w n s) n (planeEnd n (logicalLength w s) (n - 1))).endRun

theorem prepared_whole (s : State) (w : Width) : InputWhole w (s.prepared w).inb :=
  (padCount_spec w s.cfg.len).2.2.symm

theorem paddedInput_length {s : State} (w : Width) (hlen : s.cfg.len ≤ s.env.input.length) :
    (paddedInput w s).length = s.cfg.len + padCount w s.cfg.len := by
  simp [paddedInput, hlen]

/-- The buffer in which an invocation encodes holds its padded input (R124). -/
theorem inputBytes_prepared {s : State} (w : Width) (hlen : s.cfg.len ≤ s.env.input.length) :
    inputBytes (s.prepared w).inb = paddedInput w s := by
  have hbytes := Memory.readBytes_ofBytes (paddedInput w s)
  rwa [paddedInput_length w hlen] at hbytes

theorem paddedInput_length_eq {s : State} (w : Width) (hlen : s.cfg.len ≤ s.env.input.length) :
    (paddedInput w s).length = logicalLength w s * widthBytes w := by
  rw [paddedInput_length w hlen]
  exact (padCount_spec w s.cfg.len).2.2.symm

theorem elementsOf_length {w : Width} {k : Nat} (o : ByteOrder) {bs : List Byte} (h : bs.length = k * widthBytes w) :
    (elementsOf w o bs).length = k := by
  simp [elementsOf, h, Nat.mul_div_cancel _ (widthBytes_pos w)]

theorem ReadyToRun.input_present {s : State} {w : Width} (h : ReadyToRun w s) : s.cfg.len ≤ s.env.input.length := by
  obtain ⟨-, -, -, hlen, -⟩ := h
  exact hlen

theorem ReadyToRun.planes_pos {s : State} {w : Width} {n : Nat} (h : ReadyToRun w s) (hn : s.cfg.nplanes = (n : Int)) :
    1 ≤ n := by
  obtain ⟨-, -, hpos, -⟩ := h
  omega

theorem streamWords_length_le {s : State} {w : Width} {n : Nat} (hlen : s.cfg.len ≤ s.env.input.length) (hn : 1 ≤ n) :
    (streamWords w n s).length ≤ 2 * logicalLength w s + n := by
  have h := planesWords_length_le w n _ hn (elementsOf_fit w (effectiveOrder s) (paddedInput w s))
  rwa [elementsOf_length _ (paddedInput_length_eq w hlen)] at h

/-- A ready invocation whose writes are accepted runs to DONE (R122, R133). -/
theorem exec_blkStart_completed {s : State} {w : Width} {n : Nat} (h : ReadyToRun w s) (hn : s.cfg.nplanes = (n : Int))
    (ha : AcceptsWrites (2 * logicalLength w s + n) s) : exec .blkStart s = .next (s.completed w n) := by
  have hpos := h.planes_pos hn
  obtain ⟨hs, hw, -⟩ := id h
  have hencode := encodePlanes_planed (s := s.prepared w) hw hn hpos (prepared_whole s w) ha
  have hplane : bufferPlane w (effectiveOrder (s.prepared w)) (s.prepared w).inb n
      = fun p => planeElements n p (elementsOf w (effectiveOrder s) (paddedInput w s)) := by
    rw [← inputBytes_prepared w h.input_present]
    rfl
  rw [exec_blkStart_of_not_busy hs, runInvocation_ready w s h, hencode, hplane]
  rfl

/-- The bytes that a completed invocation appends. -/
theorem completed_sink (s : State) (w : Width) (n : Nat) :
    (s.completed w n).sink
      = { out := (if s.cfg.append then s.sink.out else []) ++ serialiseAll w (effectiveOrder s) (streamWords w n s)
          out0len := (if s.cfg.append then s.sink.out else []).length } := rfl

theorem completed_res (s : State) (w : Width) (n : Nat) :
    (s.completed w n).res
      = { st := .done
          err := .none
          cause := none
          origSize := s.cfg.len
          paddedSize := s.cfg.len + padCount w s.cfg.len
          padOccurred := decide (padCount w s.cfg.len ≠ 0)
          encodedBytes := (serialiseAll w (effectiveOrder s) (streamWords w n s)).length } := by
  rw [serialiseAll_length]
  simp [State.completed, State.planed, State.endRun, State.prepared, State.emitted, resReset]

/-- What stands in the sink after the open's mark (R111). -/
theorem completed_stream (s : State) (w : Width) (n : Nat) :
    (s.completed w n).sink.out.drop (s.completed w n).sink.out0len
      = serialiseAll w (effectiveOrder s) (streamWords w n s) := by
  rw [completed_sink, List.drop_left]

/-- Settles O43: from the prepared state `PS.ENCODE` appends the stream; each plane has at least its terminator. -/
theorem startCompletes : Obligations.StartCompletes := by
  intro s w n h hn ha
  have hstream := planesWords_encodes w (effectiveOrder s) n _
    (elementsOf_fit w (effectiveOrder s) (paddedInput w s))
  have hge : n ≤ (streamWords w n s).length := planesWords_length_ge _ _ n 0
  have hle := streamWords_length_le (w := w) h.input_present (h.planes_pos hn)
  refine ⟨_, _, exec_blkStart_completed h hn ha, hstream, ?_, ?_, completed_sink s w n, completed_res s w n, rfl, rfl,
    rfl⟩
  · rw [serialiseAll_length]
    exact Nat.mul_le_mul_right _ hge
  · rw [serialiseAll_length]
    exact Nat.mul_le_mul_right _ hle

/-- Settles O46: the words of a stream are a function of the padded input's elements and the plane count, those of a
plane of its elements. -/
theorem streamDependsOnInputAlone : Obligations.StreamDependsOnInputAlone := by
  constructor
  · intro s s' t t' w n h h' hn hn' hlen ho hinput ha ha' ht ht'
    rw [exec_blkStart_completed h hn ha] at ht
    rw [exec_blkStart_completed h' hn' ha'] at ht'
    cases ht
    cases ht'
    have hpadded : paddedInput w s = paddedInput w s' := by rw [paddedInput, paddedInput, hinput, hlen]
    have hwords : streamWords w n s = streamWords w n s' := by rw [streamWords, streamWords, hpadded, ho]
    have hlogical : logicalLength w s = logicalLength w s' := by rw [logicalLength, logicalLength, hlen]
    refine ⟨?bytes, ?res, ?ps⟩
    case bytes => rw [completed_stream, completed_stream, hwords, ho]
    case res => rw [completed_res, completed_res, hwords, ho, hlen]
    case ps =>
      show ({ p := n, i := planeEnd n (logicalLength w s) (n - 1) } : Iter) = _
      rw [hlogical]
      rfl
  · intro s s' w p p' n n' hw hw' hn hn' hp hp' hb hb' ho hes ha ha'
    refine ⟨_, _, _, exec_psPlane_accepted hw hn hp hb ha, exec_psPlane_accepted hw' hn' hp' hb' ha', rfl, ?_⟩
    have hplane : bufferPlane w (effectiveOrder s') s'.inb n' p' = bufferPlane w (effectiveOrder s) s.inb n p :=
      hes.symm
    rw [looped_sink, hplane, ho]

/-! ### How every invocation ends -/

/-- An operation that is not stopped meets `P` at its end, and `R` where an error or a block reset ends it early. -/
def Flow.Finishes (x : Flow) (P R : State → Prop) : Prop :=
  match x with
  | .cont t => P t
  | .raised t => R t
  | .abandoned t => R t
  | .faulted _ => False
  | .stuck _ => False

theorem Flow.Finishes.andThen {x : Flow} {k : State → Flow} {P Q R : State → Prop} (hx : x.Finishes P R)
    (hk : ∀ t, P t → (k t).Finishes Q R) : (x.andThen k).Finishes Q R := by
  cases x with
  | cont t => exact hk t hx
  | raised t => exact hx
  | abandoned t => exact hx
  | faulted f => exact hx.elim
  | stuck r => exact hx.elim

theorem Flow.Finishes.outcome {x : Flow} {P R : State → Prop} (h : x.Finishes P R) :
    ∃ t, x.outcome = .next t ∧ (P t ∨ R t) := by
  cases x with
  | cont t => exact ⟨t, rfl, .inl h⟩
  | raised t => exact ⟨t, rfl, .inr h⟩
  | abandoned t => exact ⟨t, rfl, .inr h⟩
  | faulted f => exact h.elim
  | stuck r => exact h.elim

/-- What an invocation leaves unchanged however it ends: what is not the block's own, and, unless the open may truncate,
the bytes in the sink (R41, R142). The input buffer may be made anew (R124). -/
structure InvocationFrame (s t : State) : Prop where
  rd : t.rd = s.rd
  hostq : t.hostq = s.hostq
  ret : t.ret = s.ret
  nativeOrder : t.env.nativeOrder = s.env.nativeOrder
  input : t.env.input = s.env.input
  inb : t.inb = s.inb ∨ ∃ w bs, t.inb = paddedBuffer w bs
  out : s.cfg.append = true → s.sink.out <+: t.sink.out

/-- Inside an invocation the configuration is as it was, the status is BUSY without an error, and no append has been
answered before the planes are encoded. -/
structure InProgress (s t : State) : Prop extends InvocationFrame s t where
  cfg : t.cfg = s.cfg
  st : t.res.st = .busy
  err : t.res.err = .none
  cause : t.res.cause = none
  writes : t.env.writes = s.env.writes

/-- A completed invocation (R129). -/
structure Done (s t : State) : Prop extends InvocationFrame s t where
  cfg : t.cfg = s.cfg
  st : t.res.st = .done
  err : t.res.err = .none
  cause : t.res.cause = none
  enc : t.enc = encEmpty

/-- An invocation that an error has ended (R141), its kind and cause agreeing. -/
structure Failed (s t : State) : Prop extends InvocationFrame s t where
  cfg : t.cfg = s.cfg
  st : t.res.st = .error
  status : StatusOk t.res

/-- An invocation that a block reset has ended, one being listed (R153, log 17). -/
structure Abandoned (s t : State) : Prop extends InvocationFrame s t where
  listed : ¬NoResetListed s
  res : t.res = resReset
  enc : t.enc = encEmpty

/-- The ways in which an invocation ends early. -/
def EndedEarly (s t : State) : Prop :=
  Failed s t ∨ Abandoned s t

/-- The causes recorded with each error kind (R137 to R140, log 15). -/
def CauseOf (k : ErrKind) (c : Option Cause) : Prop :=
  k = .configurationError ∧ (c = some .width ∨ c = some .planes)
    ∨ k = .resourceExhaustion ∧ c = none
    ∨ k = .ioFailure ∧ (c = some .input ∨ c = some .openSink ∨ c = some .write)

theorem causeOf_check {c : Cause} (h : c = .width ∨ c = .planes) : CauseOf .configurationError (some c) :=
  .inl ⟨rfl, by simpa using h⟩

theorem causeOf_load {k : ErrKind} {c : Option Cause}
    (h : k = .resourceExhaustion ∧ c = none ∨ k = .ioFailure ∧ c = some .input) : CauseOf k c := by
  rcases h with h | ⟨hk, hc⟩
  · exact .inr (.inl h)
  · exact .inr (.inr ⟨hk, .inl hc⟩)

theorem causeOf_open : CauseOf .ioFailure (some .openSink) :=
  .inr (.inr ⟨rfl, .inr (.inl rfl)⟩)

theorem statusOk_error {r : Res} {k : ErrKind} {c : Option Cause} (h : CauseOf k c) :
    StatusOk { r with st := .error, err := k, cause := c } := by
  rcases h with ⟨rfl, h⟩ | ⟨rfl, h⟩ | ⟨rfl, h⟩ <;> exact ⟨by simp, by simp, h⟩

theorem StatusOk.err_of_error {r : Res} (h : StatusOk r) (hst : r.st = .error) : r.err ≠ .none := by
  obtain ⟨-, herror, -⟩ := h
  exact herror.mp hst

theorem WriteFailed.statusOk {t : State} (h : WriteFailed t) : StatusOk t.res := by
  obtain ⟨hst, herr, hcause⟩ := h
  simp [StatusOk, hst, herr, hcause]

theorem statusOk_resReset : StatusOk resReset := by
  simp [StatusOk, resReset]

theorem InvocationFrame.blockReset {s t : State} (h : InvocationFrame s t) : InvocationFrame s (blockReset t) :=
  ⟨h.rd, h.hostq, h.ret, h.nativeOrder, h.input, h.inb, h.out⟩

theorem InvocationFrame.abandoned {s t : State} (h : InvocationFrame s t) (hlisted : ¬NoResetListed s) :
    EndedEarly s (Machine.blockReset t) :=
  .inr ⟨h.blockReset, hlisted, rfl, rfl⟩

/-- An error raised inside an invocation. -/
theorem InProgress.raise {s t : State} {k : ErrKind} {c : Option Cause} (h : InProgress s t) (hkc : CauseOf k c) :
    EndedEarly s (raiseError k c t) :=
  .inl ⟨⟨h.rd, h.hostq, h.ret, h.nativeOrder, h.input, h.inb, h.out⟩, h.cfg, rfl, statusOk_error hkc⟩

theorem InProgress.sinkFrame {s t u : State} (h : InProgress s t) (hf : SinkFrame t u) : InvocationFrame s u where
  rd := hf.rd.trans h.rd
  hostq := hf.hostq.trans h.hostq
  ret := hf.ret.trans h.ret
  nativeOrder := hf.nativeOrder.trans h.nativeOrder
  input := hf.input.trans h.input
  inb := by
    rw [hf.inb]
    exact h.inb
  out := fun happ => (h.out happ).trans hf.out

theorem inProgress_beginRun (s : State) : InProgress s s.beginRun where
  rd := rfl
  hostq := rfl
  ret := rfl
  nativeOrder := rfl
  input := rfl
  inb := .inl rfl
  out := fun _ => List.prefix_rfl
  cfg := rfl
  st := rfl
  err := rfl
  cause := rfl
  writes := rfl

/-- After the load of an invocation, `LEN` bytes are in the driver's hands (R125). -/
structure Loaded (s t : State) : Prop extends InProgress s t where
  opens : t.env.opens = s.env.opens
  loaded : ∃ bs, t.env.loaded = some bs ∧ bs.length = t.cfg.len

/-- After the padding of an invocation, the input buffer holds whole elements (R124). -/
structure Padded (w : Width) (s t : State) : Prop extends InProgress s t where
  opens : t.env.opens = s.env.opens
  whole : InputWhole w t.inb

/-- After the open of an invocation, its planes can be encoded. -/
structure Opened (w : Width) (s t : State) : Prop extends InProgress s t where
  whole : InputWhole w t.inb

theorem loadInput_finishes (s : State) : (loadInput s.beginRun).Finishes (Loaded s) (EndedEarly s) := by
  have hbegin := inProgress_beginRun s
  rcases loadInput_cases s.beginRun with ⟨env, hload, hbs, hlen, h1, h2, h3, h4, -⟩
    | ⟨env, k, c, hload, hkc, h1, h2, h3, h4, -⟩ | ⟨env, hload, h1, h2, h3, h4, hlisted⟩
  all_goals rw [hload]
  all_goals have hin : InProgress s { s.beginRun with env := env } :=
    { hbegin with nativeOrder := h1, input := h2, writes := h4 }
  · exact ⟨hin, h3, _, hbs, List.length_take_of_le hlen⟩
  · exact hin.raise (causeOf_load hkc)
  · exact hin.toInvocationFrame.abandoned (not_noResetListed_of_load hlisted)

theorem padInput_finishes {s t : State} {w : Width} (hw : widthOf? s.cfg.width = some w) (h : Loaded s t) :
    (padInput t).Finishes (Padded w s) (EndedEarly s) := by
  obtain ⟨bs, hloaded, hlen⟩ := h.loaded
  rw [padInput_loaded w t bs (h.cfg ▸ hw) hloaded hlen]
  exact { h with inb := .inr ⟨w, bs, rfl⟩, whole := paddedBuffer_whole w bs }

theorem openSink_finishes {s t : State} {w : Width} (h : Padded w s t) :
    (openSink t).Finishes (Opened w s) (EndedEarly s) := by
  have hkeep : ∀ out, out = t.sink.out ∨ t.cfg.append = false ∧ out = [] →
      s.cfg.append = true → s.sink.out <+: out := by
    rintro out (rfl | ⟨hoff, -⟩) happ
    · exact h.out happ
    · rw [h.cfg, happ] at hoff
      cases hoff
  rcases openSink_cases t with ⟨out, hopen, hout⟩ | ⟨out, hopen, hout⟩ | ⟨out, b, hopen, hout, hlisted⟩
  all_goals rw [hopen]
  · refine { h with out := hkeep out ?_ }
    cases happ : t.cfg.append <;> simp [hout, happ]
  · have hin : InProgress s
        { t with sink := { t.sink with out := out }, env := { t.env with opens := t.env.opens.drop 1 } } :=
      { h with out := hkeep out hout }
    exact hin.raise causeOf_open
  · have hin : InvocationFrame s
        { t with sink := { t.sink with out := out }, env := { t.env with opens := t.env.opens.drop 1 } } :=
      { h with out := hkeep out hout }
    exact hin.abandoned (not_noResetListed_of_open (h.opens ▸ hlisted))

/-- The encoding inside an invocation, and its end. -/
theorem encodePlanes_finishes {s t : State} {w : Width} (hw : widthOf? s.cfg.width = some w) (hn : 1 ≤ s.cfg.nplanes)
    (h : Opened w s t) : ((encodePlanes t).andThen fun u => .cont u.endRun).Finishes (Done s) (EndedEarly s) := by
  have hrun := encodePlanes_runs w t (h.cfg ▸ hw) h.whole
  have hspec := encodePlanes_empty t (h.cfg ▸ hn)
  cases hx : encodePlanes t with
  | cont u =>
    rw [hx] at hspec
    obtain ⟨hf, hs, henc⟩ := hspec
    have hframe := h.sinkFrame hf
    exact ⟨⟨hframe.rd, hframe.hostq, hframe.ret, hframe.nativeOrder, hframe.input, hframe.inb, hframe.out⟩,
      hf.cfg.trans h.cfg, rfl, hs.err.trans h.err, hs.cause.trans h.cause, henc⟩
  | raised u =>
    rw [hx] at hspec
    obtain ⟨hf, hfailed, -⟩ := hspec
    exact .inl ⟨h.sinkFrame hf, hf.cfg.trans h.cfg, hfailed.st, hfailed.statusOk⟩
  | abandoned u =>
    rw [hx] at hspec
    obtain ⟨hlisted, v, hf, -, rfl⟩ := hspec
    exact (h.sinkFrame hf).abandoned (not_noResetListed_of_write (h.writes ▸ hlisted))
  | faulted f =>
    rw [hx] at hrun
    exact hrun.elim
  | stuck r =>
    rw [hx] at hrun
    exact hrun.elim

/-- How an accepted invocation ends, whatever the state and the environment (R122, R133, R141, R153). -/
theorem runInvocation_finishes (s : State) : (runInvocation s).Finishes (Done s) (EndedEarly s) := by
  rcases checkConfig_cases s.beginRun with ⟨w, hw, hn, -⟩ | ⟨c, hc, hraised⟩
  · rw [runInvocation_legal (s := s) hw hn]
    exact (((loadInput_finishes s).andThen fun _ ht => padInput_finishes hw ht).andThen
      fun _ ht => openSink_finishes ht).andThen fun _ ht => encodePlanes_finishes hw hn ht
  · rw [runInvocation_of_check_raised hraised]
    exact (inProgress_beginRun s).raise (causeOf_check hc)

theorem exec_blkStart_of_busy {s : State} (h : s.res.st = .busy) : exec .blkStart s = .next s := by
  simp [exec, execBlkStart, h]

/-- Every start that is not ignored ends as an invocation does. -/
theorem exec_blkStart_ends {s : State} (h : s.res.st ≠ .busy) :
    ∃ t, exec .blkStart s = .next t ∧ (Done s t ∨ EndedEarly s t) := by
  rw [exec_blkStart_of_not_busy h]
  exact (runInvocation_finishes s).outcome

/-- A load of an invocation that succeeds (R125). -/
theorem loadInput_beginRun {s : State} (hlen : s.cfg.len ≤ s.env.input.length)
    (hl : (nextLoad s).1 = .attempt true true) :
    ∃ v, loadInput s.beginRun = .cont v ∧ v.env.loaded = some (s.env.input.take s.cfg.len) ∧ v.cfg = s.cfg
      ∧ v.sink = s.sink ∧ v.env.opens = s.env.opens := by
  have hl' : (nextLoad s.beginRun).1 = .attempt true true := by
    rw [nextLoad_fst] at hl ⊢
    exact hl
  rw [loadInput_attempt hl', if_neg (by simp), if_neg (by simp [hlen]), nextLoad_eq]
  exact ⟨_, rfl, rfl, rfl, rfl, rfl⟩

/-- An invocation whose load succeeds comes to its open with the sink as it was (R122). -/
theorem runInvocation_loaded {s : State} {w : Width} (hw : widthOf? s.cfg.width = some w) (hn : 1 ≤ s.cfg.nplanes)
    (hlen : s.cfg.len ≤ s.env.input.length) (hl : (nextLoad s).1 = .attempt true true) :
    ∃ u, runInvocation s = ((openSink u).andThen fun s => (encodePlanes s).andThen fun s => .cont s.endRun)
      ∧ u.sink = s.sink ∧ u.cfg = s.cfg ∧ u.env.opens = s.env.opens := by
  obtain ⟨v, hload, hloaded, hcfg, hsink, hopens⟩ := loadInput_beginRun hlen hl
  have hpad := padInput_loaded w v _ (hcfg ▸ hw) hloaded (by rw [hcfg]; exact List.length_take_of_le hlen)
  rw [runInvocation_legal hw hn, hload, andThen_cont, hpad]
  exact ⟨_, rfl, hsink, hcfg, hopens⟩

/-- A refused open ends the invocation (R139). -/
theorem exec_blkStart_open_refused {s : State} {w : Width} {b : Bool} (hs : s.res.st ≠ .busy)
    (hw : widthOf? s.cfg.width = some w) (hn : 1 ≤ s.cfg.nplanes) (hlen : s.cfg.len ≤ s.env.input.length)
    (hl : (nextLoad s).1 = .attempt true true) (ho : (nextOpen s).1 = .refused b) :
    ∃ t, exec .blkStart s = .next t ∧ t.res.st = .error ∧ t.res.err = .ioFailure ∧ t.res.cause = some .openSink
      ∧ t.sink = { s.sink with out := if b && !s.cfg.append then [] else s.sink.out } := by
  obtain ⟨u, hrun, hsink, hcfg, hopens⟩ := runInvocation_loaded hw hn hlen hl
  have ho' : (nextOpen u).1 = .refused b := by rw [nextOpen_fst, hopens, ← nextOpen_fst, ho]
  rw [exec_blkStart_of_not_busy hs, hrun, openSink_refused ho', hsink, hcfg]
  exact ⟨_, rfl, rfl, rfl, rfl, rfl⟩

/-- Settles O44: the four claims are about one and the same next state. -/
theorem startAlwaysEnds : Obligations.StartAlwaysEnds := by
  intro s
  by_cases hs : s.res.st = .busy
  · refine ⟨s, exec_blkStart_of_busy hs, fun h => absurd hs h, fun _ => rfl, fun _ _ h => absurd hs h, ?_⟩
    intro _ _ _ _ _ hready
    exact absurd hs hready.1
  · obtain ⟨t, ht, hend⟩ := exec_blkStart_ends hs
    refine ⟨t, ht, fun _ => ?status, fun h => absurd h hs, ?openRefused, ?writeRefused⟩
    case status =>
      rcases hend with hdone | hfailed | habandoned
      · exact .inl ⟨hdone.st, hdone.err⟩
      · exact .inr (.inl ⟨hfailed.st, hfailed.status.err_of_error hfailed.st⟩)
      · exact .inr (.inr ⟨habandoned.listed, habandoned.res⟩)
    case openRefused =>
      intro w b _ hw hn hlen hl ho
      obtain ⟨u, hu, hclaim⟩ := exec_blkStart_open_refused hs hw hn hlen hl ho
      cases ht.symm.trans hu
      exact hclaim
    case writeRefused =>
      intro w k kept later t₀ hready hwrites ht₀ hk
      obtain ⟨u, hu, hfailed, hout⟩ := runInvocation_refused w k kept later s t₀ hready hwrites ht₀ hk
      rw [exec_blkStart_of_not_busy hs, hu] at ht
      cases ht
      exact ⟨hfailed.st, hfailed.err, hfailed.cause, hout⟩

end Sys2Proof.Machine
end

