-- ==== Sys2Proof/Proofs/ReferenceReader.lean ====
section
/-! PROOFS. The reference reader (30_encoding §6, R70): each token, the refusals, and the stream of a completed
invocation read back (95_test_vectors P1). -/

namespace Sys2Proof.Machine

/-! ### One token -/

theorem withPlane_running {w : Width} {s : State} (hrun : s.rd.running = true) (hw : s.rd.width = w) (k : Flow) :
    withPlane w s k = k := by
  rw [withPlane, if_pos hrun, if_pos hw]

/-- The reader with the elements `es` more in the plane being read, `n` bytes on (R70). -/
def State.readOn (s : State) (es : List Nat) (n : Nat) : State :=
  { s with rd := { s.rd with cur := s.rd.cur ++ es, pos := s.rd.pos + n } }

theorem readOn_nil (s : State) : s.readOn [] 0 = s := by
  simp [State.readOn]

theorem readOn_readOn (s : State) (xs ys : List Nat) (m n : Nat) :
    (s.readOn xs m).readOn ys n = s.readOn (xs ++ ys) (m + n) := by
  simp [State.readOn, Nat.add_assoc]

/-- Settles O49: the token's words are its bytes, `W` each. -/
theorem readerTakesToken : Obligations.ReaderTakesToken := by
  intro s i w hrun hw hi hwf hk
  rw [exec_dataToken w i s hrun hw hi hwf hk, encode_length s.rd.order w i hi, ← hw]
  rfl

theorem exec_termToken_open {s : State} {w : Width} (hrun : s.rd.running = true) (hw : s.rd.width = w)
    (hmore : s.rd.done.length + 1 < s.rd.nplanes) : exec (termToken w) s = .next s.closePlane := by
  have hrun' : s.closePlane.rd.running = true := by simpa [Reader.running] using hmore
  rw [exec_termToken, readTerm, withPlane_running hrun hw, if_pos hrun']
  rfl

theorem exec_termToken_last {s : State} {w : Width} (hrun : s.rd.running = true) (hw : s.rd.width = w)
    (hlast : s.rd.done.length + 1 = s.rd.nplanes) : exec (termToken w) s = (finishRead s.closePlane).outcome := by
  have hrun' : ¬s.closePlane.rd.running = true := by simp [Reader.running, hlast]
  rw [exec_termToken, readTerm, withPlane_running hrun hw, if_neg hrun']

/-- The end of a read whose planes are those of `es` hands `es` back (R70, R104). -/
theorem finishRead_planes {s : State} {es : List Nat} (hn : 1 ≤ s.rd.nplanes) (hpos : s.rd.pos = s.rd.bytes.length)
    (hdone : s.rd.done = (List.range s.rd.nplanes).map fun p => planeElements s.rd.nplanes p es) :
    finishRead s = .cont (s.answer (.elements es)) := by
  obtain ⟨htotal, hlengths, hinter⟩ := interleave_planes s.rd.nplanes es hn
  rw [← hdone] at htotal hlengths hinter
  rw [finishRead, if_neg (not_not_intro hpos), htotal, if_pos hlengths, hinter]

/-- Settles O50: the last terminator is the one after which no plane is being read. -/
theorem readerEndsPlaneAtTerminator : Obligations.ReaderEndsPlaneAtTerminator := by
  rintro s i w hrun rfl rfl
  constructor
  · exact exec_termToken_open hrun rfl
  · intro hlast hpos es hes
    rw [exec_termToken_last hrun rfl hlast, finishRead_planes (s := s.closePlane) (by simp; omega) hpos hes]
    rfl

/-! ### The refusals -/

/-- The fields of a run token are cut to the width's (R54). -/
theorem runToken_mod (w : Width) (k v : Nat) : runToken w k v = runToken w k (v % elemLimit w) := by
  cases w <;> simp [runToken, elemLimit, widthBytes, ← BitVec.toNat_inj]

theorem exec_runToken_reserved {s : State} {w : Width} (hrun : s.rd.running = true) (hw : s.rd.width = w) {k : Nat}
    (v : Nat) (hk : k < 2) : exec (runToken w k v) s = .refused .reservedRunCount := by
  have hflag : k < runFlagOf w := by
    have hcap := two_lt_capOf w
    have hlt := capOf_lt_runFlagOf w
    omega
  have hv : v % elemLimit w < elemLimit w := Nat.mod_lt _ (Nat.two_pow_pos _)
  rw [runToken_mod, exec_runToken w k _ s hflag hv, readRun, withPlane_running hrun hw, if_neg (by omega)]
  rfl

theorem finishRead_trailing {s : State} (h : s.rd.pos ≠ s.rd.bytes.length) : finishRead s = .stuck .trailingBytes := by
  rw [finishRead, if_pos h]

theorem finishRead_lengths {s : State} {p : Nat} (hpos : s.rd.pos = s.rd.bytes.length) (hp : p < s.rd.done.length)
    (hne : (s.rd.done.getD p []).length ≠ planeLength s.rd.nplanes (totalLength s.rd.done) p) :
    finishRead s = .stuck .planeLengths := by
  have hbad : ¬planeLengthsOk s.rd.nplanes (totalLength s.rd.done) s.rd.done = true := by
    intro hok
    have := List.all_eq_true.mp hok p (List.mem_range.mpr hp)
    exact hne (by simpa using this)
  rw [finishRead, if_neg (not_not_intro hpos), if_neg hbad]

/-- Settles O51: a token cut short is not decoded; the others are refused where the reader takes them. -/
theorem readerRefusesBadStreams : Obligations.ReaderRefusesBadStreams := by
  rintro s w hrun rfl
  have hdrop : (s.rd.bytes.drop s.rd.pos).length = s.rd.bytes.length - s.rd.pos := List.length_drop
  refine ⟨?reserved, ?control, ?payload, ?trailing, ?lengths⟩
  case reserved => exact fun k v hk => exec_runToken_reserved hrun rfl v hk
  case control =>
    intro hlen
    have hpos := widthBytes_pos s.rd.width
    exact step_of_decode_error s _ hrun (decode_cut_control _ _ _ (by omega))
  case payload =>
    rintro c hlen rfl
    constructor
    · intro hflag hshort
      exact step_of_decode_error s _ hrun (decode_cut_run _ _ _ (by omega) hflag (by omega))
    · intro hflag hne hshort
      exact step_of_decode_error s _ hrun (decode_cut_literal _ _ _ (by omega) hflag hne (by omega))
  case trailing =>
    intro hlast hpos
    rw [exec_termToken_last hrun rfl hlast, finishRead_trailing (s := s.closePlane) hpos]
    rfl
  case lengths =>
    intro p hlast hpos hp hne
    have hp' : p < s.closePlane.rd.done.length := by simpa [hlast] using hp
    rw [exec_termToken_last hrun rfl hlast, finishRead_lengths (s := s.closePlane) hpos hp' hne]
    rfl

/-! ### Reading a stream back -/

/-- Settles O52: fetching is decoding at the reader's position. -/
theorem stepRunsDecodedToken : Obligations.StepRunsDecodedToken := by
  intro s i rest hrun hdecode
  simp [step, hrun, fetchToken, hdecode]

/-- At the bytes of a well-formed token of the stream's width, a step runs the token. -/
theorem step_of_encode {s : State} {i : Instr} {rest : List Byte} (hrun : s.rd.running = true)
    (hi : tokenWidth? i = some s.rd.width) (hwf : i.wellFormed = true)
    (hbytes : s.rd.bytes.drop s.rd.pos = encode s.rd.order i ++ rest) : step s = exec i s := by
  refine stepRunsDecodedToken s i rest hrun ?_
  rw [hbytes]
  exact tokenDecodesAsEncoded i s.rd.width s.rd.order rest hi hwf

/-- The reader takes the tokens of a plane one a step. -/
theorem run_dataTokens {toks : List Instr} {rest : List Byte} {s : State} (hrun : s.rd.running = true)
    (htoks : ∀ i ∈ toks, DataToken s.rd.width i)
    (hbytes : s.rd.bytes.drop s.rd.pos = toks.flatMap (encode s.rd.order) ++ rest) :
    Host.Core.run Sys2Proof.core toks.length s
      = .next (s.readOn (toks.flatMap tokenElements) (toks.flatMap (encode s.rd.order)).length) := by
  induction toks generalizing s with
  | nil => simp [Host.Core.run, readOn_nil]
  | cons i toks ih =>
    obtain ⟨hi, hwf, hkind, -⟩ := htoks i (by simp)
    rw [List.flatMap_cons, List.append_assoc] at hbytes
    have hstep : step s = .next (s.readOn (tokenElements i) (encode s.rd.order i).length) := by
      rw [step_of_encode hrun hi hwf hbytes]
      exact readerTakesToken s i _ hrun rfl hi hwf hkind
    have hnext := ih (s := s.readOn (tokenElements i) (encode s.rd.order i).length) hrun
      (fun j hj => htoks j (List.mem_cons_of_mem i hj))
      (by
        show s.rd.bytes.drop (s.rd.pos + (encode s.rd.order i).length) = _
        rw [← List.drop_drop, hbytes, List.drop_left]
        rfl)
    rw [List.length_cons, run_succ _ _ _ hstep, hnext, readOn_readOn, List.flatMap_cons, List.flatMap_cons,
      List.length_append]
    rfl

theorem encode_termToken_length (w : Width) (o : ByteOrder) : (encode o (termToken w)).length = widthBytes w := by
  rw [encode_termToken, serialiseAll_length]
  simp

/-- Before the terminator of a plane of the grammar, its elements have been read (R53, R70). -/
theorem run_plane {es : List Nat} {bs rest : List Byte} {s : State} (hrun : s.rd.running = true)
    (hplane : EncodesPlane s.rd.width s.rd.order es bs) (hbytes : s.rd.bytes.drop s.rd.pos = bs ++ rest) :
    ∃ k m, m + widthBytes s.rd.width = bs.length
      ∧ Host.Core.run Sys2Proof.core k s = .next (s.readOn es m)
      ∧ step (s.readOn es m) = exec (termToken s.rd.width) (s.readOn es m) := by
  obtain ⟨toks, ⟨hdata, -, rfl⟩, rfl⟩ := hplane
  rw [List.append_assoc] at hbytes
  refine ⟨toks.length, (toks.flatMap (encode s.rd.order)).length, ?_, run_dataTokens hrun hdata hbytes, ?_⟩
  · rw [List.length_append, encode_termToken_length]
  · refine step_of_encode (s := s.readOn _ _) (rest := rest) hrun (tokenWidth?_termToken _) ?_ ?_
    · cases s.rd.width <;> rfl
    · show s.rd.bytes.drop (s.rd.pos + _) = _
      rw [← List.drop_drop, hbytes, List.drop_left]
      rfl

/-- The parts of a stream from one plane on begin with that plane's. -/
theorem flatten_drop_parts {parts : List (List Byte)} {p : Nat} (hp : p < parts.length) :
    parts.flatten.drop (parts.take p).flatten.length = parts.getD p [] ++ (parts.drop (p + 1)).flatten := by
  have hsplit : parts.flatten = (parts.take p).flatten ++ (parts.drop p).flatten := by
    rw [← List.flatten_append, List.take_append_drop]
  rw [hsplit, List.drop_left, List.drop_eq_getElem_cons hp, List.flatten_cons, List.getD_eq_getElem _ _ hp]

theorem flatten_take_succ_length {parts : List (List Byte)} {p : Nat} (hp : p < parts.length) :
    (parts.take (p + 1)).flatten.length = (parts.take p).flatten.length + (parts.getD p []).length := by
  rw [List.take_succ_eq_append_getElem hp, List.flatten_append, List.length_append, List.getD_eq_getElem _ _ hp]
  simp

/-- The reader after the first `p` planes of a stream `parts` that stands for `es`. -/
def State.afterPlanes (s : State) (parts : List (List Byte)) (es : List Nat) (p : Nat) : State :=
  { s with
    rd :=
      { s.rd with
        done := (List.range p).map fun q => planeElements s.rd.nplanes q es
        cur := []
        pos := (parts.take p).flatten.length } }

theorem afterPlanes_done_length (s : State) (parts : List (List Byte)) (es : List Nat) (p : Nat) :
    (s.afterPlanes parts es p).rd.done.length = p := by
  simp [State.afterPlanes]

/-- The reader stands before a stream of the grammar for `es`, its planes `parts` (R53). -/
structure BeforeStream (s : State) (parts : List (List Byte)) (es : List Nat) : Prop where
  start : s.afterPlanes parts es 0 = s
  bytes : s.rd.bytes = parts.flatten
  count : parts.length = s.rd.nplanes
  plane : ∀ p, p < s.rd.nplanes →
    EncodesPlane s.rd.width s.rd.order (planeElements s.rd.nplanes p es) (parts.getD p [])

/-- From the end of one plane, the reader comes to the terminator of the next, which would end that plane. -/
theorem BeforeStream.run_next {s : State} {parts : List (List Byte)} {es : List Nat} (h : BeforeStream s parts es)
    {p : Nat} (hp : p < s.rd.nplanes) :
    ∃ (k : Nat) (v : State), Host.Core.run Sys2Proof.core k (s.afterPlanes parts es p) = .next v
      ∧ step v = exec (termToken s.rd.width) v ∧ v.rd.running = true ∧ v.rd.width = s.rd.width
      ∧ v.rd.nplanes = s.rd.nplanes ∧ v.rd.done.length = p ∧ v.closePlane = s.afterPlanes parts es (p + 1) := by
  have hp' : p < parts.length := h.count ▸ hp
  have hdone := afterPlanes_done_length s parts es p
  have hrun : (s.afterPlanes parts es p).rd.running = true := decide_eq_true (hdone.symm ▸ hp)
  have hbytes : (s.afterPlanes parts es p).rd.bytes.drop (s.afterPlanes parts es p).rd.pos
      = parts.getD p [] ++ (parts.drop (p + 1)).flatten := by
    rw [← flatten_drop_parts hp', ← h.bytes]
    rfl
  obtain ⟨k, m, hm, hread, hterm⟩ := run_plane (s := s.afterPlanes parts es p) hrun (h.plane p hp) hbytes
  refine ⟨k, _, hread, hterm, hrun, rfl, rfl, hdone, ?_⟩
  have hpos : (parts.take p).flatten.length + m + widthBytes s.rd.width = (parts.take (p + 1)).flatten.length := by
    rw [flatten_take_succ_length hp', ← hm, Nat.add_assoc]
    rfl
  simp only [State.closePlane, State.readOn, State.afterPlanes, hpos]
  rw [List.range_succ, List.map_append]
  rfl

/-- The reader reads any number of planes short of the last (R70). -/
theorem BeforeStream.run_planes {s : State} {parts : List (List Byte)} {es : List Nat} (h : BeforeStream s parts es)
    {p : Nat} (hp : p < s.rd.nplanes) :
    ∃ k, Host.Core.run Sys2Proof.core k s = .next (s.afterPlanes parts es p) := by
  induction p with
  | zero => exact ⟨0, congrArg Host.Outcome.next h.start.symm⟩
  | succ p ih =>
    obtain ⟨k, hk⟩ := ih (by omega)
    obtain ⟨j, v, hv, hterm, hrun, hw, hn, hdone, hclose⟩ := h.run_next (p := p) (by omega)
    refine ⟨k + (j + 1), ?_⟩
    rw [run_add _ _ _ _ hk, run_add _ _ _ _ hv, run_one, hterm, exec_termToken_open hrun hw (by omega), hclose]
    rfl

/-- The reader run on a stream of the grammar hands back the elements the stream stands for (R53, R70). -/
theorem BeforeStream.run_stream {s : State} {parts : List (List Byte)} {es : List Nat} (h : BeforeStream s parts es)
    (hn : 1 ≤ s.rd.nplanes) :
    ∃ (k : Nat) (u : State), Host.Core.run Sys2Proof.core k s = .next u ∧ u.ret = some (.elements es)
      ∧ u.rd.running = false := by
  have hlast : s.rd.nplanes - 1 + 1 = s.rd.nplanes := by omega
  obtain ⟨k, hk⟩ := h.run_planes (p := s.rd.nplanes - 1) (by omega)
  obtain ⟨j, v, hv, hterm, hrun, hw, hvn, hdone, hclose⟩ := h.run_next (p := s.rd.nplanes - 1) (by omega)
  rw [hlast] at hclose
  have hfinish : finishRead (s.afterPlanes parts es s.rd.nplanes)
      = .cont ((s.afterPlanes parts es s.rd.nplanes).answer (.elements es)) := by
    refine finishRead_planes hn ?_ rfl
    show (parts.take s.rd.nplanes).flatten.length = s.rd.bytes.length
    rw [← h.count, List.take_length, h.bytes]
  refine ⟨k + (j + 1), (s.afterPlanes parts es s.rd.nplanes).answer (.elements es), ?_, rfl, ?_⟩
  · rw [run_add _ _ _ _ hk, run_add _ _ _ _ hv, run_one, hterm, exec_termToken_last hrun hw (by omega), hclose, hfinish]
    rfl
  · exact decide_eq_false (by rw [answer_rd, afterPlanes_done_length]; exact Nat.lt_irrefl _)

theorem beforeStream_startRead {n : Nat} {w : Width} {o : ByteOrder} {es : List Nat} {bs : List Byte}
    (h : EncodesStream w o n es bs) (t : State) : ∃ parts, BeforeStream (startRead bs n w o t) parts es := by
  obtain ⟨parts, hcount, rfl, hplane⟩ := h
  exact ⟨parts, rfl, rfl, hcount, hplane⟩

/-- Settles O45: the bytes of a completed invocation are a stream of the padded input's elements. -/
theorem readerInvertsEncoder : Obligations.ReaderInvertsEncoder := by
  intro s w n h hn ha
  have hstream := planesWords_encodes w (effectiveOrder s) n _
    (elementsOf_fit w (effectiveOrder s) (paddedInput w s))
  obtain ⟨parts, hbefore⟩ := beforeStream_startRead hstream (s.completed w n)
  obtain ⟨k, u, hread, hret, hend⟩ := hbefore.run_stream (h.planes_pos hn)
  have hbytes := serialiseAll_elementsOf w (effectiveOrder s) _ _ (paddedInput_length_eq w h.input_present)
  refine ⟨_, u, k, exec_blkStart_completed h hn ha, ?_, hret, hend, hbytes⟩
  rw [completed_stream]
  exact hread

end Sys2Proof.Machine
end

