-- ==== Sys2Proof/Proofs/Frames.lean ====
section
/-! PROOFS. What an instruction can change (10_state, 20_memory, 60_exceptions): said once for every instruction, then
the frames and the invariant of the machine drawn from it; and the step of the machine. -/

namespace Sys2Proof.Machine

/-! ### What an instruction can change -/

/-- The instructions that hand no result back (log 3), apart from the tokens. -/
def ReturnsNothing (i : Instr) : Prop :=
  unitOf i = .enc ∨ unitOf i = .ps ∨ i = .sinkOpen ∨ i = .sinkTerm ∨ (∃ e, i = .sinkPut e) ∨ i = .blkStart
    ∨ i = .blkCheck ∨ i = .blkPad ∨ i = .blkLoad ∨ ∃ c, i = .blkConfig c

/-- What an instruction leaves unchanged even where a block reset ends it: what is not the block's own, and the bytes
in the sink (R24, R33, R41). The input buffer is the old one or one that `BLK.PAD` makes. -/
structure OutsideFrame (i : Instr) (s t : State) : Prop where
  nativeOrder : t.env.nativeOrder = s.env.nativeOrder
  input : t.env.input = s.env.input
  hostq : t.hostq = s.hostq
  rd : unitOf i ≠ .token → t.rd = s.rd
  ret : ReturnsNothing i → t.ret = s.ret
  out : s.cfg.append = true ∨ i ≠ .sinkOpen ∧ i ≠ .blkStart → s.sink.out <+: t.sink.out
  inb : t.inb = s.inb ∨ ∃ w bs, t.inb = paddedBuffer w bs

/-- The status after an instruction is what it was, or a recorded error (R135, R141). -/
def StatusKeptOrError (s t : State) : Prop :=
  (t.res.st = s.res.st ∧ t.res.err = s.res.err ∧ t.res.cause = s.res.cause ∧ (EncShape s.enc → EncShape t.enc))
    ∨ t.res.st = .error ∧ StatusOk t.res

/-- What an instruction other than `BLK.START` leaves unchanged where no block reset ends it: the block's own registers,
apart from those the instruction is there to write. -/
structure BlockFrame (i : Instr) (s t : State) : Prop extends OutsideFrame i s t where
  cfg : (∀ c, i ≠ .blkConfig c) → t.cfg = s.cfg
  enc : unitOf i ≠ .enc → unitOf i ≠ .ps → t.enc = s.enc
  ps : unitOf i ≠ .ps → t.ps = s.ps
  sink : writesSink i = false → t.sink.out = s.sink.out ∧ t.res.encodedBytes = s.res.encodedBytes
  out0len : i ≠ .sinkOpen → t.sink.out0len = s.sink.out0len
  buffer : i ≠ .blkPad → t.inb = s.inb
  sizes : i ≠ .blkPad →
    t.res.origSize = s.res.origSize ∧ t.res.paddedSize = s.res.paddedSize ∧ t.res.padOccurred = s.res.padOccurred
  status : StatusKeptOrError s t

theorem BlockFrame.refl (i : Instr) (s : State) : BlockFrame i s s where
  nativeOrder := rfl
  input := rfl
  hostq := rfl
  rd := fun _ => rfl
  ret := fun _ => rfl
  out := fun _ => List.prefix_rfl
  inb := .inl rfl
  cfg := fun _ => rfl
  enc := fun _ _ => rfl
  ps := fun _ => rfl
  sink := fun _ => ⟨rfl, rfl⟩
  out0len := fun _ => rfl
  buffer := fun _ => rfl
  sizes := fun _ => ⟨rfl, rfl, rfl⟩
  status := .inl ⟨rfl, rfl, rfl, id⟩

/-- The effect of an instruction other than `BLK.START`: within its frame, or a block reset, one being listed. -/
def Effect (i : Instr) (s t : State) : Prop :=
  BlockFrame i s t ∨ ¬NoResetListed s ∧ ∃ u, OutsideFrame i s u ∧ t = blockReset u

theorem OutsideFrame.blockReset {i : Instr} {s t : State} (h : OutsideFrame i s t) :
    OutsideFrame i s (blockReset t) :=
  ⟨h.nativeOrder, h.input, h.hostq, h.rd, h.ret, h.out, h.inb⟩

/-! ### The effects, unit by unit -/

theorem ReturnsNothing.unit {i : Instr} (h : ReturnsNothing i) : unitOf i ≠ .token ∧ unitOf i ≠ .pol := by
  rcases h with hu | hu | rfl | rfl | ⟨e, rfl⟩ | rfl | rfl | rfl | rfl | ⟨c, rfl⟩
  · simp [hu]
  · simp [hu]
  all_goals simp [unitOf]

theorem token_effect {i : Instr} {s t : State} (hu : unitOf i = .token) (h : exec i s = .next t) : Effect i s t := by
  obtain ⟨rd, ret, rfl⟩ := exec_token_frame i s t hu h
  exact .inl { BlockFrame.refl i s with
    rd := fun hnot => absurd hu hnot
    ret := fun hnone => absurd hu hnone.unit.1 }

/-- An instruction that only hands a result back. -/
theorem answer_frame {i : Instr} (s : State) (r : HostResult) (c : Nat) (h : ¬ReturnsNothing i) :
    BlockFrame i s { s.answer r with freeCount := c } :=
  { BlockFrame.refl i s with ret := fun hnone => absurd hnone h }

theorem pol_effect {i : Instr} {s t : State} (hu : unitOf i = .pol) (h : exec i s = .next t) : Effect i s t := by
  obtain ⟨r, rfl⟩ := exec_pol_frame i s t hu h
  exact .inl (answer_frame s r s.freeCount fun hnone => hnone.unit.2 hu)

theorem ser_effect {e : Nat} {s t : State} (h : exec (.ser e) s = .next t) : Effect (.ser e) s t := by
  have hreturns : ¬ReturnsNothing (.ser e) := by simp [ReturnsNothing, unitOf]
  cases hw : widthOf? s.cfg.width with
  | none => simp [exec, execSer, withWidth, hw] at h
  | some w =>
    by_cases he : e < elemLimit w
    · rw [exec_ser hw he] at h
      cases h
      exact .inl (answer_frame s _ s.freeCount hreturns)
    · simp [exec, execSer, withWidth, withElement, hw, he] at h

/-- The writers of the sink that are made of `SINK.PUT`s alone. -/
def PutsOnly (i : Instr) : Prop :=
  unitOf i = .enc ∨ unitOf i = .ps ∨ (∃ e, i = .sinkPut e) ∨ i = .sinkTerm

/-- What sink writes leave alone is in the frame of each instruction made of them (R41). -/
theorem SinkFrame.outside {i : Instr} {s t : State} (h : SinkFrame s t) : OutsideFrame i s t where
  nativeOrder := h.nativeOrder
  input := h.input
  hostq := h.hostq
  rd := fun _ => h.rd
  ret := fun _ => h.ret
  out := fun _ => h.out
  inb := .inl h.inb

theorem SinkFrame.block {i : Instr} {s t : State} (h : SinkFrame s t)
    (henc : unitOf i ≠ .enc → unitOf i ≠ .ps → t.enc = s.enc) (hps : unitOf i ≠ .ps → t.ps = s.ps)
    (hwrites : writesSink i = true) (hst : StatusKeptOrError s t) :
    BlockFrame i s t :=
  { h.outside with
    cfg := fun _ => h.cfg
    enc := henc
    ps := hps
    sink := fun hnot => by simp [hwrites] at hnot
    out0len := fun _ => h.out0len
    buffer := fun _ => h.inb
    sizes := fun _ => ⟨h.origSize, h.paddedSize, h.padOccurred⟩
    status := hst }

theorem PutsOnly.writesSink {i : Instr} (h : PutsOnly i) (hi : i ≠ .encReset) : writesSink i = true := by
  rcases h with hu | hu | ⟨e, rfl⟩ | rfl
  · simp [Machine.writesSink, hu, hi]
  · simp [Machine.writesSink, hu]
  · rfl
  · rfl

theorem encReset_effect {s t : State} (h : exec .encReset s = .next t) : Effect .encReset s t := by
  cases h
  exact .inl { BlockFrame.refl .encReset s with
    enc := fun hnot => absurd rfl hnot
    status := .inl ⟨rfl, rfl, rfl, fun _ => encShape_of_encEmpty rfl⟩ }

theorem puts_effect {i : Instr} {s t : State} (hi : PutsOnly i) (hne : i ≠ .encReset) (h : exec i s = .next t) :
    Effect i s t := by
  obtain ⟨x, hx, hspec, henc⟩ := exec_writer_spec i s hi
  have hwrites := hi.writesSink hne
  have hregs : unitOf i ≠ .enc → unitOf i ≠ .ps → x.SinkSpec s (fun t => t.enc = s.enc) fun t => t.enc = s.enc :=
    fun h1 h2 => henc.resolve_left fun hu => hu.elim h1 h2
  rw [hx] at h
  cases x with
  | cont u =>
    cases h
    obtain ⟨hf, hst, hps, hshape⟩ := hspec
    exact .inl (hf.block (fun h1 h2 => (hregs h1 h2).2.2) hps hwrites (.inl ⟨hst.st, hst.err, hst.cause, hshape⟩))
  | raised u =>
    cases h
    obtain ⟨hf, hfailed, hps⟩ := hspec
    exact .inl (hf.block (fun h1 h2 => (hregs h1 h2).2.2) hps hwrites (.inr ⟨hfailed.st, hfailed.statusOk⟩))
  | abandoned u =>
    cases h
    obtain ⟨hlisted, v, hf, -, rfl⟩ := hspec
    exact .inr ⟨not_noResetListed_of_write hlisted, v, hf.outside, rfl⟩
  | faulted f => cases h
  | stuck r => cases h

theorem sinkOpen_effect {s t : State} (h : exec .sinkOpen s = .next t) : Effect .sinkOpen s t := by
  have hkeep : ∀ out, out = s.sink.out ∨ s.cfg.append = false ∧ out = [] →
      (s.cfg.append = true ∨ Instr.sinkOpen ≠ .sinkOpen ∧ Instr.sinkOpen ≠ .blkStart) → s.sink.out <+: out := by
    rintro out (rfl | ⟨hoff, -⟩) (happ | hnot)
    · exact List.prefix_rfl
    · exact List.prefix_rfl
    · simp [hoff] at happ
    · exact absurd rfl hnot.1
  have hx : exec .sinkOpen s = (openSink s).outcome := rfl
  rw [hx] at h
  rcases openSink_cases s with ⟨out, hopen, hout⟩ | ⟨out, hopen, hout⟩ | ⟨out, b, hopen, hout, hlisted⟩
  all_goals
    rw [hopen] at h
    cases h
  · refine .inl { BlockFrame.refl .sinkOpen s with
      out := hkeep out ?_
      sink := fun hnot => nomatch hnot
      out0len := fun hnot => absurd rfl hnot }
    cases happ : s.cfg.append <;> simp [hout, happ]
  · exact .inl { BlockFrame.refl .sinkOpen s with
      out := hkeep out hout
      sink := fun hnot => nomatch hnot
      status := .inr ⟨rfl, statusOk_error causeOf_open⟩ }
  · refine .inr ⟨not_noResetListed_of_open hlisted, _, ?_, rfl⟩
    exact { BlockFrame.refl .sinkOpen s with out := hkeep out hout }

theorem blkConfig_effect {c : CfgWrite} {s t : State} (h : exec (.blkConfig c) s = .next t) :
    Effect (.blkConfig c) s t := by
  have hx : exec (.blkConfig c) s = execBlkConfig c s := rfl
  rw [hx, execBlkConfig] at h
  split at h <;> cases h
  · exact .inl (BlockFrame.refl _ s)
  · exact .inl { BlockFrame.refl (.blkConfig c) s with cfg := fun hnot => absurd rfl (hnot c) }

theorem blkCheck_effect {s t : State} (h : exec .blkCheck s = .next t) : Effect .blkCheck s t := by
  rw [exec_blkCheck] at h
  rcases checkConfig_cases s with ⟨-, -, -, hcheck⟩ | ⟨c, hc, hcheck⟩
  all_goals
    rw [hcheck] at h
    cases h
  · exact .inl (BlockFrame.refl _ s)
  · exact .inl { BlockFrame.refl .blkCheck s with
      status := .inr ⟨rfl, statusOk_error (causeOf_check hc)⟩ }

theorem blkPad_effect {s t : State} (h : exec .blkPad s = .next t) : Effect .blkPad s t := by
  have hx : exec .blkPad s = (padInput s).outcome := rfl
  rw [hx] at h
  rcases padInput_cases s with ⟨-, hpad⟩ | ⟨w, bs, c, -, -, hpad⟩
  all_goals
    rw [hpad] at h
    cases h
  exact .inl { BlockFrame.refl .blkPad s with
    inb := .inr ⟨w, bs, rfl⟩, buffer := fun hnot => absurd rfl hnot, sizes := fun hnot => absurd rfl hnot }

theorem blkLoad_effect {s t : State} (h : exec .blkLoad s = .next t) : Effect .blkLoad s t := by
  have hx : exec .blkLoad s = (loadInput s).outcome := rfl
  rw [hx] at h
  rcases loadInput_cases s with ⟨env, hload, -, -, h1, h2, -⟩ | ⟨env, k, c, hload, hkc, h1, h2, -⟩
    | ⟨env, hload, h1, h2, -, -, hlisted⟩
  all_goals
    rw [hload] at h
    cases h
  · exact .inl { BlockFrame.refl .blkLoad s with nativeOrder := h1, input := h2 }
  · exact .inl { BlockFrame.refl .blkLoad s with
      nativeOrder := h1, input := h2, status := .inr ⟨rfl, statusOk_error (causeOf_load hkc)⟩ }
  · refine .inr ⟨not_noResetListed_of_load hlisted, _, ?_, rfl⟩
    exact { BlockFrame.refl .blkLoad s with nativeOrder := h1, input := h2 }

theorem blkReport_effect {s t : State} (h : exec .blkReport s = .next t) : Effect .blkReport s t := by
  have hreturns : ¬ReturnsNothing .blkReport := by simp [ReturnsNothing, unitOf]
  have hx : exec .blkReport s = execBlkReport s := rfl
  rw [hx, execBlkReport] at h
  split at h <;> cases h <;> exact .inl (answer_frame s _ _ hreturns)

theorem blkStatus_effect {s t : State} (h : exec .blkStatus s = .next t) : Effect .blkStatus s t := by
  have hreturns : ¬ReturnsNothing .blkStatus := by simp [ReturnsNothing, unitOf]
  cases h
  exact .inl (answer_frame s _ s.freeCount hreturns)

/-- What an instruction other than `BLK.START` can do. -/
theorem exec_effect {i : Instr} {s t : State} (hi : i ≠ .blkStart) (h : exec i s = .next t) : Effect i s t := by
  cases hu : unitOf i with
  | token => exact token_effect hu h
  | pol => exact pol_effect hu h
  | enc =>
    by_cases hreset : i = .encReset
    · subst hreset
      exact encReset_effect h
    · exact puts_effect (.inl hu) hreset h
  | ps => exact puts_effect (.inr (.inl hu)) (by rintro rfl; cases hu) h
  | sink =>
    cases i <;> simp only [unitOf, reduceCtorEq] at hu
    case sinkOpen => exact sinkOpen_effect h
    case ser => exact ser_effect h
    case sinkPut e => exact puts_effect (.inr (.inr (.inl ⟨e, rfl⟩))) (by simp) h
    case sinkTerm => exact puts_effect (.inr (.inr (.inr rfl))) (by simp) h
  | blk =>
    cases i <;> simp only [unitOf, reduceCtorEq] at hu
    case blkConfig => exact blkConfig_effect h
    case blkStart => exact absurd rfl hi
    case blkCheck => exact blkCheck_effect h
    case blkPad => exact blkPad_effect h
    case blkLoad => exact blkLoad_effect h
    case blkReport => exact blkReport_effect h
    case blkStatus => exact blkStatus_effect h

/-- Where no block reset is listed, an instruction other than `BLK.START` keeps to its frame. -/
theorem exec_blockFrame {i : Instr} {s t : State} (h : exec i s = .next t) (hno : NoResetListed s)
    (hi : i ≠ .blkStart) :
    BlockFrame i s t :=
  (exec_effect hi h).resolve_right fun hreset => hreset.1 hno

theorem InvocationFrame.outside {s t : State} (h : InvocationFrame s t) : OutsideFrame .blkStart s t where
  nativeOrder := h.nativeOrder
  input := h.input
  hostq := h.hostq
  rd := fun _ => h.rd
  ret := fun _ => h.ret
  out := by
    rintro (happ | hnot)
    · exact h.out happ
    · exact absurd rfl hnot.2
  inb := h.inb

/-- However an invocation ends, it keeps to its frame. -/
theorem invocationFrame_of_ended {s t : State} (h : Done s t ∨ EndedEarly s t) : InvocationFrame s t := by
  rcases h with hdone | hfailed | habandoned
  · exact hdone.toInvocationFrame
  · exact hfailed.toInvocationFrame
  · exact habandoned.toInvocationFrame

/-- How a start ends that has answered `t`. -/
theorem blkStart_ends {s t : State} (hs : s.res.st ≠ .busy) (h : exec .blkStart s = .next t) :
    Done s t ∨ EndedEarly s t := by
  obtain ⟨u, hu, hend⟩ := exec_blkStart_ends hs
  cases h.symm.trans hu
  exact hend

/-- What every instruction leaves unchanged, however it ends. -/
theorem exec_outsideFrame {i : Instr} {s t : State} (h : exec i s = .next t) : OutsideFrame i s t := by
  by_cases hi : i = .blkStart
  · subst hi
    by_cases hs : s.res.st = .busy
    · cases h.symm.trans (exec_blkStart_of_busy hs)
      exact (BlockFrame.refl .blkStart s).toOutsideFrame
    · exact (invocationFrame_of_ended (blkStart_ends hs h)).outside
  · rcases exec_effect hi h with hframe | ⟨-, u, hframe, rfl⟩
    · exact hframe.toOutsideFrame
    · exact hframe.blockReset

/-! ### The frames -/

/-- Settles O35: a field of the frame that holds however the instruction ends. -/
theorem sinkBytesNeverChange : Obligations.SinkBytesNeverChange :=
  fun _ _ _ h => (exec_outsideFrame h).out

/-- `BLK.START` reads `CFG` and does not write it (R24). -/
theorem blkStart_cfg {s t : State} (h : exec .blkStart s = .next t) (hno : NoResetListed s) : t.cfg = s.cfg := by
  by_cases hs : s.res.st = .busy
  · cases h.symm.trans (exec_blkStart_of_busy hs)
    rfl
  · rcases blkStart_ends hs h with hdone | hfailed | habandoned
    · exact hdone.cfg
    · exact hfailed.cfg
    · exact absurd hno habandoned.listed

/-- Settles O57: `BLK.START` apart, by the frame of the instruction. -/
theorem configurationFrame : Obligations.ConfigurationFrame := by
  intro i s t h
  have hout := exec_outsideFrame h
  refine ⟨fun hno hcfg => ?_, hout.nativeOrder, hout.input, hout.hostq⟩
  by_cases hi : i = .blkStart
  · subst hi
    exact blkStart_cfg h hno
  · exact (exec_blockFrame h hno hi).cfg hcfg

/-- Settles O58: two fields of the frame. -/
theorem encoderAndIteratorFrame : Obligations.EncoderAndIteratorFrame := by
  intro i s t h hno hi
  have hframe := exec_blockFrame h hno hi
  exact ⟨hframe.enc, hframe.ps⟩

/-- Settles O59: the fields of the frame about sink and input buffer; an equal buffer reads equal. -/
theorem memoryFrame : Obligations.MemoryFrame := by
  intro i s t h hno hi
  have hframe := exec_blockFrame h hno hi
  refine ⟨hframe.sink, hframe.out0len, fun hpad => ?_⟩
  obtain ⟨horig, hpadded, hoccurred⟩ := hframe.sizes hpad
  have hinb := hframe.buffer hpad
  exact ⟨hinb, horig, hpadded, hoccurred, fun a => by rw [hinb]⟩

/-- Settles O60: the fields of the frame about status, reader and result. -/
theorem statusAndResultFrame : Obligations.StatusAndResultFrame := by
  intro i s t h
  have hout := exec_outsideFrame h
  refine ⟨fun hno hi => ?_, hout.rd, hout.ret⟩
  rcases (exec_blockFrame h hno hi).status with ⟨hst, herr, hcause, -⟩ | ⟨hst, hok⟩
  · exact .inl ⟨hst, herr, hcause⟩
  · exact .inr ⟨hst, hok.err_of_error hst⟩

/-! ### The invariant of the machine -/

/-- The part of the invariant about the input memory (log 10). -/
def InputCanonical (b : InBuf) : Prop :=
  Memory.wf b.cells = true ∧ ∀ c ∈ b.cells, c.1 < b.size

theorem machineInv_iff (s : State) :
    MachineInv s ↔ InputCanonical s.inb ∧ StatusOk s.res ∧ (s.res.st ≠ .error → EncShape s.enc) := by
  rw [MachineInv, InputCanonical, and_assoc]

theorem OutsideFrame.inputCanonical {i : Instr} {s t : State} (h : OutsideFrame i s t) (hs : InputCanonical s.inb) :
    InputCanonical t.inb := by
  rcases h.inb with hinb | ⟨w, bs, hinb⟩
  · rwa [hinb]
  · rw [hinb]
    exact paddedBuffer_wf w bs

theorem SameStatus.statusOk {s t : State} (h : SameStatus s t) (hs : StatusOk s.res) : StatusOk t.res := by
  rw [StatusOk, h.st, h.err, h.cause]
  exact hs

/-- The block reset leaves status and encoder as at reset. -/
theorem machineInv_blockReset {s : State} (h : InputCanonical s.inb) : MachineInv (blockReset s) :=
  (machineInv_iff _).mpr ⟨h, statusOk_resReset, fun _ => encShape_of_encEmpty rfl⟩

theorem BlockFrame.machineInv {i : Instr} {s t : State} (h : BlockFrame i s t) (hs : MachineInv s) : MachineInv t := by
  obtain ⟨hinb, hok, hshape⟩ := (machineInv_iff s).mp hs
  refine (machineInv_iff t).mpr ⟨h.inputCanonical hinb, ?_⟩
  rcases h.status with ⟨hst, herr, hcause, hkeep⟩ | ⟨hst, hok'⟩
  · exact ⟨SameStatus.statusOk ⟨hst, herr, hcause⟩ hok, fun hne => hkeep (hshape (hst ▸ hne))⟩
  · exact ⟨hok', fun hne => absurd hst hne⟩

theorem Done.statusOk {s t : State} (h : Done s t) : StatusOk t.res := by
  simp [StatusOk, h.st, h.err, h.cause]

theorem blkStart_machineInv {s t : State} (hs : MachineInv s) (h : exec .blkStart s = .next t) : MachineInv t := by
  obtain ⟨hinb, hok, -⟩ := (machineInv_iff s).mp hs
  refine (machineInv_iff t).mpr ⟨(exec_outsideFrame h).inputCanonical hinb, ?_⟩
  rcases blkStart_ends hok.1 h with hdone | hfailed | habandoned
  · exact ⟨hdone.statusOk, fun _ => encShape_of_encEmpty hdone.enc⟩
  · exact ⟨hfailed.status, fun hne => absurd hfailed.st hne⟩
  · exact ⟨habandoned.res ▸ statusOk_resReset, fun _ => encShape_of_encEmpty habandoned.enc⟩

theorem exec_machineInv {i : Instr} {s t : State} (hs : MachineInv s) (h : exec i s = .next t) : MachineInv t := by
  by_cases hi : i = .blkStart
  · subst hi
    exact blkStart_machineInv hs h
  · rcases exec_effect hi h with hframe | ⟨-, u, hframe, rfl⟩
    · exact hframe.machineInv hs
    · exact machineInv_blockReset (hframe.inputCanonical ((machineInv_iff s).mp hs).1)

/-- A request of the host is an instruction, or touches nothing the invariant speaks of, or resets the block. -/
theorem serve_machineInv {s t : State} (hs : MachineInv s) (h : serve s = .next t) : MachineInv t := by
  unfold serve at h
  split at h
  · cases h
    exact hs
  · rename_i i q _
    exact exec_machineInv (s := { s with hostq := q }) hs h
  · cases h
    exact hs
  · cases h
    exact hs
  · cases h
    exact machineInv_blockReset (s := { s with hostq := _ }) ((machineInv_iff s).mp hs).1
  · obtain ⟨rd, ret, rfl⟩ := hostRead_frame _ _ _ _ _ t h
    exact hs

/-- Settles O55: a step is an instruction or a request. -/
theorem stepKeepsMachineInvariant : Obligations.StepKeepsMachineInvariant := by
  intro s t hs h
  unfold step at h
  split at h
  · split at h
    · exact exec_machineInv hs h
    · cases h
  · exact serve_machineInv hs h

/-- Settles O56: the buffer is empty, the status IDLE, the encoder EMPTY. -/
theorem resetMeetsMachineInvariant : Obligations.ResetMeetsMachineInvariant :=
  (machineInv_iff _).mpr
    ⟨⟨Memory.wf_nil, List.forall_mem_nil _⟩, statusOk_resReset, fun _ => encShape_of_encEmpty rfl⟩

/-! ### The step and the reset values -/

/-- With no plane being read, a step serves the host (log 2). -/
theorem step_of_not_running {s : State} (h : s.rd.running = false) : step s = serve s := by
  simp [step, h]

/-- Settles O53: the oldest request by its form; a reader without a plane to read is at its end. -/
theorem stepServesHost : Obligations.StepServesHost := by
  intro s q hrun
  rw [step_of_not_running hrun]
  refine ⟨?invoke, ?supplyInput, ?supplySink, ?blockReset, ?read, ?idle⟩
  case read =>
    intro bs n w o hq
    have hserve : serve s = (hostRead bs n w o { s with hostq := q }).outcome := by rw [serve, hq]
    rw [hserve]
    refine ⟨fun hn => ?_, ?_, ?_⟩
    · rw [hostRead_planes bs n w o _ hn]
      rfl
    · rintro rfl hbs
      rw [hostRead_no_plane, if_neg hbs]
      rfl
    · rintro rfl rfl
      rfl
  case invoke =>
    intro i hq
    rw [serve, hq]
  case supplyInput =>
    intro bs hq
    rw [serve, hq]
    rfl
  case supplySink =>
    intro bs hq
    rw [serve, hq]
    rfl
  case blockReset =>
    intro hq
    rw [serve, hq]
    rfl
  case idle =>
    intro hq
    rw [serve, hq]

/-- Settles O54: `State.reset` written out. -/
theorem resetValues : Obligations.ResetValues :=
  ⟨rfl, rfl, rfl, rfl, rfl, rfl, rfl, rfl, rfl, rfl⟩

end Sys2Proof.Machine
end
